-- ==== Sys2Proof/Word.lean ====
section
/-! DEFINITION. The word types of the engine: bytes, 128-bit blocks, 32-bit command words, 64-bit CSR values, and the
opaque key handle (spec/00_scope.md R7, R10, R11, R13; spec/10_state.md R20, R30). -/

namespace Sys2Proof

/-- A byte: 8 bits (R13). -/
abbrev Byte := BitVec 8

/-- A block: "exactly 16 bytes" (R7), held as the 128-bit value `int(X)` of R13, so byte 0 is bits 127..120 (R51). -/
abbrev Block := BitVec 128

/-- A command word (R80). -/
abbrev Word := BitVec 32

/-- A CSR value: 64 bits (R30). -/
abbrev CsrValue := BitVec 64

/-- A provider's error code: 32 bits, non-zero in every answer (R32, D7). -/
abbrev ErrCode := BitVec 32

/-- `zero(16)`, the all-zero block of R14. -/
def zeroBlock : Block := 0

/-- The opaque key handle (R10). DESIGN CHOICE (notes/assumptions/5.md): `KEYW` is open, so a handle is a natural
number that no rule reads; it is only passed on and compared with itself. -/
structure KeyHandle where
  handle : Nat
  deriving DecidableEq, Repr

end Sys2Proof
end

