-- ==== Sys2Proof/Config.lean ====
section
/-! DEFINITION. What one instance of the engine and its surroundings fixes, and the free values: the block encryption of
the attached provider (spec/00_scope.md R9), the limits of a segment list (R11), and what a byte of an output buffer that
nothing has written reads as. -/

namespace Sys2Proof

/-- FREE VALUE (notes/assumptions/3.md). The block encryption `Enc(key, x)` of the provider named `provider`, which the
spec leaves to the provider: "The model assumes nothing else of `Enc`" (R9). No body: nothing can be proved of a value. -/
opaque Config.enc (provider : Nat) (key : KeyHandle) (x : Block) : Block

/-- `SEGCNT` is at most this (R11, R53). -/
def Config.maxSegments : Nat := 65535

/-- `LEN_i` is below this: an unsigned 32-bit number (R11, R53). -/
def Config.segmentLimit : Nat := 2 ^ 32

/-- DESIGN CHOICE (notes/assumptions/7.md): what an unlisted byte of an output buffer reads as. -/
def Config.unwrittenByte : Byte := 0

end Sys2Proof
end

