-- ==== Sys2Proof/Syntax.lean ====
section
/-! DEFINITION. The commands (this engine's instructions) as syntax: one constructor of `Instr` per row of
spec/opcode_table.json, and a command as the host presents it, a word with its operand bundle (spec/30_encoding.md R80 to
R86; spec/10_state.md R21; spec/20_memory.md R53). -/

namespace Sys2Proof

/-- The eight block registers under their role names, numbers 0 to 7 in this order (R21). -/
inductive BReg where
  | z | l | k1 | k2 | cv | m | t0 | t1
  deriving DecidableEq, Repr

/-- The eleven commands (R84). A register operand is a register and nothing else; `imm4` is the whole 4-bit immediate
(R86); `c` is the chaining flag. The bundle fields are no part of the word and so no part of the instruction. -/
inductive Instr where
  | xorb (bd ba bb : BReg)
  | shlb (bd ba : BReg)
  | dblb (bd ba : BReg)
  | padb (bd ba : BReg) (imm4 : Fin 16)
  | ldb (bd : BReg)
  | rdb (ba : BReg)
  | rdcsr (imm4 : Fin 16)
  | zeroize
  | cbcm (bd ba : BReg) (c : Bool)
  | gensubk
  | cmac
  deriving DecidableEq, Repr

/-- The opcodes of R84, one per command. -/
inductive Opcode where
  | xorb | shlb | dblb | padb | ldb | rdb | rdcsr | zeroize | cbcm | gensubk | cmac
  deriving DecidableEq, Repr

/-- The opcode of a command. -/
def Instr.opcode : Instr → Opcode
  | .xorb _ _ _ => .xorb
  | .shlb _ _ => .shlb
  | .dblb _ _ => .dblb
  | .padb _ _ _ => .padb
  | .ldb _ => .ldb
  | .rdb _ => .rdb
  | .rdcsr _ => .rdcsr
  | .zeroize => .zeroize
  | .cbcm _ _ _ => .cbcm
  | .gensubk => .gensubk
  | .cmac => .cmac

/-- A segment as the engine sees it (R53): `SIGN_i` and `DATA_i`. `LEN_i` is the length of the data (R233), so the
descriptors and the data of a list always agree (R71). -/
structure Segment where
  sign : Bool
  data : List Byte
  deriving DecidableEq, Repr

/-- `LEN_i` of R53. -/
def Segment.len (g : Segment) : Nat := g.data.length

/-- The operand bundle (R82). `segl` is the segment list as a value (R54). `out` names the caller's output buffer, which
holds `OUTCAP`, `OUTBUF` and `OUTLEN` (R42) in `State.bufs`. -/
structure Bundle where
  key : KeyHandle
  usage : BitVec 32
  data : Block
  segl : List Segment
  out : Nat
  deriving DecidableEq, Repr

/-- The bundle whose every field is zero or empty: what a meaning reads where no command is presented. The step never
runs a meaning there (notes/assumptions/9.md). -/
def Bundle.empty : Bundle := { key := ⟨0⟩, usage := 0, data := 0, segl := [], out := 0 }

/-- A command on the command port: the word and its bundle, presented together (R80). -/
structure Command where
  word : Word
  bundle : Bundle
  deriving DecidableEq, Repr

end Sys2Proof
end

