-- ==== Sys2Proof/WellFormed.lean ====
section
/-! DEFINITION. The limits that the types of Syntax.lean leave open (spec/00_scope.md R11, spec/20_memory.md R53): how
many segments a list may have and how long one may be. A term of `Instr` needs no check: its register operands, its
immediate and its flag have exactly the values R85 and R86 allow. -/

namespace Sys2Proof

/-- "a segment list has at most 65535 segments" (R11). -/
abbrev segmentsWithinCount (gs : List Segment) : Prop := gs.length ≤ Config.maxSegments

/-- "a segment length is an unsigned 32-bit number" (R11). -/
abbrev segmentsWithinLength (gs : List Segment) : Prop := ∀ g ∈ gs, g.len < Config.segmentLimit

/-- What the hardware can be given as a bundle: both limits of R11. -/
abbrev Bundle.wf (b : Bundle) : Prop := segmentsWithinCount b.segl ∧ segmentsWithinLength b.segl

/-- What the hardware can be given as a command. -/
abbrev Command.wf (c : Command) : Prop := c.bundle.wf

end Sys2Proof
end

