-- ==== Sys2Proof/Decode.lean ====
section
/-! DEFINITION. Decoding a command word and encoding a command (spec/30_encoding.md R81 to R92). `decode` is total on
32-bit words, reads no state, and rejects by name; `decodeBytes` reads a stored word, its opcode byte first (R52). The
encoder and the (mask, match) table of R85 follow. -/

namespace Sys2Proof

/-! ## The fields of the one format (R81) -/

def opcField (w : Word) : BitVec 8 := w.extractLsb' 24 8
def bdField (w : Word) : BitVec 4 := w.extractLsb' 20 4
def baField (w : Word) : BitVec 4 := w.extractLsb' 16 4
def bbField (w : Word) : BitVec 4 := w.extractLsb' 12 4
def imm4Field (w : Word) : BitVec 4 := w.extractLsb' 8 4
def rsvField (w : Word) : BitVec 7 := w.extractLsb' 1 7
def cField (w : Word) : BitVec 1 := w.extractLsb' 0 1

/-- The fields that can make a word illegal (R87). -/
inductive Field where
  | bd | ba | bb | imm4 | rsv | c
  deriving DecidableEq, Repr

/-- Why a word is no command (R87), by name. -/
inductive DecodeError where
  /-- `OPC` is not one of the eleven values of R84. -/
  | unknownOpcode
  /-- A register field that the command uses has bit 3 set (values 8..15). -/
  | noSuchRegister (f : Field)
  /-- A field that the command does not use, or `RSV`, is not zero. -/
  | unusedNotZero (f : Field)
  /-- Fewer than four bytes are stored. -/
  | shortWord
  deriving DecidableEq, Repr

/-- The opcode numbers of R84. -/
def opcodeOf (b : BitVec 8) : Option Opcode :=
  if b = 0x10 then some .xorb
  else if b = 0x11 then some .shlb
  else if b = 0x12 then some .dblb
  else if b = 0x13 then some .padb
  else if b = 0x20 then some .ldb
  else if b = 0x21 then some .rdb
  else if b = 0x22 then some .rdcsr
  else if b = 0x23 then some .zeroize
  else if b = 0x30 then some .cbcm
  else if b = 0x31 then some .gensubk
  else if b = 0x40 then some .cmac
  else none

/-- The register numbers of R21: the low three bits of a register field (R86). -/
def regOfBits (b : BitVec 3) : BReg :=
  if b = 0 then .z
  else if b = 1 then .l
  else if b = 2 then .k1
  else if b = 3 then .k2
  else if b = 4 then .cv
  else if b = 5 then .m
  else if b = 6 then .t0
  else .t1

/-- A register operand: "the 4-bit fields `BD`, `BA`, `BB` with the top bit 0" (R86). -/
def readReg (f : Field) (b : BitVec 4) : Except DecodeError BReg :=
  if b.extractLsb' 3 1 = 0 then .ok (regOfBits (b.extractLsb' 0 3)) else .error (.noSuchRegister f)

/-- "A field a command does not use must be 0" (R81). -/
def mustBeZero {n : Nat} (f : Field) (b : BitVec n) : Except DecodeError Unit :=
  if b = 0 then .ok () else .error (.unusedNotZero f)

/-- The fields from bit 11 down that every command but PADB and RDCSR (`IMM4`) and CBCM (`C`) must leave zero. -/
def immAndTailZero (w : Word) : Except DecodeError Unit := do
  mustBeZero .imm4 (imm4Field w)
  mustBeZero .rsv (rsvField w)
  mustBeZero .c (cField w)

/-- The fields of one opcode's row of R85, read and checked from the left. -/
def decodeFields (o : Opcode) (w : Word) : Except DecodeError Instr :=
  match o with
  | .xorb => do
    let bd ← readReg .bd (bdField w)
    let ba ← readReg .ba (baField w)
    let bb ← readReg .bb (bbField w)
    immAndTailZero w
    return .xorb bd ba bb
  | .shlb => do
    let bd ← readReg .bd (bdField w)
    let ba ← readReg .ba (baField w)
    mustBeZero .bb (bbField w)
    immAndTailZero w
    return .shlb bd ba
  | .dblb => do
    let bd ← readReg .bd (bdField w)
    let ba ← readReg .ba (baField w)
    mustBeZero .bb (bbField w)
    immAndTailZero w
    return .dblb bd ba
  | .padb => do
    let bd ← readReg .bd (bdField w)
    let ba ← readReg .ba (baField w)
    mustBeZero .bb (bbField w)
    mustBeZero .rsv (rsvField w)
    mustBeZero .c (cField w)
    return .padb bd ba (imm4Field w).toFin
  | .ldb => do
    let bd ← readReg .bd (bdField w)
    mustBeZero .ba (baField w)
    mustBeZero .bb (bbField w)
    immAndTailZero w
    return .ldb bd
  | .rdb => do
    mustBeZero .bd (bdField w)
    let ba ← readReg .ba (baField w)
    mustBeZero .bb (bbField w)
    immAndTailZero w
    return .rdb ba
  | .rdcsr => do
    mustBeZero .bd (bdField w)
    mustBeZero .ba (baField w)
    mustBeZero .bb (bbField w)
    mustBeZero .rsv (rsvField w)
    mustBeZero .c (cField w)
    return .rdcsr (imm4Field w).toFin
  | .zeroize => do
    mustBeZero .bd (bdField w)
    mustBeZero .ba (baField w)
    mustBeZero .bb (bbField w)
    immAndTailZero w
    return .zeroize
  | .cbcm => do
    let bd ← readReg .bd (bdField w)
    let ba ← readReg .ba (baField w)
    mustBeZero .bb (bbField w)
    mustBeZero .imm4 (imm4Field w)
    mustBeZero .rsv (rsvField w)
    return .cbcm bd ba (cField w == 1)
  | .gensubk => do
    mustBeZero .bd (bdField w)
    mustBeZero .ba (baField w)
    mustBeZero .bb (bbField w)
    immAndTailZero w
    return .gensubk
  | .cmac => do
    mustBeZero .bd (bdField w)
    mustBeZero .ba (baField w)
    mustBeZero .bb (bbField w)
    immAndTailZero w
    return .cmac

/-- Decoding of a command word, total (R92). -/
def decode (w : Word) : Except DecodeError Instr :=
  match opcodeOf (opcField w) with
  | some o => decodeFields o w
  | none => .error .unknownOpcode

/-- A command word from its stored bytes: "byte 0 is bits[31:24] (the opcode)" (R52). -/
def wordOfBytes (b0 b1 b2 b3 : Byte) : Word := b0 ++ b1 ++ b2 ++ b3

/-- The stored bytes of a command word, lowest address first (R52). -/
def bytesOfWord (w : Word) : List Byte :=
  [w.extractLsb' 24 8, w.extractLsb' 16 8, w.extractLsb' 8 8, w.extractLsb' 0 8]

/-- Decoding of stored bytes: one word is always four bytes (R89); the rest of the bytes is handed back. -/
def decodeBytes : List Byte → Except DecodeError (Instr × List Byte)
  | b0 :: b1 :: b2 :: b3 :: rest =>
    match decode (wordOfBytes b0 b1 b2 b3) with
    | .ok i => .ok (i, rest)
    | .error e => .error e
  | _ => .error .shortWord

/-- The host's question: the instruction read from a word numbered as spec/opcode_table.json numbers it. The word is laid
out as bytes in the hardware's order and given to `decodeBytes`. -/
def decodeTableWord (nbits w : Nat) : Option Instr :=
  match decodeBytes (bytesOfWord (BitVec.ofNat 32 (w % 2 ^ nbits))) with
  | .ok (i, _) => some i
  | .error _ => none

/-! ## The encoder -/

/-- The number of a register as a 4-bit field, top bit 0 (R21, R86). -/
def regField : BReg → BitVec 4
  | .z => 0
  | .l => 1
  | .k1 => 2
  | .k2 => 3
  | .cv => 4
  | .m => 5
  | .t0 => 6
  | .t1 => 7

/-- The opcode numbers of R84. -/
def opcodeByte : Opcode → BitVec 8
  | .xorb => 0x10
  | .shlb => 0x11
  | .dblb => 0x12
  | .padb => 0x13
  | .ldb => 0x20
  | .rdb => 0x21
  | .rdcsr => 0x22
  | .zeroize => 0x23
  | .cbcm => 0x30
  | .gensubk => 0x31
  | .cmac => 0x40

/-- The pattern string of R81: `oooooooo dddd aaaa bbbb iiii 0000000 c`. -/
def packWord (o : Opcode) (bd ba bb imm4 : BitVec 4) (c : BitVec 1) : Word :=
  opcodeByte o ++ bd ++ ba ++ bb ++ imm4 ++ (0 : BitVec 7) ++ c

/-- The command word of an instruction (R85). -/
def encode (i : Instr) : Word :=
  match i with
  | .xorb bd ba bb => packWord .xorb (regField bd) (regField ba) (regField bb) 0 0
  | .shlb bd ba => packWord .shlb (regField bd) (regField ba) 0 0 0
  | .dblb bd ba => packWord .dblb (regField bd) (regField ba) 0 0 0
  | .padb bd ba imm4 => packWord .padb (regField bd) (regField ba) 0 (BitVec.ofFin imm4) 0
  | .ldb bd => packWord .ldb (regField bd) 0 0 0 0
  | .rdb ba => packWord .rdb 0 (regField ba) 0 0 0
  | .rdcsr imm4 => packWord .rdcsr 0 0 0 (BitVec.ofFin imm4) 0
  | .zeroize => packWord .zeroize 0 0 0 0 0
  | .cbcm bd ba c => packWord .cbcm (regField bd) (regField ba) 0 0 (BitVec.ofBool c)
  | .gensubk => packWord .gensubk 0 0 0 0 0
  | .cmac => packWord .cmac 0 0 0 0 0

/-! ## The (mask, match) table of R85 -/

/-- The mask of an opcode's row (R85). -/
def rowMask : Opcode → Word
  | .xorb => 0xFF888FFF
  | .shlb => 0xFF88FFFF
  | .dblb => 0xFF88FFFF
  | .padb => 0xFF88F0FF
  | .ldb => 0xFF8FFFFF
  | .rdb => 0xFFF8FFFF
  | .rdcsr => 0xFFFFF0FF
  | .zeroize => 0xFFFFFFFF
  | .cbcm => 0xFF88FFFE
  | .gensubk => 0xFFFFFFFF
  | .cmac => 0xFFFFFFFF

/-- The match value of an opcode's row (R85). -/
def rowMatch : Opcode → Word
  | .xorb => 0x10000000
  | .shlb => 0x11000000
  | .dblb => 0x12000000
  | .padb => 0x13000000
  | .ldb => 0x20000000
  | .rdb => 0x21000000
  | .rdcsr => 0x22000000
  | .zeroize => 0x23000000
  | .cbcm => 0x30000000
  | .gensubk => 0x31000000
  | .cmac => 0x40000000

end Sys2Proof
end

