-- ==== Sys2Proof/Machine/State.lean ====
section
/-! DEFINITION. The state of the engine and of what stands at its ports, as plain data; the reasons a step can stop; the
state after reset (spec/10_state.md R20 to R46, spec/20_memory.md R50 to R61, spec/30_encoding.md R82, R83). -/

namespace Sys2Proof.Machine

/-! ## The engine -/

/-- Storage of the block registers 1 to 7 (R20, R21). `B[0]` is hardwired (R22) and has no storage: the register accessors
of Operands.lean read it as zero and discard writes to it. -/
structure Regs where
  l : Block
  k1 : Block
  k2 : Block
  cv : Block
  m : Block
  t0 : Block
  t1 : Block
  deriving DecidableEq, Repr

/-- All seven registers zero: reset (R45), ZEROIZE (R123) and the exit of CMAC (R171). -/
def Regs.zero : Regs :=
  { l := zeroBlock, k1 := zeroBlock, k2 := zeroBlock, cv := zeroBlock, m := zeroBlock, t0 := zeroBlock, t1 := zeroBlock }

/-- The five values of `STATUS.CODE`; "values 5 to 255 never occur" (R31, R200). -/
inductive Code where
  | ok | eBlksz | eProvider | eOutcap | eIllegal
  deriving DecidableEq, Repr

/-- The control and status registers that are storage (R30), field by field: "Bits not named in a field read as zero".
`BLKSZ` is not storage: it reflects the attached provider (R41). -/
structure Csrs where
  /-- `STATUS.CODE` (R31). -/
  status : Code
  /-- `PERR.PCODE` (R32). -/
  perr : ErrCode
  /-- `FLAGS.CARRY` (R33). -/
  carry : Bool
  /-- `FLAGS.FPAD` (R33). -/
  fpad : Bool
  /-- `LEN` (R35). -/
  len : BitVec 64
  /-- `NBLK` (R36). -/
  nblk : BitVec 64
  /-- `REM` (R37). -/
  rem : BitVec 4
  /-- `IDX` (R38). -/
  idx : BitVec 64
  /-- `CALLS` (R39). -/
  calls : BitVec 64
  deriving DecidableEq, Repr

/-- Every CSR but `BLKSZ` zero (R45). -/
def Csrs.zero : Csrs :=
  { status := .ok, perr := 0, carry := false, fpad := false, len := 0, nblk := 0, rem := 0, idx := 0, calls := 0 }

/-- `PHASE`, the step of CMAC now being executed (R40). -/
inductive Phase where
  | idle | s1 | s2 | s3 | s4 | s5 | s6 | s7 | s8 | s9 | exit
  deriving DecidableEq, Repr

/-! ## What stands at the ports -/

/-- The two ports on which the engine waits for an answer (R214). -/
inductive Port where
  | cipher | segment
  deriving DecidableEq, Repr

/-- The answer of the provider to one call (R58). -/
inductive CipherAnswer where
  | ok (block : Block)
  | err (code : ErrCode)
  deriving DecidableEq, Repr

/-- One point of a provider's `Enc` that is written down: `Enc(key, input) = output`. -/
structure EncPoint where
  key : KeyHandle
  input : Block
  output : Block
  deriving DecidableEq, Repr

/-- The provider `P` attached to the cipher port (R9), the parameter of the model as plain data
(notes/assumptions/3.md): its name, its block size in bytes, and the points of `Enc` that are written down; at every other
point `Enc` is the free value `Config.enc`. -/
structure Provider where
  ident : Nat
  blksz : BitVec 32
  known : List EncPoint
  deriving DecidableEq, Repr

/-- What becomes of one call on the cipher port. Which calls fail, and with which code, no rule fixes (R60;
spec/93_implementation_defined.md U4, U5); a call that is never answered is U16. -/
inductive Verdict where
  | answers
  | fails (code : ErrCode)
  | silent
  deriving DecidableEq, Repr

/-- The memory of a buffer: (offset, byte) pairs, offsets strictly rising, no entry equal to what an unlisted offset reads
as. -/
abbrev Memory := List Host.Cell

/-- The canonical form of a memory. -/
abbrev Memory.wf (mem : Memory) : Prop :=
  mem.Pairwise (fun c d => c.1 < d.1) ∧ ∀ c ∈ mem, c.2 ≠ Config.unwrittenByte

/-- An output buffer of the host's (R42): `OUTCAP`, `OUTBUF` and `OUTLEN`. -/
structure OutBuf where
  cap : BitVec 32
  bytes : Memory
  len : BitVec 32
  deriving DecidableEq, Repr

/-- A buffer's memory is canonical and lists no byte at or above its capacity: "`OUTCAP` bytes, addressed
0..`OUTCAP`-1" (R42). -/
abbrev OutBuf.wf (b : OutBuf) : Prop := b.bytes.wf ∧ ∀ c ∈ b.bytes, c.1 < b.cap.toNat

/-- What the outside does next: the host presents a command (R17, R80) or hands over an output buffer it prepared (R42,
R233), a provider is attached (R232), or the engine is reset (R230). -/
inductive Input where
  | command (c : Command)
  | buffer (ref : Nat) (b : OutBuf)
  | attach (p : Provider)
  | reset
  deriving DecidableEq, Repr

/-- One completed port transaction of a command (R66, R172): `D_i`, `E_k`, `P_k` and `W`, each with what it carried. -/
inductive Event where
  | segDesc (i : Nat) (sign : Bool) (len : Nat)
  | cipher (key : KeyHandle) (blk : Block) (iv : Option Block) (answer : CipherAnswer)
  | segPull (chunk : List Byte)
  | memWrite (ref : Nat) (offset : Nat) (data : List Byte)
  deriving DecidableEq, Repr

/-- The response to a command (R83). -/
structure Response where
  code : Code
  perrv : ErrCode
  rdata : Block
  deriving DecidableEq, Repr

/-! ## The whole state -/

/-- The machine. The first five fields are the engine's (R20, R30, R40, R43; `outstanding` is the request that has been
issued and is not answered, "never more than one", R58, R230), the rest is what stands at its ports: `bufs` the output
buffers by reference (R42), `provider` the attached provider (R9), `verdicts` and `sourceAnswers` the model's own free
values (notes/assumptions/2.md), `inputs` what the outside does next, `events` the port transactions of the last command in
order (R66), `resp` the response to it (R83). -/
structure State where
  regs : Regs
  csr : Csrs
  phase : Phase
  cursor : Option Nat
  outstanding : Option Port
  bufs : List (Nat × OutBuf)
  provider : Provider
  verdicts : List Verdict
  sourceAnswers : List Nat
  inputs : List Input
  events : List Event
  resp : Option Response
  deriving DecidableEq, Repr

/-- Why the machine stops. -/
inductive Fault where
  /-- The request on the port is not answered and no reset comes next: "the engine waits in the phase of that request for
  ever, no timeout, no response; only reset ends it" (U16, R241). Raised by `step` in a state with a request outstanding;
  no command's meaning raises it. Safe: the hardware does not go on either. -/
  | noAnswer (port : Port) (phase : Phase)
  deriving DecidableEq, Repr

/-- What the model gives no meaning. -/
inductive Refusal where
  /-- An instruction without a meaning, by its mnemonic in the opcode table. Raised by a refused arm of `exec`; no arm is
  one. Safe. -/
  | notModelled (mnemonic : String)
  deriving DecidableEq, Repr

/-- The machine right after reset (R45, R230). The engine's part is as the spec states it. DESIGN CHOICE
(notes/assumptions/1.md) for what is not the engine's: a 16-byte provider, no verdict and no silence ahead, one output
buffer of 16 unwritten bytes under reference 0, and nothing presented. -/
def State.reset : State :=
  { regs := Regs.zero
    csr := Csrs.zero
    phase := .idle
    cursor := none
    outstanding := none
    bufs := [(0, { cap := 16, bytes := [], len := 0 })]
    provider := { ident := 0, blksz := 16, known := [] }
    verdicts := []
    sourceAnswers := []
    inputs := []
    events := []
    resp := none }

end Sys2Proof.Machine
end

