-- ==== Sys2Proof/Machine/Blocks.lean ====
section
/-! DEFINITION. The pure functions on 16-byte blocks (spec/40_block_primitives.md R100 to R103) and the byte order of a
block (spec/00_scope.md R13, spec/20_memory.md R51). -/

namespace Sys2Proof.Machine

/-- `X[i]` for `i` in 0..15: byte 0 is the most significant (R13, R51). -/
def byteOf (x : Block) (i : Nat) : Byte := x.extractLsb' (120 - 8 * i) 8

/-- The 16 bytes of a block, byte 0 first. -/
def bytesOf (x : Block) : List Byte := (List.range 16).map (byteOf x)

/-- The sum of `X[i] * 2^(8*(n-1-i))` over the first `n` bytes; a byte that is missing counts as 00. -/
def bytesValue : Nat → List Byte → Nat
  | 0, _ => 0
  | _ + 1, [] => 0
  | n + 1, b :: bs => b.toNat * 256 ^ n + bytesValue n bs

/-- The block `bs || zero(16 - len(bs))` (R72, R168) of a byte string of at most 16 bytes: `int(X)` of R13. -/
def blockOf (bs : List Byte) : Block := BitVec.ofNat 128 (bytesValue 16 bs)

/-- `RB`, "all zero bytes except the last byte `0x87`" (R8). -/
def rb : Block := 0x87

/-- `xor_block` (R100): `int(c) = int(a) xor int(b)`. -/
def xorBlock (a b : Block) : Block := a ^^^ b

/-- `msb(X)`, bit 127 (R13). -/
def msbOf (x : Block) : Bool := x.msb

/-- `shl_block` (R101): `int(y) = (2 * int(x)) mod 2^128`, and the carry is the bit shifted out. -/
def shlBlock (x : Block) : Block × Bool := (x <<< 1, msbOf x)

/-- `double_block` (R102): the shift, then `RB` XORed in if the original most significant bit was 1. -/
def doubleBlock (x : Block) : Block :=
  let (s, carry) := shlBlock x
  if carry then xorBlock s rb else s

/-- `pad_block` (R103): the first `v` bytes of `last`, 0x80, zero fill. `v` is in 0..15 and nothing else (U1). -/
def padBlock (last : Block) (v : Fin 16) : Block := blockOf ((bytesOf last).take v ++ [0x80])

end Sys2Proof.Machine
end

