-- ==== Sys2Proof/Machine/Operands.lean ====
section
/-! DEFINITION. The operand forms: block registers (spec/10_state.md R20 to R23), control and status registers by number
(R30; spec/30_encoding.md R86), the bundle of the presented command (R82), and its output buffer (R42). -/

namespace Sys2Proof.Machine

/-- `B[i]`, read: "`B[0]` always reads 16 zero bytes" (R14, R22). -/
def State.readB (s : State) (r : BReg) : Block :=
  match r with
  | .z => zeroBlock
  | .l => s.regs.l
  | .k1 => s.regs.k1
  | .k2 => s.regs.k2
  | .cv => s.regs.cv
  | .m => s.regs.m
  | .t0 => s.regs.t0
  | .t1 => s.regs.t1

/-- The registers after a write of `v` to `r`; a write to `B[0]` is discarded (R22). -/
def Regs.write (g : Regs) (r : BReg) (v : Block) : Regs :=
  match r with
  | .z => g
  | .l => { g with l := v }
  | .k1 => { g with k1 := v }
  | .k2 => { g with k2 := v }
  | .cv => { g with cv := v }
  | .m => { g with m := v }
  | .t0 => { g with t0 := v }
  | .t1 => { g with t1 := v }

/-- `B[i] <- v` (R14, R22). -/
def State.writeB (s : State) (r : BReg) (v : Block) : State := { s with regs := s.regs.write r v }

/-- The number of a result code (R31, R200). -/
def codeNumber : Code → BitVec 8
  | .ok => 0
  | .eBlksz => 1
  | .eProvider => 2
  | .eOutcap => 3
  | .eIllegal => 4

/-- The `FLAGS` register: `CARRY` = bit 0, `FPAD` = bit 1 (R30). -/
def flagsWord (c : Csrs) : CsrValue :=
  (if c.carry then 1 else 0) ||| (if c.fpad then 2 else 0)

/-- The value of a control and status register by number; "9..15 ... read as 0" (R30, R86, R122). -/
def State.readCsr (s : State) (n : Fin 16) : CsrValue :=
  match n.val with
  | 0 => (codeNumber s.csr.status).setWidth 64
  | 1 => s.csr.perr.setWidth 64
  | 2 => flagsWord s.csr
  | 3 => s.csr.len
  | 4 => s.csr.nblk
  | 5 => s.csr.rem.setWidth 64
  | 6 => s.csr.idx
  | 7 => s.csr.calls
  | 8 => s.provider.blksz.setWidth 64
  | _ => 0

/-- The operand bundle of the command on the command port (R82). The host holds the command there until the response
(R69); where none is presented, which the step never leads to, every field is zero or empty. -/
def State.bundle (s : State) : Bundle :=
  match s.inputs with
  | .command c :: _ => c.bundle
  | _ => Bundle.empty

/-- The buffer of a reference in a list of buffers; a reference the host gave no buffer has no bytes (DESIGN CHOICE,
notes/assumptions/6.md). -/
def findBuf : List (Nat × OutBuf) → Nat → OutBuf
  | [], _ => { cap := 0, bytes := [], len := 0 }
  | (k, b) :: rest, ref => if k = ref then b else findBuf rest ref

/-- The buffer of a reference with `b` put in its place; a reference not yet listed is added at the end. -/
def putBuf : List (Nat × OutBuf) → Nat → OutBuf → List (Nat × OutBuf)
  | [], ref, b => [(ref, b)]
  | (k, c) :: rest, ref, b => if k = ref then (k, b) :: rest else (k, c) :: putBuf rest ref b

/-- The host's output buffer under a reference (R42). -/
def State.buf (s : State) (ref : Nat) : OutBuf := findBuf s.bufs ref

/-- `S`, the signed stream: "the logical concatenation, in list order, of all flagged regions" (R54). -/
def signedStream (gs : List Segment) : List Byte := (gs.filter (·.sign)).flatMap (·.data)

end Sys2Proof.Machine
end

