-- ==== Sys2Proof/Machine/Flags.lean ====
section
/-! DEFINITION. The two flags (spec/10_state.md R33) and the computations of step 4 of the driver that decide the final
block (spec/43_mac_driver.md R165). -/

namespace Sys2Proof.Machine

/-- `CSR.FLAGS.CARRY <- c` (R33). -/
def State.setCarry (s : State) (c : Bool) : State := { s with csr := { s.csr with carry := c } }

/-- `ceil16(x)` (R14). -/
def ceil16 (x : Nat) : Nat := (x + 15) / 16

/-- `n`, the block count of a message of `length` bytes (R165). -/
def blockCount (length : Nat) : Nat :=
  if length = 0 then 1 else if length % 16 = 0 then length / 16 else ceil16 length

/-- `fpad`: true for "needs padding", false for "complete" (R165). -/
def needsPadding (length : Nat) : Bool :=
  if length = 0 then true else if length % 16 = 0 then false else true

/-- The remainder length, `length mod 16` (R165, R37). -/
def remainder (length : Nat) : Nat := length % 16

/-- Step 4 on the CSRs: `NBLK`, `FPAD` and `REM` from `LEN` (R165). -/
def planFinalBlock (c : Csrs) : Csrs :=
  { c with
    nblk := BitVec.ofNat 64 (blockCount c.len.toNat)
    fpad := needsPadding c.len.toNat
    rem := BitVec.ofNat 4 (remainder c.len.toNat) }

end Sys2Proof.Machine
end

