-- ==== Sys2Proof/Machine/Ops.lean ====
section
/-! DEFINITION. The named operations the meanings share: the memory of a buffer, the port transactions (spec/20_memory.md
R55 to R61), the start and the end of a command, and the abort of a command by an error (spec/60_exceptions.md R200 to
R210). -/

namespace Sys2Proof.Machine

/-! ## The memory of a buffer -/

/-- One byte; an unlisted offset reads as `Config.unwrittenByte`. -/
def Memory.read : Memory → Nat → Byte
  | [], _ => Config.unwrittenByte
  | (k, v) :: rest, a => if k = a then v else Memory.read rest a

/-- One byte written, the canonical form kept. -/
def Memory.write : Memory → Nat → Byte → Memory
  | [], a, b => if b = Config.unwrittenByte then [] else [(a, b)]
  | (k, v) :: rest, a, b =>
    if a < k then
      if b = Config.unwrittenByte then (k, v) :: rest else (a, b) :: (k, v) :: rest
    else if a = k then
      if b = Config.unwrittenByte then rest else (a, b) :: rest
    else (k, v) :: Memory.write rest a b

/-- Bytes written upward from an offset. -/
def Memory.writeBytes : Memory → Nat → List Byte → Memory
  | mem, _, [] => mem
  | mem, a, b :: bs => Memory.writeBytes (mem.write a b) (a + 1) bs

/-! ## Starting and ending a command -/

/-- The port record of a new command begins empty (R66). -/
def State.openRecord (s : State) : State := { s with events := [] }

/-- `CSR.CALLS <- 0`: what every state-changing command does when it starts (R39). -/
def State.clearCalls (s : State) : State := { s with csr := { s.csr with calls := 0 } }

/-- What the outside does after the command now on the port. -/
def afterCommand : List Input → List Input
  | .command _ :: rest => rest
  | other => other

/-- The response, given once; with it the command leaves the port, and no request is outstanding (R69, R83, R240). -/
def State.respond (s : State) (code : Code) (perrv : ErrCode) (rdata : Block) : State :=
  { s with
    resp := some { code := code, perrv := perrv, rdata := rdata }
    inputs := afterCommand s.inputs
    outstanding := none }

/-- THE END OF A COMMAND, BY AN ERROR OR WITHOUT ONE, in one operation: `CSR.STATUS.CODE <- code`, `CSR.PERR <- pcode`, and
the response with `RDATA = zero(16)` (R31, R32, R208). "Nothing else is saved: there is no saved program counter, no cause
stack, no mode change, no vector", and there is no return from it (R210). -/
def State.endCommand (s : State) (code : Code) (pcode : ErrCode) : State :=
  { s with csr := { s.csr with status := code, perr := pcode } }.respond code pcode zeroBlock

/-- `raise E_ILLEGAL` at decode: `STATUS`, `PERR` and `CALLS` are written and nothing else changes (R87, R204). -/
def takeIllegal (s : State) : State := s.openRecord.clearCalls.endCommand .eIllegal 0

/-- All that ZEROIZE and the exit of CMAC clear: `B[1]`..`B[7]` and `FLAGS.CARRY` (R123, R171). -/
def State.clearSecrets (s : State) : State := { s with regs := Regs.zero }.setCarry false

/-- The command is left waiting: its request stays outstanding, its word and bundle were taken whole when it was accepted
(R69), and it gets no response (U16, R241). Only a reset ends this (R230). -/
def State.leaveWaiting (s : State) : State := { s with inputs := afterCommand s.inputs, resp := none }

/-! ## The cipher port -/

/-- What the engine has after a request on a port: an answer and the state it finds then, or no answer and the state in which
it waits (U16). -/
inductive Reply (α : Type) where
  | answered (a : α) (s : State)
  | noAnswer (s : State)
  deriving DecidableEq, Repr

/-- `Enc(key, x)` of a provider (R9): the written point if there is one, else the free value. -/
def Provider.enc (p : Provider) (key : KeyHandle) (x : Block) : Block :=
  match p.known.find? (fun e => e.key == key && e.input == x) with
  | some e => e.output
  | none => Config.enc p.ident key x

/-- The `ok` answer to a request: the provider XORs "with the running IV first if chaining is in progress" (R59). -/
def Provider.cbcMac (p : Provider) (key : KeyHandle) (blk : Block) (iv : Option Block) : Block :=
  match iv with
  | none => p.enc key blk
  | some v => p.enc key (xorBlock blk v)

/-- What becomes of the next call; past the last verdict that is written down a call answers. -/
def State.nextVerdict (s : State) : Verdict :=
  match s.verdicts with
  | [] => .answers
  | v :: _ => v

/-- A call that was answered: counted in `CALLS` (R39) and recorded. -/
def State.recordCall (s : State) (key : KeyHandle) (blk : Block) (iv : Option Block) (a : CipherAnswer) : State :=
  { s with
    csr := { s.csr with calls := s.csr.calls + 1 }
    verdicts := s.verdicts.tail
    events := s.events ++ [.cipher key blk iv a] }

/-- A call that is not answered: counted in `CALLS`, since "Issuing the request increments `CSR.CALLS`" (R58), and
outstanding. -/
def State.awaitCipher (s : State) : State :=
  { s with
    csr := { s.csr with calls := s.csr.calls + 1 }
    verdicts := s.verdicts.tail
    outstanding := some .cipher }

/-- `CipherCall(key, blk, iv)`: one transaction on the cipher port (R58 to R60). -/
def cipherCall (key : KeyHandle) (blk : Block) (iv : Option Block) (s : State) : Reply CipherAnswer :=
  match s.nextVerdict with
  | .answers =>
    .answered (.ok (s.provider.cbcMac key blk iv)) (s.recordCall key blk iv (.ok (s.provider.cbcMac key blk iv)))
  | .fails code => .answered (.err code) (s.recordCall key blk iv (.err code))
  | .silent => .noAnswer s.awaitCipher

/-- The block-size check of the cipher-using commands: `CSR.BLKSZ != 16` (R41, R201). -/
def State.wrongBlockSize (s : State) : Bool := s.provider.blksz != 16

/-! ## The segment port -/

/-- One transaction of the segment source spent; `none` where it is not answered (U16). -/
def State.spendAnswer (s : State) : Option State :=
  match s.sourceAnswers with
  | [] => some s
  | 0 :: _ => none
  | (k + 1) :: later => some { s with sourceAnswers := k :: later }

/-- A request to the segment source that is not answered. -/
def State.awaitSegment (s : State) : State :=
  { s with sourceAnswers := s.sourceAnswers.tail, outstanding := some .segment }

/-- `SegDesc(i)` for the segment `g` at index `i`: no side effect on the list (R55). -/
def segDesc (i : Nat) (g : Segment) (s : State) : Reply (Bool × Nat) :=
  match s.spendAnswer with
  | none => .noAnswer s.awaitSegment
  | some t => .answered (g.sign, g.len) { t with events := t.events ++ [.segDesc i g.sign g.len] }

/-- `S[pos .. min(pos + 16, len(S)) - 1]` (R56). -/
def chunkAt (stream : List Byte) (pos : Nat) : List Byte := (stream.drop pos).take 16

/-- `SegPull()`: the next chunk of the signed stream; the cursor moves on (R56) and `IDX` counts the pull (R38). -/
def segPull (s : State) : Reply (List Byte) :=
  match s.spendAnswer with
  | none => .noAnswer s.awaitSegment
  | some t =>
    let stream := signedStream s.bundle.segl
    let pos := s.cursor.getD 0
    .answered (chunkAt stream pos)
      { t with
        cursor := some (min (pos + 16) stream.length)
        csr := { t.csr with idx := t.csr.idx + 1 }
        events := t.events ++ [.segPull (chunkAt stream pos)] }

/-! ## The output buffer -/

/-- A buffer after `MemWrite(OUTBUF, 0, 16, tag)` and `OUTLEN <- 16` (R61). -/
def OutBuf.withTag (b : OutBuf) (tag : Block) : OutBuf :=
  { b with bytes := b.bytes.writeBytes 0 (bytesOf tag), len := 16 }

/-- The output write of step 9 (R61, R170). -/
def State.writeTag (s : State) (ref : Nat) (tag : Block) : State :=
  { s with
    bufs := putBuf s.bufs ref ((s.buf ref).withTag tag)
    events := s.events ++ [.memWrite ref 0 (bytesOf tag)] }

/-! ## Inputs that are no commands -/

/-- Reset (R230): the engine as R45 states it, "no request outstanding on any port", also while a command is executing; what
is not the engine's is not touched, and no response is given. -/
def State.applyReset (s : State) : State :=
  { s with
    regs := Regs.zero
    csr := Csrs.zero
    phase := .idle
    cursor := none
    outstanding := none
    events := []
    resp := none }

/-- What the engine takes next, a word decoded (R69, R92). -/
inductive Fetched where
  /-- Nothing is presented: the engine waits. -/
  | nothing
  /-- A command whose word decodes. -/
  | run (i : Instr)
  /-- A command whose word is no command. -/
  | illegal (e : DecodeError)
  /-- Another input, and the inputs after it. -/
  | outside (x : Input) (rest : List Input)
  /-- A request is outstanding on the port and no reset comes next: nothing can be taken. -/
  | stuck (port : Port)
  deriving DecidableEq, Repr

/-- Command intake of an engine with no request outstanding, which "stands where instruction fetch would" (R69). -/
def State.fetchIdle (s : State) : Fetched :=
  match s.inputs with
  | [] => .nothing
  | .command c :: _ =>
    match decode c.word with
    | .ok i => .run i
    | .error e => .illegal e
  | x :: rest => .outside x rest

/-- What an engine takes that waits on a port: a reset, and nothing else (U16; R240: a command is accepted only when the
engine is idle; U7: a provider or a buffer that changes meanwhile has no meaning). -/
def State.fetchWaiting (s : State) (port : Port) : Fetched :=
  match s.inputs with
  | .reset :: rest => .outside .reset rest
  | _ => .stuck port

/-- What the next step takes. -/
def State.fetch (s : State) : Fetched :=
  match s.outstanding with
  | none => s.fetchIdle
  | some port => s.fetchWaiting port

/-- The effect of an input that is no command: a buffer handed over, a provider attached, a reset. -/
def State.applyOutside (s : State) (x : Input) (rest : List Input) : State :=
  match x with
  | .command _ => { s with inputs := rest }
  | .buffer ref b => { s with bufs := putBuf s.bufs ref b, inputs := rest }
  | .attach p => { s with provider := p, inputs := rest }
  | .reset => { s.applyReset with inputs := rest }

/-- The presented command with its word replaced, or, where no command stands first, a command with an empty bundle
presented before everything else. -/
def presentWord (w : Word) : List Input → List Input
  | .command c :: rest => .command { c with word := w } :: rest
  | other => .command { word := w, bundle := Bundle.empty } :: other

end Sys2Proof.Machine
end

