-- ==== Sys2Proof/Machine/BlockPrimitives.lean ====
section
/-! DEFINITION. XORB, SHLB, DBLB, PADB (spec/40_block_primitives.md R104 to R107, R110). Sources are read before the
destination is written. -/

namespace Sys2Proof.Machine

/-- XORB `bd, ba, bb` (R104): `B[bd] <- xor_block(B[ba], B[bb])`; no flag. -/
def execXorb (bd ba bb : BReg) (s : State) : Host.Outcome State Fault Refusal :=
  .next ((s.openRecord.clearCalls.writeB bd (xorBlock (s.readB ba) (s.readB bb))).endCommand .ok 0)

/-- SHLB `bd, ba` (R105): the shift, and `CARRY` is the bit shifted out. -/
def execShlb (bd ba : BReg) (s : State) : Host.Outcome State Fault Refusal :=
  let (y, carry) := shlBlock (s.readB ba)
  .next (((s.openRecord.clearCalls.writeB bd y).setCarry carry).endCommand .ok 0)

/-- DBLB `bd, ba` (R106): the doubling, and `CARRY` is the original most significant bit. -/
def execDblb (bd ba : BReg) (s : State) : Host.Outcome State Fault Refusal :=
  let x := s.readB ba
  .next (((s.openRecord.clearCalls.writeB bd (doubleBlock x)).setCarry (msbOf x)).endCommand .ok 0)

/-- PADB `bd, ba, imm4` (R107): `B[bd] <- pad_block(B[ba], IMM4)`; no flag. -/
def execPadb (bd ba : BReg) (imm4 : Fin 16) (s : State) : Host.Outcome State Fault Refusal :=
  .next ((s.openRecord.clearCalls.writeB bd (padBlock (s.readB ba) imm4)).endCommand .ok 0)

end Sys2Proof.Machine
end

