-- ==== Sys2Proof/Machine/CipherAndSubkeys.lean ====
section
/-! DEFINITION. CBCM and GENSUBK (spec/42_cipher_and_subkeys.md R140 to R144). -/

namespace Sys2Proof.Machine

/-- `L`, `K1` and `K2` from the provider's image of the zero block, the XOR with zero kept (R142, R144). -/
def subkeysOf (mac : Block) : Block × Block × Block :=
  let l := xorBlock mac zeroBlock
  let k1 := doubleBlock l
  (l, k1, doubleBlock k1)

/-- `B[1] <- L ; B[2] <- K1 ; B[3] <- K2 ; CSR.FLAGS.CARRY <- msb(K1)` (R141, R164). -/
def State.setSubkeys (s : State) (mac : Block) : State :=
  let (l, k1, k2) := subkeysOf mac
  (((s.writeB .l l).writeB .k1 k1).writeB .k2 k2).setCarry (msbOf k1)

/-- The running IV of CBCM: `B[4]` if `C = 1`, none if `C = 0` (R140). -/
def chainInput (c : Bool) (s : State) : Option Block := if c then some (s.readB .cv) else none

/-- The writes of CBCM after an `ok` answer: `CV` if `C = 1`, then the destination (R140). -/
def State.writeChained (s : State) (bd : BReg) (c : Bool) (mac : Block) : State :=
  if c then (s.writeB .cv mac).writeB bd mac else s.writeB bd mac

/-- CBCM `bd, ba, c ; KEY` (R140). On an error no block register and no flag is written (R208). -/
def execCbcm (bd ba : BReg) (c : Bool) (s : State) : Host.Outcome State Fault Refusal :=
  let t := s.openRecord.clearCalls
  if t.wrongBlockSize then .next (t.endCommand .eBlksz 0)
  else
    match cipherCall t.bundle.key (t.readB ba) (chainInput c t) t with
    | .noAnswer u => .next u.leaveWaiting
    | .answered (.err code) u => .next (u.endCommand .eProvider code)
    | .answered (.ok mac) u => .next ((u.writeChained bd c mac).endCommand .ok 0)

/-- GENSUBK `; KEY` (R141). On an error no block register and no flag is written (R208). -/
def execGensubk (s : State) : Host.Outcome State Fault Refusal :=
  let t := s.openRecord.clearCalls
  if t.wrongBlockSize then .next (t.endCommand .eBlksz 0)
  else
    match cipherCall t.bundle.key zeroBlock none t with
    | .noAnswer u => .next u.leaveWaiting
    | .answered (.err code) u => .next (u.endCommand .eProvider code)
    | .answered (.ok mac) u => .next ((u.setSubkeys mac).endCommand .ok 0)

end Sys2Proof.Machine
end

