-- ==== Sys2Proof/Machine/MacDriver.lean ====
section
/-! DEFINITION. CMAC, the MAC driver (spec/43_mac_driver.md R160 to R175): the entry, the nine steps under their numbers,
and the exit. Each step is a function of the state; `PHASE` and the segment cursor are state inside the command only. -/

namespace Sys2Proof.Machine

/-- Where the driver is after a step: it goes on, it leaves for the exit with a code, or it waits on a port. -/
inductive Walk where
  | go (s : State)
  | exit (code : Code) (pcode : ErrCode) (s : State)
  | stuck (s : State)
  deriving DecidableEq, Repr

/-- The next step, taken only if the driver goes on. -/
def Walk.andThen (w : Walk) (f : State → Walk) : Walk :=
  match w with
  | .go s => f s
  | .exit code pcode s => .exit code pcode s
  | .stuck s => .stuck s

/-- `PHASE <- p` (R174). -/
def State.enterPhase (s : State) (p : Phase) : State := { s with phase := p }

/-- Entry (R161). -/
def cmacEntry (s : State) : State :=
  let t := s.openRecord.clearCalls
  { t with csr := { t.csr with len := 0, nblk := 0, rem := 0, idx := 0, fpad := false }, cursor := some 0 }

/-- Step 1 (R162): the block-size check, before any port event. -/
def cmacS1 (s : State) : Walk :=
  let t := s.enterPhase .s1
  if t.wrongBlockSize then .exit .eBlksz 0 t else .go t

/-- Every descriptor read once, in increasing index order, the lengths of the signed ones summed; then `LEN` (R163). -/
def sumLengths : List Segment → Nat → Nat → State → Walk
  | [], _, total, s => .go { s with csr := { s.csr with len := BitVec.ofNat 64 total } }
  | g :: rest, i, total, s =>
    match segDesc i g s with
    | .noAnswer t => .stuck t
    | .answered (sign, len) t => sumLengths rest (i + 1) (if sign then total + len else total) t

/-- Step 2 (R163). -/
def cmacS2 (s : State) : Walk := sumLengths s.bundle.segl 0 0 (s.enterPhase .s2)

/-- Step 3 (R164): the subkeys, by one call on the zero block, "propagate any error". -/
def cmacS3 (s : State) : Walk :=
  let t := s.enterPhase .s3
  match cipherCall t.bundle.key zeroBlock none t with
  | .noAnswer u => .stuck u
  | .answered (.err code) u => .exit .eProvider code u
  | .answered (.ok mac) u => .go (u.setSubkeys mac)

/-- Step 4 (R165): `NBLK`, `FPAD`, `REM`. -/
def cmacS4 (s : State) : Walk :=
  let t := s.enterPhase .s4
  .go { t with csr := planFinalBlock t.csr }

/-- Step 5 (R166): `B[4] <- zero(16)`. -/
def cmacS5 (s : State) : Walk := .go ((s.enterPhase .s5).writeB .cv zeroBlock)

/-- A call with `M` and the running chaining value, whose answer becomes the new chaining value (R167, R169). -/
def chainBlock (s : State) : Walk :=
  match cipherCall s.bundle.key (s.readB .m) (some (s.readB .cv)) s with
  | .noAnswer t => .stuck t
  | .answered (.err code) t => .exit .eProvider code t
  | .answered (.ok mac) t => .go (t.writeB .cv mac)

/-- One iteration of step 6: pull a chunk into `M`, chain it (R167). -/
def pullAndChain (s : State) : Walk :=
  match segPull s with
  | .noAnswer t => .stuck t
  | .answered chunk t => chainBlock (t.writeB .m (blockOf chunk))

/-- `repeat k times` of step 6 (R167). -/
def chainBlocks : Nat → State → Walk
  | 0, s => .go s
  | k + 1, s => (pullAndChain s).andThen (chainBlocks k)

/-- Step 6 (R167): the first `n - 1` blocks. -/
def cmacS6 (s : State) : Walk := chainBlocks (s.csr.nblk.toNat - 1) (s.enterPhase .s6)

/-- The final block masked: with `K1` if complete, else padded and masked with `K2` (R168). -/
def maskFinal (s : State) (last : Block) : Block :=
  if s.csr.fpad then xorBlock (padBlock last s.csr.rem.toFin) (s.readB .k2) else xorBlock last (s.readB .k1)

/-- Step 7 (R168): the last pull, zero-filled to a block (R72), and the mask. -/
def cmacS7 (s : State) : Walk :=
  let t := s.enterPhase .s7
  match segPull t with
  | .noAnswer u => .stuck u
  | .answered chunk u => .go (u.writeB .m (maskFinal u (blockOf chunk)))

/-- Step 8 (R169): the last call; its answer is the tag, in `CV`. -/
def cmacS8 (s : State) : Walk := chainBlock (s.enterPhase .s8)

/-- Step 9 (R170): the capacity check, then the write. -/
def cmacS9 (s : State) : Walk :=
  let t := s.enterPhase .s9
  if (t.buf t.bundle.out).cap.toNat < 16 then .exit .eOutcap 0 t
  else .go (t.writeTag t.bundle.out (t.readB .cv))

/-- Exit (R171): every path out of the command clears the secrets and answers. -/
def cmacExit (code : Code) (pcode : ErrCode) (s : State) : State :=
  { (s.enterPhase .exit).clearSecrets with phase := .idle, cursor := none }.endCommand code pcode

/-- Steps 1 to 9 in order (R172, R174). -/
def cmacSteps (s : State) : Walk :=
  ((((((((cmacS1 s).andThen cmacS2).andThen cmacS3).andThen cmacS4).andThen cmacS5).andThen cmacS6).andThen cmacS7).andThen
    cmacS8).andThen cmacS9

/-- CMAC `; KEY, USAGE, SEGL, OUT` (R160, R172). -/
def execCmac (s : State) : Host.Outcome State Fault Refusal :=
  match cmacSteps (cmacEntry s) with
  | .go t => .next (cmacExit .ok 0 t)
  | .exit code pcode t => .next (cmacExit code pcode t)
  | .stuck t => .next t.leaveWaiting

end Sys2Proof.Machine
end

