-- ==== Sys2Proof/Machine/RegisterAccess.lean ====
section
/-! DEFINITION. LDB, RDB, RDCSR, ZEROIZE (spec/41_register_access.md R120 to R123). -/

namespace Sys2Proof.Machine

/-- LDB `bd ; DATA` (R120): `B[bd] <- DATA`. -/
def execLdb (bd : BReg) (s : State) : Host.Outcome State Fault Refusal :=
  .next ((s.openRecord.clearCalls.writeB bd s.bundle.data).endCommand .ok 0)

/-- RDB `ba` (R121): the response carries `B[ba]`; "It changes no state at all". -/
def execRdb (ba : BReg) (s : State) : Host.Outcome State Fault Refusal :=
  .next (s.openRecord.respond .ok 0 (s.readB ba))

/-- RDCSR `imm4` (R122): the response carries the CSR value zero-extended; no state changes. -/
def execRdcsr (imm4 : Fin 16) (s : State) : Host.Outcome State Fault Refusal :=
  .next (s.openRecord.respond .ok 0 ((s.readCsr imm4).setWidth 128))

/-- ZEROIZE (R123): `B[1]`..`B[7]` and `CARRY` cleared. -/
def execZeroize (s : State) : Host.Outcome State Fault Refusal :=
  .next (s.openRecord.clearCalls.clearSecrets.endCommand .ok 0)

end Sys2Proof.Machine
end

