-- ==== Sys2Proof/Machine/Dispatch.lean ====
section
/-! DEFINITION. One arm per command (spec/30_encoding.md R84): its meaning. -/

namespace Sys2Proof.Machine

def exec (i : Instr) (s : State) : Host.Outcome State Fault Refusal :=
  match i with
  -- block primitives
  | .xorb bd ba bb => Sys2Proof.Machine.execXorb bd ba bb s
  | .shlb bd ba => Sys2Proof.Machine.execShlb bd ba s
  | .dblb bd ba => Sys2Proof.Machine.execDblb bd ba s
  | .padb bd ba imm4 => Sys2Proof.Machine.execPadb bd ba imm4 s
  -- register access
  | .ldb bd => Sys2Proof.Machine.execLdb bd s
  | .rdb ba => Sys2Proof.Machine.execRdb ba s
  | .rdcsr imm4 => Sys2Proof.Machine.execRdcsr imm4 s
  | .zeroize => Sys2Proof.Machine.execZeroize s
  -- cipher call and subkey generator
  | .cbcm bd ba c => Sys2Proof.Machine.execCbcm bd ba c s
  | .gensubk => Sys2Proof.Machine.execGensubk s
  -- the MAC driver
  | .cmac => Sys2Proof.Machine.execCmac s

end Sys2Proof.Machine
end

