-- ==== Sys2Proof/Machine/Step.lean ====
section
/-! DEFINITION. One step of the machine: one input taken from the ports and carried out whole (spec/30_encoding.md R92;
spec/70_reset_and_hazards.md R230, R240). -/

namespace Sys2Proof.Machine

/-- One step. A command whose word decodes is executed to its response in this one step (R240); a word that is no command
ends with `E_ILLEGAL` (R204); with nothing presented the engine is idle "and keeps all its state" (R216). An engine that waits on a port is ended by a reset
only (U16); with no reset next the machine is stuck. -/
def step (s : State) : Host.Outcome State Fault Refusal :=
  match s.fetch with
  | .nothing => .next s
  | .run i => exec i s
  | .illegal _ => .next (takeIllegal s)
  | .outside x rest => .next (s.applyOutside x rest)
  | .stuck port => .fault (.noAnswer port s.phase)

/-- The state in which the next step takes the word `w` from the command port: the presented command's word replaced, its
bundle kept; where no command stands first, one with an empty bundle is presented; no request is outstanding. Every word has
32 bits (R89), so the bits from `nbits` up are zero. -/
def State.withFetchWord (s : State) (nbits w : Nat) : State :=
  { s with inputs := presentWord (BitVec.ofNat 32 (w % 2 ^ nbits)) s.inputs, outstanding := none }

end Sys2Proof.Machine
end

