-- ==== Sys2Proof/Safety.lean ====
section
/-! DEFINITION. What the claims are stated in: the invariant of the machine, what a command leaves unchanged, the closed form
of the tag (spec/43_mac_driver.md R173) and the order of the port events (R172). -/

namespace Sys2Proof.Machine

/-! ## The invariant -/

/-- What the outside may present: commands within the limits of R11, and buffers in canonical form. -/
abbrev Input.wf : Input → Prop
  | .command c => c.wf
  | .buffer _ b => b.wf
  | .attach _ => True
  | .reset => True

/-- "a 32-bit code, `code != 0`" (R58). -/
abbrev Verdict.wf : Verdict → Prop
  | .answers => True
  | .fails code => code ≠ 0
  | .silent => True

/-- The outside keeps its contracts. -/
structure State.OutsideWf (s : State) : Prop where
  inputs : ∀ x ∈ s.inputs, x.wf
  verdicts : ∀ v ∈ s.verdicts, v.wf

/-- Every output buffer is canonical and within its capacity, and no reference stands twice (R42). -/
structure State.BuffersWf (s : State) : Prop where
  each : ∀ p ∈ s.bufs, p.2.wf
  once : (s.bufs.map (·.1)).Nodup

/-- The driver's CSRs fit together: as CMAC entry left them for the steps not reached (R161, R209), or as step 4 wrote them
(R165), with `IDX <= NBLK` (R40). -/
abbrev Csrs.Planned (c : Csrs) : Prop :=
  (c.nblk = 0 ∧ c.rem = 0 ∧ c.fpad = false ∧ c.idx = 0) ∨
  (c.nblk.toNat = blockCount c.len.toNat ∧ c.fpad = needsPadding c.len.toNat ∧ c.rem.toNat = c.len.toNat % 16 ∧
    c.idx.toNat ≤ c.nblk.toNat)

/-- The result code and the counters fit together: `PERR` is non-zero exactly after `E_PROVIDER` (R32), and `CALLS` is as
R175 and R204 say for the code that is shown. -/
structure Csrs.CodesFit (c : Csrs) : Prop where
  perr : c.perr ≠ 0 ↔ c.status = .eProvider
  noCall : c.status = .eBlksz ∨ c.status = .eIllegal → c.calls = 0
  someCall : c.status = .eProvider → 1 ≤ c.calls.toNat
  allCalls : c.status = .eOutcap → c.calls.toNat = c.nblk.toNat + 1 ∧ c.idx = c.nblk

/-- What holds of an engine with no request outstanding, that is, between any two commands (R40, R43). -/
structure State.Idle (s : State) : Prop where
  phase : s.phase = .idle
  noCursor : s.cursor = none
  planned : s.csr.Planned
  codes : s.csr.CodesFit

/-- The phases in which a request can be outstanding on a port: CMAC's steps with that request (R164, R167, R169; R163, R167,
R168), and the idle phase for CBCM and GENSUBK (R40). -/
abbrev waitingPhases : Port → List Phase
  | .cipher => [.idle, .s3, .s6, .s8]
  | .segment => [.s2, .s6, .s7]

/-- What holds between any two steps. -/
structure State.Inv (s : State) : Prop where
  outside : s.OutsideWf
  buffers : s.BuffersWf
  idle : s.outstanding = none → s.Idle
  waiting : ∀ port, s.outstanding = some port → s.phase ∈ waitingPhases port ∧ s.resp = none
  lenBound : s.csr.len.toNat < 2 ^ 48

/-! ## Frames -/

/-- Every block register but the named ones reads as before. -/
def RegsSameExcept (s t : State) (rs : List BReg) : Prop := ∀ r, r ∉ rs → t.readB r = s.readB r

/-- `LEN`, `NBLK`, `REM`, `IDX` and `FPAD` as before: what only CMAC writes (R30, R33). -/
def DriverCsrsSame (s t : State) : Prop :=
  t.csr.len = s.csr.len ∧ t.csr.nblk = s.csr.nblk ∧ t.csr.rem = s.csr.rem ∧ t.csr.idx = s.csr.idx ∧
    t.csr.fpad = s.csr.fpad

/-- The whole output buffer under `ref` as before: its capacity, its logical length and every byte. -/
def BufferSame (s t : State) (ref : Nat) : Prop :=
  (t.buf ref).cap = (s.buf ref).cap ∧ (t.buf ref).len = (s.buf ref).len ∧
    ∀ a, (t.buf ref).bytes.read a = (s.buf ref).bytes.read a

/-- Every output buffer as before. -/
def BuffersSame (s t : State) : Prop := ∀ ref, BufferSame s t ref

/-- Nothing at the ports is touched: the provider, what it will do, the segment source, the sequencer, the cursor. -/
def PortsSame (s t : State) : Prop :=
  t.provider = s.provider ∧ t.verdicts = s.verdicts ∧ t.sourceAnswers = s.sourceAnswers ∧ t.phase = s.phase ∧
    t.cursor = s.cursor

/-- A state-changing command has ended with a code: `STATUS` and `PERR` hold what the response says, `RDATA` is
`zero(16)` (R31, R32, R83), the command has left the port, and no request is outstanding. -/
def EndedWith (s t : State) (code : Code) (pcode : ErrCode) : Prop :=
  t.csr.status = code ∧ t.csr.perr = pcode ∧ t.resp = some { code := code, perrv := pcode, rdata := zeroBlock } ∧
    t.inputs = afterCommand s.inputs ∧ t.outstanding = none

/-- A command is left waiting for an answer on a port: it has been taken from the command port, has written no `STATUS` and
no `PERR`, and gets no response (U16, R31). -/
def LeftWaiting (s t : State) (port : Port) : Prop :=
  t.outstanding = some port ∧ t.csr.status = s.csr.status ∧ t.csr.perr = s.csr.perr ∧ t.resp = none ∧
    t.inputs = afterCommand s.inputs ∧ t.provider = s.provider

/-- `LEN`, `NBLK`, `REM` and `FPAD` as steps 2 and 4 write them for a message of `length` bytes (R163, R165). -/
def PlannedFor (t : State) (length : Nat) : Prop :=
  t.csr.len.toNat = length ∧ t.csr.nblk.toNat = blockCount length ∧ t.csr.rem.toNat = length % 16 ∧
    t.csr.fpad = needsPadding length

/-! ## The closed form of R173 -/

/-- Block `k` of a byte string, counted from 0: bytes `16k` to `16k + 15`, a short last one zero-filled (R72, R173). -/
def streamBlock (stream : List Byte) (k : Nat) : Block := blockOf (chunkAt stream (16 * k))

/-- `C_k` of R173: the running chaining value after `k` full blocks. -/
def chainValue (enc : Block → Block) (stream : List Byte) : Nat → Block
  | 0 => zeroBlock
  | k + 1 => enc (xorBlock (streamBlock stream k) (chainValue enc stream k))

/-- `M_n` of R173: the final block, masked. -/
def finalBlock (enc : Block → Block) (stream : List Byte) : Block :=
  let k1 := doubleBlock (enc zeroBlock)
  let last := streamBlock stream (blockCount stream.length - 1)
  if stream.length ≠ 0 ∧ stream.length % 16 = 0 then xorBlock last k1
  else xorBlock (padBlock last ⟨stream.length % 16, Nat.mod_lt _ (by decide)⟩) (doubleBlock k1)

/-- The tag of R173. -/
def closedTag (enc : Block → Block) (stream : List Byte) : Block :=
  enc (xorBlock (finalBlock enc stream) (chainValue enc stream (blockCount stream.length - 1)))

/-! ## The order of the port events (R172) -/

/-- `D_i, D_{i+1}, …`: one descriptor read per segment, in index order. -/
def descEvents : Nat → List Segment → List Event
  | _, [] => []
  | i, g :: rest => .segDesc i g.sign g.len :: descEvents (i + 1) rest

/-- `P_{k+1} E_{k+2}` for `k` from 0 up to `n - 1`: the loop of step 6. -/
def loopEvents (key : KeyHandle) (enc : Block → Block) (stream : List Byte) (n : Nat) : List Event :=
  (List.range n).flatMap fun k =>
    [.segPull (chunkAt stream (16 * k)),
     .cipher key (streamBlock stream k) (some (chainValue enc stream k)) (.ok (chainValue enc stream (k + 1)))]

/-- The port events of CMAC before pull `k + 1`, all answered: `D.. E_1 P_1 E_2 … P_k E_{k+1}` (R172). -/
def eventsBeforePull (b : Bundle) (enc : Block → Block) (k : Nat) : List Event :=
  descEvents 0 b.segl ++ [.cipher b.key zeroBlock none (.ok (enc zeroBlock))] ++
    loopEvents b.key enc (signedStream b.segl) k

/-- All port events of a successful CMAC: `D.. E_1 P_1 E_2 … P_n E_{n+1} W` (R172). -/
def successEvents (b : Bundle) (enc : Block → Block) : List Event :=
  let stream := signedStream b.segl
  let n := blockCount stream.length
  eventsBeforePull b enc (n - 1) ++
    [.segPull (chunkAt stream (16 * (n - 1))),
     .cipher b.key (finalBlock enc stream) (some (chainValue enc stream (n - 1))) (.ok (closedTag enc stream)),
     .memWrite b.out 0 (bytesOf (closedTag enc stream))]

/-- The segment source goes on answering for at least `k` transactions. -/
def State.sourceLasts (s : State) (k : Nat) : Prop := ∀ m, s.sourceAnswers.head? = some m → k ≤ m

/-- The next `k` calls on the cipher port are all answered `ok`. -/
def State.callsAnswer (s : State) (k : Nat) : Prop := ∀ v ∈ s.verdicts.take k, v = .answers

end Sys2Proof.Machine
end

