-- ==== Sys2Proof/Certificates/Slice0/Obligations.lean ====
section
/-! DEFINITION. The statements for the provers. Each docstring names the rule of spec/ it is about. `EndedWith`,
`RegsSameExcept`, `DriverCsrsSame`, `BuffersSame`, `PortsSame`, `closedTag`, `successEvents` and the invariant are defined in
Sys2Proof/Safety.lean. -/

open Sys2Proof Sys2Proof.Machine

/-! ## The pure functions on blocks -/

/-- R13, R51: `int(X)` is the sum of `X[i] * 2^(8*(15-i))`, byte 0 the most significant. -/
def Obligations.BlockIntegerIsBigEndianByteSum : Prop :=
  ∀ x : Block, x.toNat = ∑ i ∈ Finset.range 16, (byteOf x i).toNat * 2 ^ (8 * (15 - i))

/-- R100: XOR byte by byte, and on 128-bit integers. -/
def Obligations.XorBlockIsBytewiseAndIntegerXor : Prop :=
  ∀ a b : Block,
    (∀ i < 16, byteOf (xorBlock a b) i = byteOf a i ^^^ byteOf b i) ∧ (xorBlock a b).toNat = a.toNat ^^^ b.toNat

/-- R101: the bytewise pseudocode of the shift, its carry, and the equivalent integer equations. -/
def Obligations.ShiftCarriesAcrossBytes : Prop :=
  ∀ x : Block,
    (∀ i < 15, byteOf (shlBlock x).1 i = (byteOf x i <<< 1) ||| (byteOf x (i + 1) >>> 7)) ∧
    byteOf (shlBlock x).1 15 = byteOf x 15 <<< 1 ∧
    ((shlBlock x).2 = true ↔ byteOf x 0 >>> 7 = 1) ∧
    (shlBlock x).1.toNat = 2 * x.toNat % 2 ^ 128 ∧
    (shlBlock x).2.toNat = x.toNat / 2 ^ 127

/-- R102, R8: the shift alone when the original top bit is 0; when it is 1 only byte 15 differs from the shift, by 0x87. -/
def Obligations.DoubleTestsTheOriginalTopBit : Prop :=
  ∀ x : Block,
    (x.toNat < 2 ^ 127 → doubleBlock x = (shlBlock x).1) ∧
    (2 ^ 127 ≤ x.toNat →
      (∀ i < 15, byteOf (doubleBlock x) i = byteOf (shlBlock x).1 i) ∧
      byteOf (doubleBlock x) 15 = byteOf (shlBlock x).1 15 ^^^ 0x87)

/-- R103: every byte of the padded block, for every `valid_len` in 0..15. -/
def Obligations.PadBlockBytes : Prop :=
  ∀ (last : Block) (v : Fin 16), ∀ i < 16,
    byteOf (padBlock last v) i = if i < v.val then byteOf last i else if i = v.val then 0x80 else 0x00

/-- R108, R102: read as polynomials over GF(2), doubling is multiplication by `t` modulo `t^128 + t^7 + t^2 + t + 1`, and
`xor_block` is addition. -/
def Obligations.DoublingMultipliesInTheField : Prop :=
  ∀ poly : Block → Polynomial (ZMod 2),
    (∀ x : Block, poly x = ∑ b ∈ Finset.range 128, if x.getLsbD b then Polynomial.X ^ b else 0) →
    (∀ x : Block,
      poly (doubleBlock x) =
        (Polynomial.X * poly x) %ₘ
          (Polynomial.X ^ 128 + Polynomial.X ^ 7 + Polynomial.X ^ 2 + Polynomial.X + 1)) ∧
    ∀ a b : Block, poly (xorBlock a b) = poly a + poly b

/-- R109 (a) to (e): the laws of the pure functions. -/
def Obligations.BlockLaws : Prop :=
  (∀ a b c : Block, xorBlock a b = xorBlock b a ∧ xorBlock (xorBlock a b) c = xorBlock a (xorBlock b c) ∧
    xorBlock a a = zeroBlock ∧ xorBlock a zeroBlock = a) ∧
  (∀ a b : Block, (shlBlock (xorBlock a b)).1 = xorBlock (shlBlock a).1 (shlBlock b).1 ∧
    doubleBlock (xorBlock a b) = xorBlock (doubleBlock a) (doubleBlock b)) ∧
  (∀ x : Block, (msbOf x = true → xorBlock (shlBlock x).1 (doubleBlock x) = rb) ∧
    (msbOf x = false → (shlBlock x).1 = doubleBlock x)) ∧
  (∀ x : Block, doubleBlock x = zeroBlock → x = zeroBlock) ∧
  (∀ (a b : Block) (v : Fin 16), (∀ i < v.val, byteOf a i = byteOf b i) → padBlock a v = padBlock b v) ∧
  (∀ (a : Block) (v : Fin 16), padBlock a v ≠ zeroBlock ∧ byteOf (padBlock a v) v.val = 0x80)

/-! ## Encoding -/

/-- Every command, with every operand at every value, is read back from its word, and from its stored bytes with the rest of
the bytes handed on (R81, R85, R52). -/
def Obligations.DecodeOfEncodeIsTheCommand : Prop :=
  ∀ i : Instr, decode (encode i) = .ok i ∧
    ∀ rest : List Byte, decodeBytes (bytesOfWord (encode i) ++ rest) = .ok (i, rest)

/-- A word that decodes is the word of the command it decodes to: no other word stands for it (R85, R87). -/
def Obligations.EncodeOfDecodeIsTheWord : Prop :=
  ∀ (w : Word) (i : Instr), decode w = .ok i → encode i = w

/-- R85: "a word `W` is this command exactly when `W and mask = match`", and the eleven pairs are disjoint. -/
def Obligations.DecodeIsMaskAndMatch : Prop :=
  (∀ (w : Word) (o : Opcode), (∃ i, decode w = .ok i ∧ i.opcode = o) ↔ w &&& rowMask o = rowMatch o) ∧
  ∀ (w : Word) (o o' : Opcode), w &&& rowMask o = rowMatch o → w &&& rowMask o' = rowMatch o' → o = o'

/-- R86, R92 (2): the operands of a decoded command are its fields: the register number is the field (R21), `IMM4` is
`W[11:8]`, `C` is `W[0]`. -/
def Obligations.OperandsAreTheFields : Prop :=
  ∀ (w : Word) (i : Instr), decode w = .ok i →
    match i with
    | .xorb bd ba bb => regField bd = bdField w ∧ regField ba = baField w ∧ regField bb = bbField w
    | .shlb bd ba => regField bd = bdField w ∧ regField ba = baField w
    | .dblb bd ba => regField bd = bdField w ∧ regField ba = baField w
    | .padb bd ba imm4 => regField bd = bdField w ∧ regField ba = baField w ∧ imm4.val = w.toNat / 256 % 16
    | .ldb bd => regField bd = bdField w
    | .rdb ba => regField ba = baField w
    | .rdcsr imm4 => imm4.val = w.toNat / 256 % 16
    | .cbcm bd ba c => regField bd = bdField w ∧ regField ba = baField w ∧ (c = true ↔ w.toNat % 2 = 1)
    | .zeroize => w = 0x23000000
    | .gensubk => w = 0x31000000
    | .cmac => w = 0x40000000

/-- R93 (worked encodings and illegal neighbours), R87 (the all-zero and all-ones words). -/
def Obligations.WorkedEncodingsDecode : Prop :=
  decode 0x10553000 = .ok (.xorb .m .m .k2) ∧ decode 0x11760000 = .ok (.shlb .t1 .t0) ∧
  decode 0x12320000 = .ok (.dblb .k2 .k1) ∧ decode 0x13550800 = .ok (.padb .m .m 8) ∧
  decode 0x20500000 = .ok (.ldb .m) ∧ decode 0x21060000 = .ok (.rdb .t0) ∧ decode 0x22000700 = .ok (.rdcsr 7) ∧
  decode 0x23000000 = .ok .zeroize ∧ decode 0x30050001 = .ok (.cbcm .z .m true) ∧
  decode 0x30100000 = .ok (.cbcm .l .z false) ∧ decode 0x31000000 = .ok .gensubk ∧ decode 0x40000000 = .ok .cmac ∧
  decode 0x10853000 = .error (.noSuchRegister .bd) ∧ decode 0x10553100 = .error (.unusedNotZero .imm4) ∧
  decode 0x12210001 = .error (.unusedNotZero .c) ∧ decode 0x30050002 = .error (.unusedNotZero .rsv) ∧
  decode 0x31100000 = .error (.unusedNotZero .bd) ∧ decode 0x14000000 = .error .unknownOpcode ∧
  decode 0x00000000 = .error .unknownOpcode ∧ decode 0xFFFFFFFF = .error .unknownOpcode

/-- R91: the three pseudo-instructions: their words, and the effect of the command each is a synonym of. -/
def Obligations.PseudoInstructionEffects : Prop :=
  (∀ bd ba : BReg, encode (.xorb bd ba .z) =
      0x10000000 ||| (regField bd).setWidth 32 <<< 20 ||| (regField ba).setWidth 32 <<< 16) ∧
  (∀ (bd ba : BReg) (s : State), bd ≠ .z → ∃ t, exec (.xorb bd ba .z) s = .next t ∧ t.readB bd = s.readB ba ∧
    RegsSameExcept s t [bd] ∧ EndedWith s t .ok 0 ∧ t.csr.calls = 0) ∧
  (∀ (bd : BReg) (s : State), ∃ t, exec (.xorb bd .z .z) s = .next t ∧ t.readB bd = zeroBlock ∧
    RegsSameExcept s t [bd] ∧ EndedWith s t .ok 0 ∧ t.csr.calls = 0) ∧
  decode 0x21000000 = .ok (.rdb .z) ∧
  (∀ s : State, ∃ t, exec (.rdb .z) s = .next t ∧ t.regs = s.regs ∧ t.csr = s.csr ∧ BuffersSame s t ∧ PortsSame s t ∧
    t.resp = some { code := .ok, perrv := 0, rdata := zeroBlock })

/-! ## The step -/

/-- R92, R240: the step of an engine that waits for nothing, on a presented command whose word decodes, is the meaning of that
command, at that state. -/
def Obligations.StepExecutesTheDecodedCommand : Prop :=
  ∀ (s : State) (c : Command) (rest : List Input) (i : Instr), s.outstanding = none →
    s.inputs = .command c :: rest → decode c.word = .ok i → step s = exec i s

/-- R83, R31, R240: a command that ends (that is not left waiting for an answer) leaves the port, and its response is the one
given last. For every command but RDB and RDCSR the response repeats `STATUS` and `PERR` and carries `zero(16)`. The sequencer
is idle and no cursor exists when it was so before. -/
def Obligations.EveryCommandIsAnsweredOnce : Prop :=
  ∀ (s t : State) (c : Command) (rest : List Input), s.outstanding = none →
    s.inputs = .command c :: rest → step s = .next t → t.outstanding = none →
    t.inputs = rest ∧ (s.phase = .idle → t.phase = .idle) ∧ (s.cursor = none → t.cursor = none) ∧
    ∃ r, t.resp = some r ∧
      ((∀ ba, decode c.word ≠ .ok (.rdb ba)) → (∀ n, decode c.word ≠ .ok (.rdcsr n)) →
        r = { code := t.csr.status, perrv := t.csr.perr, rdata := zeroBlock })

/-- R204: a word that matches no row of R85 ends with `E_ILLEGAL` and changes nothing but `STATUS`, `PERR` and `CALLS`; in
particular it clears no secret. -/
def Obligations.IllegalWordOnlyReports : Prop :=
  ∀ (s : State) (c : Command) (rest : List Input), s.outstanding = none →
    s.inputs = .command c :: rest → (∀ o, c.word &&& rowMask o ≠ rowMatch o) →
    ∃ t, step s = .next t ∧ EndedWith s t .eIllegal 0 ∧ t.readCsr 0 = 4 ∧ t.csr.calls = 0 ∧ RegsSameExcept s t [] ∧
      t.csr.carry = s.csr.carry ∧ DriverCsrsSame s t ∧ BuffersSame s t ∧ PortsSame s t ∧ t.events = []

/-- R45, R230: every register and CSR after reset, at `State.reset` and after a reset among the inputs, also while a command
is executing, that is, with a request outstanding; a reset touches nothing that is not the engine's; `BLKSZ` reads the
provider's block size. The block size 16 of `State.reset` is the model's
choice (notes/assumptions/1.md) and is not claimed here. -/
def Obligations.ResetLeavesTheStatedValues : Prop :=
  ((∀ r, State.reset.readB r = zeroBlock) ∧ (∀ n : Fin 16, n.val ≠ 8 → State.reset.readCsr n = 0) ∧
    State.reset.phase = .idle ∧ State.reset.cursor = none ∧ State.reset.outstanding = none) ∧
  ∀ (s : State) (rest : List Input), s.inputs = .reset :: rest →
    ∃ t, step s = .next t ∧ (∀ r, t.readB r = zeroBlock) ∧ (∀ n : Fin 16, n.val ≠ 8 → t.readCsr n = 0) ∧
      t.readCsr 8 = s.provider.blksz.setWidth 64 ∧ t.phase = .idle ∧ t.cursor = none ∧ t.outstanding = none ∧
      t.resp = none ∧
      t.provider = s.provider ∧ BuffersSame s t ∧ t.inputs = rest

/-- R216 (between commands the engine keeps all its state) and the two inputs that are no commands: a buffer handed over
(R42) and a provider attached (R232) replace that one field and leave the rest of the state as it is; the input is taken. The
inputs are the model's form of what the host does (notes/assumptions/4.md). -/
def Obligations.BetweenCommandsTheEngineKeepsItsState : Prop :=
  (∀ s : State, s.outstanding = none → s.inputs = [] → step s = .next s) ∧
  (∀ (s : State) (ref : Nat) (b : OutBuf) (rest : List Input), s.outstanding = none → s.inputs = .buffer ref b :: rest →
    ∃ t, step s = .next t ∧ t = { s with bufs := putBuf s.bufs ref b, inputs := rest } ∧ t.buf ref = b ∧
      ∀ q, q ≠ ref → BufferSame s t q) ∧
  (∀ (s : State) (p : Provider) (rest : List Input), s.outstanding = none → s.inputs = .attach p :: rest →
    step s = .next { s with provider := p, inputs := rest })

/-! ## Block primitives and register access: results, completion, frames -/

/-- R22: `B[0]` reads zero in every state, a write to it changes nothing, and every command that can name it as destination
completes as with any other and leaves the registers as they were (CBCM all but the `CV` it chains through). -/
def Obligations.RegisterZeroIsHardwired : Prop :=
  ∀ s : State, s.readB .z = zeroBlock ∧ (∀ v, s.writeB .z v = s) ∧
    (∀ i : Instr, (∃ ba bb, i = .xorb .z ba bb) ∨ (∃ ba, i = .shlb .z ba) ∨ (∃ ba, i = .dblb .z ba) ∨
        (∃ ba v, i = .padb .z ba v) ∨ i = .ldb .z →
      ∃ t, exec i s = .next t ∧ RegsSameExcept s t [] ∧ t.readB .z = zeroBlock ∧ EndedWith s t .ok 0) ∧
    ∀ ba ch, s.provider.blksz = 16 → s.nextVerdict = .answers →
      ∃ t, exec (.cbcm .z ba ch) s = .next t ∧ RegsSameExcept s t (if ch then [.cv] else []) ∧
        t.readB .z = zeroBlock ∧ EndedWith s t .ok 0

/-- R104, R110: XORB. -/
def Obligations.XorbResultAndFrame : Prop :=
  ∀ (bd ba bb : BReg) (s : State), ∃ t, exec (.xorb bd ba bb) s = .next t ∧
    (bd ≠ .z → ∀ i < 16, byteOf (t.readB bd) i = byteOf (s.readB ba) i ^^^ byteOf (s.readB bb) i) ∧
    RegsSameExcept s t [bd] ∧ EndedWith s t .ok 0 ∧ t.csr.calls = 0 ∧ t.csr.carry = s.csr.carry ∧
    DriverCsrsSame s t ∧ BuffersSame s t ∧ PortsSame s t ∧ t.events = []

/-- R105, R110: SHLB. `CARRY` is the bit shifted out, for `bd = 0` too. -/
def Obligations.ShlbResultAndFrame : Prop :=
  ∀ (bd ba : BReg) (s : State), ∃ t, exec (.shlb bd ba) s = .next t ∧
    (bd ≠ .z → (t.readB bd).toNat = 2 * (s.readB ba).toNat % 2 ^ 128) ∧
    t.csr.carry.toNat = (s.readB ba).toNat / 2 ^ 127 ∧
    RegsSameExcept s t [bd] ∧ EndedWith s t .ok 0 ∧ t.csr.calls = 0 ∧
    DriverCsrsSame s t ∧ BuffersSame s t ∧ PortsSame s t ∧ t.events = []

/-- R106, R110: DBLB. `CARRY` is the original most significant bit, for `bd = 0` and `bd = ba` too. -/
def Obligations.DblbResultAndFrame : Prop :=
  ∀ (bd ba : BReg) (s : State), ∃ t, exec (.dblb bd ba) s = .next t ∧
    (bd ≠ .z → (t.readB bd).toNat =
      (2 * (s.readB ba).toNat % 2 ^ 128) ^^^ (if 2 ^ 127 ≤ (s.readB ba).toNat then 0x87 else 0)) ∧
    t.csr.carry.toNat = (s.readB ba).toNat / 2 ^ 127 ∧
    RegsSameExcept s t [bd] ∧ EndedWith s t .ok 0 ∧ t.csr.calls = 0 ∧
    DriverCsrsSame s t ∧ BuffersSame s t ∧ PortsSame s t ∧ t.events = []

/-- R107, R110: PADB, at every immediate. -/
def Obligations.PadbResultAndFrame : Prop :=
  ∀ (bd ba : BReg) (v : Fin 16) (s : State), ∃ t, exec (.padb bd ba v) s = .next t ∧
    (bd ≠ .z → ∀ i < 16, byteOf (t.readB bd) i =
      if i < v.val then byteOf (s.readB ba) i else if i = v.val then 0x80 else 0x00) ∧
    RegsSameExcept s t [bd] ∧ EndedWith s t .ok 0 ∧ t.csr.calls = 0 ∧ t.csr.carry = s.csr.carry ∧
    DriverCsrsSame s t ∧ BuffersSame s t ∧ PortsSame s t ∧ t.events = []

/-- R120: LDB: byte `i` of the register is `DATA` bits `[127-8i : 120-8i]` of the presented bundle. -/
def Obligations.LdbResultAndFrame : Prop :=
  ∀ (bd : BReg) (s : State) (c : Command) (rest : List Input), s.inputs = .command c :: rest →
    ∃ t, exec (.ldb bd) s = .next t ∧
      (bd ≠ .z → ∀ i < 16, (byteOf (t.readB bd) i).toNat = c.bundle.data.toNat / 2 ^ (120 - 8 * i) % 256) ∧
      RegsSameExcept s t [bd] ∧ EndedWith s t .ok 0 ∧ t.csr.calls = 0 ∧ t.csr.carry = s.csr.carry ∧
      DriverCsrsSame s t ∧ BuffersSame s t ∧ PortsSame s t ∧ t.events = []

/-- R121: RDB answers the register and changes no state at all. -/
def Obligations.RdbAnswersAndChangesNothing : Prop :=
  ∀ (ba : BReg) (s : State), ∃ t, exec (.rdb ba) s = .next t ∧
    t.resp = some { code := .ok, perrv := 0, rdata := s.readB ba } ∧ t.inputs = afterCommand s.inputs ∧
    t.outstanding = none ∧
    t.regs = s.regs ∧ t.csr = s.csr ∧ BuffersSame s t ∧ PortsSame s t ∧ t.events = []

/-- R122, R30, R200: RDCSR answers the value of the numbered CSR, zero-extended, zero for the numbers 9 to 15, and changes no
state at all. -/
def Obligations.RdcsrAnswersAndChangesNothing : Prop :=
  ∀ (n : Fin 16) (s : State), ∃ t v, exec (.rdcsr n) s = .next t ∧
    t.resp = some { code := .ok, perrv := 0, rdata := v } ∧ t.inputs = afterCommand s.inputs ∧ t.outstanding = none ∧
    t.regs = s.regs ∧ t.csr = s.csr ∧ BuffersSame s t ∧ PortsSame s t ∧ t.events = [] ∧
    (n.val = 0 → v.toNat = match s.csr.status with
      | .ok => 0 | .eBlksz => 1 | .eProvider => 2 | .eOutcap => 3 | .eIllegal => 4) ∧
    (n.val = 1 → v.toNat = s.csr.perr.toNat) ∧
    (n.val = 2 → v.toNat = s.csr.carry.toNat + 2 * s.csr.fpad.toNat) ∧
    (n.val = 3 → v.toNat = s.csr.len.toNat) ∧
    (n.val = 4 → v.toNat = s.csr.nblk.toNat) ∧
    (n.val = 5 → v.toNat = s.csr.rem.toNat) ∧
    (n.val = 6 → v.toNat = s.csr.idx.toNat) ∧
    (n.val = 7 → v.toNat = s.csr.calls.toNat) ∧
    (n.val = 8 → v.toNat = s.provider.blksz.toNat) ∧
    (9 ≤ n.val → v.toNat = 0)

/-- R123: ZEROIZE clears `B[1]`..`B[7]` and `CARRY` and nothing else that could be read. -/
def Obligations.ZeroizeResultAndFrame : Prop :=
  ∀ s : State, ∃ t, exec .zeroize s = .next t ∧ (∀ r, t.readB r = zeroBlock) ∧ t.csr.carry = false ∧
    EndedWith s t .ok 0 ∧ t.csr.calls = 0 ∧ DriverCsrsSame s t ∧ BuffersSame s t ∧ PortsSame s t ∧ t.events = []

/-! ## The cipher call and the subkey generator -/

/-- R59: what an `ok` answer holds, and that an IV of zeros answers as no IV does. -/
def Obligations.ProviderXorsTheRunningIv : Prop :=
  ∀ (p : Provider) (key : KeyHandle) (blk v : Block),
    p.cbcMac key blk none = p.enc key blk ∧ p.cbcMac key blk (some v) = p.enc key (xorBlock blk v) ∧
    p.cbcMac key blk (some zeroBlock) = p.cbcMac key blk none

/-- R140: CBCM when the call is answered: with `C = 1` the block is XORed with `CV` and the answer goes to `CV` as well as to
the destination; one call, one port event; nothing else changes. -/
def Obligations.CbcmAnsweredResultAndFrame : Prop :=
  ∀ (bd ba : BReg) (ch : Bool) (s : State) (c : Command) (rest : List Input), s.inputs = .command c :: rest →
    s.provider.blksz = 16 → s.nextVerdict = .answers →
    ∃ t mac, exec (.cbcm bd ba ch) s = .next t ∧
      mac = s.provider.enc c.bundle.key (if ch then xorBlock (s.readB ba) (s.readB .cv) else s.readB ba) ∧
      (bd ≠ .z → t.readB bd = mac) ∧ (ch = true → t.readB .cv = mac) ∧
      RegsSameExcept s t (bd :: if ch then [.cv] else []) ∧ EndedWith s t .ok 0 ∧ t.csr.calls = 1 ∧
      t.csr.carry = s.csr.carry ∧ DriverCsrsSame s t ∧ BuffersSame s t ∧ t.provider = s.provider ∧
      t.verdicts = s.verdicts.tail ∧ t.phase = s.phase ∧ t.cursor = s.cursor ∧
      t.events = [.cipher c.bundle.key (s.readB ba) (if ch then some (s.readB .cv) else none) (.ok mac)]

/-- R140, R201, R208: CBCM with a wrong block size makes no call; with a failing call it makes one, whose code is passed on;
in both no block register and no flag is written. -/
def Obligations.CbcmErrorsWriteNoRegister : Prop :=
  ∀ (bd ba : BReg) (ch : Bool) (s : State),
    (s.provider.blksz ≠ 16 → ∃ t, exec (.cbcm bd ba ch) s = .next t ∧ EndedWith s t .eBlksz 0 ∧ t.csr.calls = 0 ∧
      RegsSameExcept s t [] ∧ t.csr.carry = s.csr.carry ∧ DriverCsrsSame s t ∧ BuffersSame s t ∧ PortsSame s t ∧
      t.events = []) ∧
    ∀ code, s.provider.blksz = 16 → s.nextVerdict = .fails code →
      ∃ t, exec (.cbcm bd ba ch) s = .next t ∧ EndedWith s t .eProvider code ∧ t.csr.calls = 1 ∧
        RegsSameExcept s t [] ∧ t.csr.carry = s.csr.carry ∧ DriverCsrsSame s t ∧ BuffersSame s t ∧
        t.verdicts = s.verdicts.tail

/-- R141, R142: GENSUBK when the call is answered: `L = Enc(key, zero(16))`, `K1` and `K2` by doubling, `CARRY` the top bit
of `K1`; one call without IV; nothing else changes. -/
def Obligations.GensubkAnsweredResultAndFrame : Prop :=
  ∀ (s : State) (c : Command) (rest : List Input), s.inputs = .command c :: rest →
    s.provider.blksz = 16 → s.nextVerdict = .answers →
    ∃ t, exec .gensubk s = .next t ∧
      t.readB .l = s.provider.enc c.bundle.key zeroBlock ∧ t.readB .k1 = doubleBlock (t.readB .l) ∧
      t.readB .k2 = doubleBlock (t.readB .k1) ∧ t.csr.carry.toNat = (t.readB .k1).toNat / 2 ^ 127 ∧
      RegsSameExcept s t [.l, .k1, .k2] ∧ EndedWith s t .ok 0 ∧ t.csr.calls = 1 ∧ DriverCsrsSame s t ∧
      BuffersSame s t ∧ t.provider = s.provider ∧ t.verdicts = s.verdicts.tail ∧ t.phase = s.phase ∧
      t.cursor = s.cursor ∧ t.events = [.cipher c.bundle.key zeroBlock none (.ok (t.readB .l))]

/-- R141, R201, R208: GENSUBK's errors, as CBCM's. -/
def Obligations.GensubkErrorsWriteNoRegister : Prop :=
  ∀ s : State,
    (s.provider.blksz ≠ 16 → ∃ t, exec .gensubk s = .next t ∧ EndedWith s t .eBlksz 0 ∧ t.csr.calls = 0 ∧
      RegsSameExcept s t [] ∧ t.csr.carry = s.csr.carry ∧ DriverCsrsSame s t ∧ BuffersSame s t ∧ PortsSame s t ∧
      t.events = []) ∧
    ∀ code, s.provider.blksz = 16 → s.nextVerdict = .fails code →
      ∃ t, exec .gensubk s = .next t ∧ EndedWith s t .eProvider code ∧ t.csr.calls = 1 ∧
        RegsSameExcept s t [] ∧ t.csr.carry = s.csr.carry ∧ DriverCsrsSame s t ∧ BuffersSame s t ∧
        t.verdicts = s.verdicts.tail

/-- R145: GENSUBK, and CBCM L, Z, 0 / XORB L, L, Z / DBLB K1, L / DBLB K2, K1 with the same key, "differ only in `CALLS`": the
whole states they leave are the same but for `CALLS`, which is 0 after the sequence, and for the record of port events
(notes/assumptions/12.md), which a command begins empty; the one port event of GENSUBK is that of the sequence's CBCM, and the
three other commands have none. -/
def Obligations.GensubkEqualsThePrimitiveSequence : Prop :=
  ∀ (s u : State) (b b1 b2 b3 : Bundle) (rest : List Input),
    s.outstanding = none → s.provider.blksz = 16 → s.nextVerdict = .answers →
    s.inputs = .command { word := 0x31000000, bundle := b } :: rest →
    u = { s with inputs := [.command { word := 0x30100000, bundle := b }, .command { word := 0x10110000, bundle := b1 },
      .command { word := 0x12210000, bundle := b2 }, .command { word := 0x12320000, bundle := b3 }] ++ rest } →
    ∃ t v1 v2 v3 v, step s = .next t ∧
      step u = .next v1 ∧ step v1 = .next v2 ∧ step v2 = .next v3 ∧ step v3 = .next v ∧
      v = t.openRecord.clearCalls ∧ t.csr.calls = 1 ∧
      v1.events = t.events ∧ v2.events = [] ∧ v3.events = []

/-- R241, U16, R58: a command whose request is not answered is left waiting in the phase of that request, with no response
and with `STATUS`, `PERR` and every buffer as they were, whichever request it is. CBCM and GENSUBK have one, which they have
counted in `CALLS`, and have written no register and no flag. CMAC has the descriptors (step 2), the subkey call (step 3), and
for each block `j` of the `n` a pull (step 6, for the last block step 7) and call `j + 1` (step 6, for the last block step 8):
`CALLS` counts the calls with the one that is not answered, `IDX` the pulls that were answered, the CSRs are as the steps before
left them, the cursor stands behind the chunks that were pulled, and the port events are those of the requests that were
answered. The form of the waiting state is the model's (notes/assumptions/8.md). -/
def Obligations.UnansweredCommandsAreLeftWaiting : Prop :=
  ∀ s : State, s.provider.blksz = 16 →
    (s.nextVerdict = .silent → ∀ i : Instr, (∃ bd ba ch, i = .cbcm bd ba ch) ∨ i = .gensubk →
      ∃ t, exec i s = .next t ∧ LeftWaiting s t .cipher ∧ t.phase = s.phase ∧ t.csr.calls = 1 ∧ RegsSameExcept s t [] ∧
        t.csr.carry = s.csr.carry ∧ DriverCsrsSame s t ∧ BuffersSame s t ∧ t.cursor = s.cursor ∧
        t.verdicts = s.verdicts.tail ∧ t.sourceAnswers = s.sourceAnswers ∧ t.events = []) ∧
    (¬ s.sourceLasts s.bundle.segl.length →
      ∃ t, exec .cmac s = .next t ∧ LeftWaiting s t .segment ∧ t.phase = .s2 ∧ t.csr.calls = 0 ∧ t.csr.idx = 0 ∧
        t.csr.len = 0 ∧ t.csr.nblk = 0 ∧ t.cursor = some 0 ∧ BuffersSame s t ∧ t.verdicts = s.verdicts ∧
        ∀ m, s.sourceAnswers.head? = some m → t.events = (descEvents 0 s.bundle.segl).take m) ∧
    (s.nextVerdict = .silent → s.sourceLasts s.bundle.segl.length →
      ∃ t, exec .cmac s = .next t ∧ LeftWaiting s t .cipher ∧ t.phase = .s3 ∧ t.csr.calls = 1 ∧ t.csr.idx = 0 ∧
        t.csr.nblk = 0 ∧ t.cursor = some 0 ∧ BuffersSame s t ∧ t.verdicts = s.verdicts.tail ∧
        t.events = descEvents 0 s.bundle.segl) ∧
    ∀ (c : Command) (rest : List Input) (n length j : Nat), s.inputs = .command c :: rest → c.wf →
      length = (signedStream c.bundle.segl).length → n = blockCount length → 1 ≤ j → j ≤ n → s.callsAnswer j →
      (s.sourceLasts (c.bundle.segl.length + (j - 1)) → ¬ s.sourceLasts (c.bundle.segl.length + j) →
        ∃ t, exec .cmac s = .next t ∧ LeftWaiting s t .segment ∧ t.phase = (if j < n then .s6 else .s7) ∧
          t.csr.calls.toNat = j ∧ t.csr.idx.toNat = j - 1 ∧ PlannedFor t length ∧ t.cursor = some (16 * (j - 1)) ∧
          BuffersSame s t ∧ t.verdicts = s.verdicts.drop j ∧
          t.events = eventsBeforePull c.bundle (s.provider.enc c.bundle.key) (j - 1)) ∧
      (s.sourceLasts (c.bundle.segl.length + j) → (s.verdicts.drop j).head? = some .silent →
        ∃ t, exec .cmac s = .next t ∧ LeftWaiting s t .cipher ∧ t.phase = (if j < n then .s6 else .s8) ∧
          t.csr.calls.toNat = j + 1 ∧ t.csr.idx.toNat = j ∧ PlannedFor t length ∧
          t.cursor = some (min (16 * j) length) ∧ BuffersSame s t ∧ t.verdicts = s.verdicts.drop (j + 1) ∧
          t.events = eventsBeforePull c.bundle (s.provider.enc c.bundle.key) (j - 1) ++
            [.segPull (chunkAt (signedStream c.bundle.segl) (16 * (j - 1)))])

/-- U16, R230, R240: an engine that waits on a port is ended by a reset and by nothing else: with a reset next it comes to the
state of R45, with no response; with anything else next, or nothing, no step is taken. That the hang is a fault of the model
is notes/assumptions/8.md. -/
def Obligations.OnlyResetEndsAWait : Prop :=
  ∀ (s : State) (port : Port), s.outstanding = some port →
    (∀ rest, s.inputs = .reset :: rest →
      ∃ t, step s = .next t ∧ t.outstanding = none ∧ t.phase = .idle ∧ t.cursor = none ∧ (∀ r, t.readB r = zeroBlock) ∧
        t.csr = Csrs.zero ∧ t.resp = none ∧ BuffersSame s t ∧ t.inputs = rest) ∧
    ((∀ rest, s.inputs ≠ .reset :: rest) → step s = .fault (.noAnswer port s.phase))

/-- R241, R174 (b): "every command ends after finitely many steps provided each `CipherCall`, `SegDesc` and `SegPull` is
answered": with no silence ahead every command gets its response. -/
def Obligations.EveryAnsweredCommandEnds : Prop :=
  ∀ (i : Instr) (s : State), (∀ v ∈ s.verdicts, v ≠ .silent) → s.sourceAnswers = [] →
    ∃ t r, exec i s = .next t ∧ t.outstanding = none ∧ t.resp = some r

/-! ## The MAC driver -/

/-- R165: the arithmetic of step 4: `n >= 1`; complete exactly at a non-zero multiple of 16; the final block holds `v` bytes
with `16*(n-1) + v = length`. -/
def Obligations.FinalBlockPlanIsConsistent : Prop :=
  ∀ length : Nat,
    1 ≤ blockCount length ∧
    (needsPadding length = false ↔ length ≠ 0 ∧ length % 16 = 0) ∧
    16 * (blockCount length - 1) + (if needsPadding length then remainder length else 16) = length ∧
    (length ≠ 0 → blockCount length = (length + 15) / 16)

/-- R56: what a pull answers and where it leaves the cursor: the chunk and what is left of the stream make up what was left
before; every pull but possibly the last gives 16 bytes; at the end it gives none. -/
def Obligations.SegPullYieldsTheStreamInOrder : Prop :=
  ∀ (s : State) (pos : Nat), s.cursor = some pos → s.sourceLasts 1 →
    ∃ chunk t next, segPull s = .answered chunk t ∧ t.cursor = some next ∧ t.csr.idx = s.csr.idx + 1 ∧
      next = min (pos + 16) (signedStream s.bundle.segl).length ∧
      (pos ≤ (signedStream s.bundle.segl).length →
        chunk ++ (signedStream s.bundle.segl).drop next = (signedStream s.bundle.segl).drop pos ∧
        chunk.length = min 16 ((signedStream s.bundle.segl).length - pos)) ∧
      t.regs = s.regs ∧ BuffersSame s t ∧ t.provider = s.provider ∧ t.verdicts = s.verdicts ∧ t.inputs = s.inputs

/-- R173, R170, R163, R165, R171, R175: THE TAG. When the block size is 16, the buffer has 16 bytes, every call is answered and
the source lasts, CMAC ends with `OK`: bytes 0 to 15 of the buffer are the closed form of R173 and no other byte of it has
changed, its length is 16, the other buffers are as before, the CSRs hold length, block count, mode, remainder, pulls and
calls, and the secrets are cleared. -/
def Obligations.CmacWritesTheClosedFormTag : Prop :=
  ∀ (s : State) (c : Command) (rest : List Input) (n length : Nat), s.inputs = .command c :: rest →
    c.wf → s.BuffersWf → length = (signedStream c.bundle.segl).length → n = blockCount length →
    s.provider.blksz = 16 → 16 ≤ (s.buf c.bundle.out).cap.toNat →
    s.callsAnswer (n + 1) → s.sourceLasts (c.bundle.segl.length + n) →
    ∃ t, exec .cmac s = .next t ∧ EndedWith s t .ok 0 ∧
      (∀ a, (t.buf c.bundle.out).bytes.read a =
        if a < 16 then byteOf (closedTag (s.provider.enc c.bundle.key) (signedStream c.bundle.segl)) a
        else (s.buf c.bundle.out).bytes.read a) ∧
      (t.buf c.bundle.out).len = 16 ∧ (t.buf c.bundle.out).cap = (s.buf c.bundle.out).cap ∧
      (∀ ref, ref ≠ c.bundle.out → BufferSame s t ref) ∧
      t.csr.len.toNat = length ∧ t.csr.nblk.toNat = n ∧ t.csr.fpad = needsPadding length ∧
      t.csr.rem.toNat = length % 16 ∧ t.csr.idx.toNat = n ∧ t.csr.calls.toNat = n + 1 ∧
      (∀ r, t.readB r = zeroBlock) ∧ t.csr.carry = false ∧ t.phase = .idle ∧ t.cursor = none ∧
      t.provider = s.provider

/-- R172, R66: the port events of a successful CMAC, all of them and in order: `D.. E_1 P_1 E_2 … P_n E_{n+1} W`. -/
def Obligations.CmacPortEventsInOrder : Prop :=
  ∀ (s : State) (c : Command) (rest : List Input), s.inputs = .command c :: rest → c.wf →
    s.provider.blksz = 16 → 16 ≤ (s.buf c.bundle.out).cap.toNat →
    s.callsAnswer (blockCount (signedStream c.bundle.segl).length + 1) →
    s.sourceLasts (c.bundle.segl.length + blockCount (signedStream c.bundle.segl).length) →
    ∃ t, exec .cmac s = .next t ∧ t.events = successEvents c.bundle (s.provider.enc c.bundle.key)

/-- R162, R201, R207: a block size other than 16 ends CMAC with `E_BLKSZ` before any port event, whatever the capacity and
whatever the provider would do. -/
def Obligations.CmacBlockSizeMismatchTouchesNoPort : Prop :=
  ∀ s : State, s.provider.blksz ≠ 16 →
    ∃ t, exec .cmac s = .next t ∧ EndedWith s t .eBlksz 0 ∧ t.events = [] ∧ t.csr.calls = 0 ∧ t.csr.len = 0 ∧
      t.csr.idx = 0 ∧ t.csr.nblk = 0 ∧ t.csr.rem = 0 ∧ t.csr.fpad = false ∧ BuffersSame s t ∧
      t.verdicts = s.verdicts ∧ t.sourceAnswers = s.sourceAnswers ∧ (∀ r, t.readB r = zeroBlock) ∧ t.csr.carry = false

/-- R202, R208, R209, R174 (a): when the first `j` calls are answered and call `j + 1` of the `n + 1` fails, CMAC ends there
with `E_PROVIDER` and that code, `CALLS = j + 1`, `IDX = j`, no buffer written, and the CSRs as the steps before it left
them. -/
def Obligations.CmacEndsAtTheFailedCall : Prop :=
  ∀ (s : State) (c : Command) (rest : List Input) (n length j : Nat) (code : ErrCode), s.inputs = .command c :: rest →
    c.wf → length = (signedStream c.bundle.segl).length → n = blockCount length → j ≤ n →
    s.provider.blksz = 16 → s.callsAnswer j → (s.verdicts.drop j).head? = some (.fails code) →
    s.sourceLasts (c.bundle.segl.length + j) →
    ∃ t, exec .cmac s = .next t ∧ EndedWith s t .eProvider code ∧ t.csr.calls.toNat = j + 1 ∧ t.csr.idx.toNat = j ∧
      t.csr.len.toNat = length ∧
      (j = 0 → t.csr.nblk = 0 ∧ t.csr.rem = 0 ∧ t.csr.fpad = false) ∧
      (1 ≤ j → t.csr.nblk.toNat = n ∧ t.csr.rem.toNat = length % 16 ∧ t.csr.fpad = needsPadding length) ∧
      BuffersSame s t ∧ (∀ r, t.readB r = zeroBlock) ∧ t.csr.carry = false

/-- R203, R170: with a capacity below 16 and every call answered, CMAC ends with `E_OUTCAP` after all `n + 1` calls, and no
buffer is written. For an `OUT` that names a buffer of the host's this is the rule; an `OUT` that names none, of which the spec
says nothing, counts as capacity 0 here, which is the model's choice (notes/assumptions/6.md). -/
def Obligations.CmacOutcapViolationWritesNothing : Prop :=
  ∀ (s : State) (c : Command) (rest : List Input) (n : Nat), s.inputs = .command c :: rest → c.wf →
    n = blockCount (signedStream c.bundle.segl).length → s.provider.blksz = 16 →
    (s.buf c.bundle.out).cap.toNat < 16 → s.callsAnswer (n + 1) → s.sourceLasts (c.bundle.segl.length + n) →
    ∃ t, exec .cmac s = .next t ∧ EndedWith s t .eOutcap 0 ∧ t.csr.calls.toNat = n + 1 ∧ t.csr.idx.toNat = n ∧
      t.csr.nblk.toNat = n ∧ BuffersSame s t ∧ (∀ r, t.readB r = zeroBlock) ∧ t.csr.carry = false

/-- R171, R210: every way out of CMAC, success and errors alike, clears `B[1]`..`B[7]` and `CARRY`, leaves the sequencer idle
with no cursor, and answers with what it wrote to `STATUS` and `PERR`. -/
def Obligations.CmacClearsSecretsOnEveryExit : Prop :=
  ∀ s t : State, exec .cmac s = .next t → t.outstanding = none →
    (∀ r, t.readB r = zeroBlock) ∧ t.csr.carry = false ∧ t.phase = .idle ∧ t.cursor = none ∧
      EndedWith s t t.csr.status t.csr.perr

/-- R175: the number of calls by the code CMAC ended with: 0 for `E_BLKSZ`; `NBLK + 1` for `OK` and `E_OUTCAP`; between 1 and
`n + 1` for `E_PROVIDER`; and the provider was asked exactly that often. -/
def Obligations.CmacCallCount : Prop :=
  ∀ (s t : State) (c : Command) (rest : List Input), s.inputs = .command c :: rest → c.wf → exec .cmac s = .next t →
    t.outstanding = none →
    t.verdicts = s.verdicts.drop t.csr.calls.toNat ∧
    (t.csr.status = .eBlksz → t.csr.calls.toNat = 0) ∧
    (t.csr.status = .ok ∨ t.csr.status = .eOutcap → t.csr.calls.toNat = t.csr.nblk.toNat + 1) ∧
    (t.csr.status = .eProvider → 1 ≤ t.csr.calls.toNat ∧
      t.csr.calls.toNat ≤ blockCount (signedStream c.bundle.segl).length + 1) ∧
    t.csr.status ≠ .eIllegal

/-- R176 (b), (c): two segment lists with the same signed stream, however it is split and whatever the unsigned bytes are, lead
to next states that differ in nothing but the descriptor events. -/
def Obligations.CmacDependsOnlyOnTheSignedStream : Prop :=
  ∀ (s : State) (c : Command) (rest : List Input) (gs : List Segment), s.inputs = .command c :: rest →
    signedStream gs = signedStream c.bundle.segl → s.sourceAnswers = [] →
    ∀ s', s' = { s with inputs := .command { c with bundle := { c.bundle with segl := gs } } :: rest } →
      ∃ t t', exec .cmac s = .next t ∧ exec .cmac s' = .next t' ∧ t' = { t with events := t'.events } ∧
        t'.events.filter (fun e => match e with | .segDesc _ _ _ => false | _ => true) =
          t.events.filter (fun e => match e with | .segDesc _ _ _ => false | _ => true)

/-- R176 (d): `USAGE` affects no state, event or result, of any command. -/
def Obligations.UsageAffectsNothing : Prop :=
  ∀ (i : Instr) (s : State) (c : Command) (rest : List Input) (u : BitVec 32), s.inputs = .command c :: rest →
    exec i { s with inputs := .command { c with bundle := { c.bundle with usage := u } } :: rest } = exec i s

/-- R176 (e): the outcome of a CMAC that ends does not depend on any block register, CSR, phase, cursor, request, event or
response before it; and whether it ends does not either. -/
def Obligations.CmacIsIndependentOfHistory : Prop :=
  ∀ s s' : State, s'.inputs = s.inputs → s'.provider = s.provider → s'.verdicts = s.verdicts →
    s'.sourceAnswers = s.sourceAnswers → s'.bufs = s.bufs →
    ∃ t t', exec .cmac s = .next t ∧ exec .cmac s' = .next t' ∧ t'.outstanding = t.outstanding ∧
      (t.outstanding = none → t' = t)

/-- R46: the CSRs and the response that a CMAC that ends leaves depend on the lengths and flags of the segment list, the block
size, the capacity and what becomes of the calls, and not on the key, the message bytes, the cipher or anything before: two
runs that agree on the former agree on the latter. An `OUT` that names no buffer counts as capacity 0
(notes/assumptions/6.md). -/
def Obligations.CmacCsrsRevealNoSecret : Prop :=
  ∀ (s s' : State) (c c' : Command) (rest rest' : List Input),
    s.inputs = .command c :: rest → s'.inputs = .command c' :: rest' →
    c'.bundle.segl.map (fun g => (g.sign, g.len)) = c.bundle.segl.map (fun g => (g.sign, g.len)) →
    s'.provider.blksz = s.provider.blksz → (s'.buf c'.bundle.out).cap = (s.buf c.bundle.out).cap →
    s'.verdicts = s.verdicts → s'.sourceAnswers = s.sourceAnswers →
    ∃ t t', exec .cmac s = .next t ∧ exec .cmac s' = .next t' ∧ t'.outstanding = t.outstanding ∧
      (t.outstanding = none → t'.csr = t.csr ∧ t'.resp = t.resp ∧ t'.regs = t.regs)

/-! ## Whole-machine rules -/

/-- R42, R61: an output buffer changes only by a CMAC that ends with `OK`, and then only the buffer the command names. -/
def Obligations.OnlySuccessfulCmacWritesOutput : Prop :=
  ∀ (i : Instr) (s t : State) (ref : Nat), exec i s = .next t → ¬ BufferSame s t ref →
    i = .cmac ∧ t.outstanding = none ∧ t.csr.status = .ok ∧ ref = s.bundle.out

/-- R30, R33: `CARRY` is written by SHLB, DBLB, GENSUBK, CMAC and ZEROIZE only; `FPAD`, `LEN`, `NBLK`, `REM` and `IDX` by CMAC
only; `STATUS`, `PERR` and `CALLS` by every command but RDB and RDCSR. -/
def Obligations.EachCsrHasItsWriters : Prop :=
  ∀ (i : Instr) (s t : State), exec i s = .next t →
    (t.csr.carry ≠ s.csr.carry → i.opcode ∈ [Opcode.shlb, .dblb, .gensubk, .cmac, .zeroize]) ∧
    (¬ DriverCsrsSame s t → i = .cmac) ∧
    (i.opcode ∈ [Opcode.rdb, .rdcsr] → t.csr = s.csr ∧ t.regs = s.regs)

/-- R33: no command's result depends on `CARRY`: with the flag changed, every command but an RDCSR of `FLAGS` has the same
outcome up to the flag. -/
def Obligations.CarryIsAnOutputOnly : Prop :=
  ∀ (i : Instr) (s : State) (b : Bool), i ≠ .rdcsr 2 →
    ∃ t t', exec i s = .next t ∧ exec i (s.setCarry b) = .next t' ∧ t' = t.setCarry t'.csr.carry

/-- R200: the codes each command that ends can end with. -/
def Obligations.CodesEachCommandCanEndWith : Prop :=
  ∀ (i : Instr) (s t : State), exec i s = .next t → t.outstanding = none → ∃ r, t.resp = some r ∧
    (i.opcode ∈ [Opcode.xorb, .shlb, .dblb, .padb, .ldb, .rdb, .rdcsr, .zeroize] → r.code = .ok) ∧
    (i.opcode ∈ [Opcode.cbcm, .gensubk] → r.code ∈ [Code.ok, .eBlksz, .eProvider]) ∧
    (i = .cmac → r.code ∈ [Code.ok, .eBlksz, .eProvider, .eOutcap]) ∧
    (r.code ≠ .eProvider → r.perrv = 0)

/-- The invariant of Safety.lean holds at reset. -/
def Obligations.InvariantHoldsAtReset : Prop := State.reset.Inv

/-- THE INVARIANT: with no request outstanding the sequencer is idle and no cursor exists (R40, R43), `NBLK`, `FPAD`, `REM`
and `IDX` fit `LEN` (R36 to R38, R40), `PERR` is non-zero exactly after `E_PROVIDER` (R32), and `CALLS` fits the code (R175,
R204); a request is outstanding only in a phase that issues it, and no response is given then; the buffers stay canonical and
within their capacity (R42); `LEN` is below 2^48 (R35). Every step keeps it. -/
def Obligations.StepKeepsTheInvariant : Prop :=
  ∀ s t : State, s.Inv → step s = .next t → t.Inv
end

