-- ==== Sys2Proof/Laws/State.lean ====
section
/-! SUPPORT. The field lemmas of State's named updates, one per field and update, and what the register accessors read
after each: no later proof unfolds a record update. -/

namespace Sys2Proof.Machine

/-! ## writeB -/

@[simp] theorem State.writeB_regs (s : State) (r : BReg) (v : Block) :
    (s.writeB r v).regs = s.regs.write r v := rfl
@[simp] theorem State.writeB_csr (s : State) (r : BReg) (v : Block) :
    (s.writeB r v).csr = s.csr := rfl
@[simp] theorem State.writeB_phase (s : State) (r : BReg) (v : Block) :
    (s.writeB r v).phase = s.phase := rfl
@[simp] theorem State.writeB_cursor (s : State) (r : BReg) (v : Block) :
    (s.writeB r v).cursor = s.cursor := rfl
@[simp] theorem State.writeB_outstanding (s : State) (r : BReg) (v : Block) :
    (s.writeB r v).outstanding = s.outstanding := rfl
@[simp] theorem State.writeB_bufs (s : State) (r : BReg) (v : Block) :
    (s.writeB r v).bufs = s.bufs := rfl
@[simp] theorem State.writeB_provider (s : State) (r : BReg) (v : Block) :
    (s.writeB r v).provider = s.provider := rfl
@[simp] theorem State.writeB_verdicts (s : State) (r : BReg) (v : Block) :
    (s.writeB r v).verdicts = s.verdicts := rfl
@[simp] theorem State.writeB_sourceAnswers (s : State) (r : BReg) (v : Block) :
    (s.writeB r v).sourceAnswers = s.sourceAnswers := rfl
@[simp] theorem State.writeB_inputs (s : State) (r : BReg) (v : Block) :
    (s.writeB r v).inputs = s.inputs := rfl
@[simp] theorem State.writeB_events (s : State) (r : BReg) (v : Block) :
    (s.writeB r v).events = s.events := rfl
@[simp] theorem State.writeB_resp (s : State) (r : BReg) (v : Block) :
    (s.writeB r v).resp = s.resp := rfl
@[simp] theorem State.writeB_bundle (s : State) (r : BReg) (v : Block) :
    (s.writeB r v).bundle = s.bundle := rfl
@[simp] theorem State.writeB_buf (s : State) (r : BReg) (v : Block) (q : Nat) :
    (s.writeB r v).buf q = s.buf q := rfl
@[simp] theorem State.writeB_wrongBlockSize (s : State) (r : BReg) (v : Block) :
    (s.writeB r v).wrongBlockSize = s.wrongBlockSize := rfl
@[simp] theorem State.writeB_nextVerdict (s : State) (r : BReg) (v : Block) :
    (s.writeB r v).nextVerdict = s.nextVerdict := rfl

/-! ## setCarry -/

@[simp] theorem State.setCarry_regs (s : State) (c : Bool) :
    (s.setCarry c).regs = s.regs := rfl
@[simp] theorem State.setCarry_csr (s : State) (c : Bool) :
    (s.setCarry c).csr = { s.csr with carry := c } := rfl
@[simp] theorem State.setCarry_phase (s : State) (c : Bool) :
    (s.setCarry c).phase = s.phase := rfl
@[simp] theorem State.setCarry_cursor (s : State) (c : Bool) :
    (s.setCarry c).cursor = s.cursor := rfl
@[simp] theorem State.setCarry_outstanding (s : State) (c : Bool) :
    (s.setCarry c).outstanding = s.outstanding := rfl
@[simp] theorem State.setCarry_bufs (s : State) (c : Bool) :
    (s.setCarry c).bufs = s.bufs := rfl
@[simp] theorem State.setCarry_provider (s : State) (c : Bool) :
    (s.setCarry c).provider = s.provider := rfl
@[simp] theorem State.setCarry_verdicts (s : State) (c : Bool) :
    (s.setCarry c).verdicts = s.verdicts := rfl
@[simp] theorem State.setCarry_sourceAnswers (s : State) (c : Bool) :
    (s.setCarry c).sourceAnswers = s.sourceAnswers := rfl
@[simp] theorem State.setCarry_inputs (s : State) (c : Bool) :
    (s.setCarry c).inputs = s.inputs := rfl
@[simp] theorem State.setCarry_events (s : State) (c : Bool) :
    (s.setCarry c).events = s.events := rfl
@[simp] theorem State.setCarry_resp (s : State) (c : Bool) :
    (s.setCarry c).resp = s.resp := rfl
@[simp] theorem State.setCarry_readB (s : State) (c : Bool) (q : BReg) :
    (s.setCarry c).readB q = s.readB q := rfl
@[simp] theorem State.setCarry_bundle (s : State) (c : Bool) :
    (s.setCarry c).bundle = s.bundle := rfl
@[simp] theorem State.setCarry_buf (s : State) (c : Bool) (q : Nat) :
    (s.setCarry c).buf q = s.buf q := rfl
@[simp] theorem State.setCarry_wrongBlockSize (s : State) (c : Bool) :
    (s.setCarry c).wrongBlockSize = s.wrongBlockSize := rfl
@[simp] theorem State.setCarry_nextVerdict (s : State) (c : Bool) :
    (s.setCarry c).nextVerdict = s.nextVerdict := rfl

/-! ## openRecord -/

@[simp] theorem State.openRecord_regs (s : State) :
    (s.openRecord).regs = s.regs := rfl
@[simp] theorem State.openRecord_csr (s : State) :
    (s.openRecord).csr = s.csr := rfl
@[simp] theorem State.openRecord_phase (s : State) :
    (s.openRecord).phase = s.phase := rfl
@[simp] theorem State.openRecord_cursor (s : State) :
    (s.openRecord).cursor = s.cursor := rfl
@[simp] theorem State.openRecord_outstanding (s : State) :
    (s.openRecord).outstanding = s.outstanding := rfl
@[simp] theorem State.openRecord_bufs (s : State) :
    (s.openRecord).bufs = s.bufs := rfl
@[simp] theorem State.openRecord_provider (s : State) :
    (s.openRecord).provider = s.provider := rfl
@[simp] theorem State.openRecord_verdicts (s : State) :
    (s.openRecord).verdicts = s.verdicts := rfl
@[simp] theorem State.openRecord_sourceAnswers (s : State) :
    (s.openRecord).sourceAnswers = s.sourceAnswers := rfl
@[simp] theorem State.openRecord_inputs (s : State) :
    (s.openRecord).inputs = s.inputs := rfl
@[simp] theorem State.openRecord_events (s : State) :
    (s.openRecord).events = [] := rfl
@[simp] theorem State.openRecord_resp (s : State) :
    (s.openRecord).resp = s.resp := rfl
@[simp] theorem State.openRecord_readB (s : State) (q : BReg) :
    (s.openRecord).readB q = s.readB q := rfl
@[simp] theorem State.openRecord_bundle (s : State) :
    (s.openRecord).bundle = s.bundle := rfl
@[simp] theorem State.openRecord_buf (s : State) (q : Nat) :
    (s.openRecord).buf q = s.buf q := rfl
@[simp] theorem State.openRecord_wrongBlockSize (s : State) :
    (s.openRecord).wrongBlockSize = s.wrongBlockSize := rfl
@[simp] theorem State.openRecord_nextVerdict (s : State) :
    (s.openRecord).nextVerdict = s.nextVerdict := rfl

/-! ## clearCalls -/

@[simp] theorem State.clearCalls_regs (s : State) :
    (s.clearCalls).regs = s.regs := rfl
@[simp] theorem State.clearCalls_csr (s : State) :
    (s.clearCalls).csr = { s.csr with calls := 0 } := rfl
@[simp] theorem State.clearCalls_phase (s : State) :
    (s.clearCalls).phase = s.phase := rfl
@[simp] theorem State.clearCalls_cursor (s : State) :
    (s.clearCalls).cursor = s.cursor := rfl
@[simp] theorem State.clearCalls_outstanding (s : State) :
    (s.clearCalls).outstanding = s.outstanding := rfl
@[simp] theorem State.clearCalls_bufs (s : State) :
    (s.clearCalls).bufs = s.bufs := rfl
@[simp] theorem State.clearCalls_provider (s : State) :
    (s.clearCalls).provider = s.provider := rfl
@[simp] theorem State.clearCalls_verdicts (s : State) :
    (s.clearCalls).verdicts = s.verdicts := rfl
@[simp] theorem State.clearCalls_sourceAnswers (s : State) :
    (s.clearCalls).sourceAnswers = s.sourceAnswers := rfl
@[simp] theorem State.clearCalls_inputs (s : State) :
    (s.clearCalls).inputs = s.inputs := rfl
@[simp] theorem State.clearCalls_events (s : State) :
    (s.clearCalls).events = s.events := rfl
@[simp] theorem State.clearCalls_resp (s : State) :
    (s.clearCalls).resp = s.resp := rfl
@[simp] theorem State.clearCalls_readB (s : State) (q : BReg) :
    (s.clearCalls).readB q = s.readB q := rfl
@[simp] theorem State.clearCalls_bundle (s : State) :
    (s.clearCalls).bundle = s.bundle := rfl
@[simp] theorem State.clearCalls_buf (s : State) (q : Nat) :
    (s.clearCalls).buf q = s.buf q := rfl
@[simp] theorem State.clearCalls_wrongBlockSize (s : State) :
    (s.clearCalls).wrongBlockSize = s.wrongBlockSize := rfl
@[simp] theorem State.clearCalls_nextVerdict (s : State) :
    (s.clearCalls).nextVerdict = s.nextVerdict := rfl

/-! ## respond -/

@[simp] theorem State.respond_regs (s : State) (c : Code) (p : ErrCode) (d : Block) :
    (s.respond c p d).regs = s.regs := rfl
@[simp] theorem State.respond_csr (s : State) (c : Code) (p : ErrCode) (d : Block) :
    (s.respond c p d).csr = s.csr := rfl
@[simp] theorem State.respond_phase (s : State) (c : Code) (p : ErrCode) (d : Block) :
    (s.respond c p d).phase = s.phase := rfl
@[simp] theorem State.respond_cursor (s : State) (c : Code) (p : ErrCode) (d : Block) :
    (s.respond c p d).cursor = s.cursor := rfl
@[simp] theorem State.respond_outstanding (s : State) (c : Code) (p : ErrCode) (d : Block) :
    (s.respond c p d).outstanding = none := rfl
@[simp] theorem State.respond_bufs (s : State) (c : Code) (p : ErrCode) (d : Block) :
    (s.respond c p d).bufs = s.bufs := rfl
@[simp] theorem State.respond_provider (s : State) (c : Code) (p : ErrCode) (d : Block) :
    (s.respond c p d).provider = s.provider := rfl
@[simp] theorem State.respond_verdicts (s : State) (c : Code) (p : ErrCode) (d : Block) :
    (s.respond c p d).verdicts = s.verdicts := rfl
@[simp] theorem State.respond_sourceAnswers (s : State) (c : Code) (p : ErrCode) (d : Block) :
    (s.respond c p d).sourceAnswers = s.sourceAnswers := rfl
@[simp] theorem State.respond_inputs (s : State) (c : Code) (p : ErrCode) (d : Block) :
    (s.respond c p d).inputs = afterCommand s.inputs := rfl
@[simp] theorem State.respond_events (s : State) (c : Code) (p : ErrCode) (d : Block) :
    (s.respond c p d).events = s.events := rfl
@[simp] theorem State.respond_resp (s : State) (c : Code) (p : ErrCode) (d : Block) :
    (s.respond c p d).resp = some { code := c, perrv := p, rdata := d } := rfl
@[simp] theorem State.respond_readB (s : State) (c : Code) (p : ErrCode) (d : Block) (q : BReg) :
    (s.respond c p d).readB q = s.readB q := rfl
@[simp] theorem State.respond_buf (s : State) (c : Code) (p : ErrCode) (d : Block) (q : Nat) :
    (s.respond c p d).buf q = s.buf q := rfl
@[simp] theorem State.respond_wrongBlockSize (s : State) (c : Code) (p : ErrCode) (d : Block) :
    (s.respond c p d).wrongBlockSize = s.wrongBlockSize := rfl
@[simp] theorem State.respond_nextVerdict (s : State) (c : Code) (p : ErrCode) (d : Block) :
    (s.respond c p d).nextVerdict = s.nextVerdict := rfl

/-! ## endCommand -/

@[simp] theorem State.endCommand_regs (s : State) (c : Code) (p : ErrCode) :
    (s.endCommand c p).regs = s.regs := rfl
@[simp] theorem State.endCommand_csr (s : State) (c : Code) (p : ErrCode) :
    (s.endCommand c p).csr = { s.csr with status := c, perr := p } := rfl
@[simp] theorem State.endCommand_phase (s : State) (c : Code) (p : ErrCode) :
    (s.endCommand c p).phase = s.phase := rfl
@[simp] theorem State.endCommand_cursor (s : State) (c : Code) (p : ErrCode) :
    (s.endCommand c p).cursor = s.cursor := rfl
@[simp] theorem State.endCommand_outstanding (s : State) (c : Code) (p : ErrCode) :
    (s.endCommand c p).outstanding = none := rfl
@[simp] theorem State.endCommand_bufs (s : State) (c : Code) (p : ErrCode) :
    (s.endCommand c p).bufs = s.bufs := rfl
@[simp] theorem State.endCommand_provider (s : State) (c : Code) (p : ErrCode) :
    (s.endCommand c p).provider = s.provider := rfl
@[simp] theorem State.endCommand_verdicts (s : State) (c : Code) (p : ErrCode) :
    (s.endCommand c p).verdicts = s.verdicts := rfl
@[simp] theorem State.endCommand_sourceAnswers (s : State) (c : Code) (p : ErrCode) :
    (s.endCommand c p).sourceAnswers = s.sourceAnswers := rfl
@[simp] theorem State.endCommand_inputs (s : State) (c : Code) (p : ErrCode) :
    (s.endCommand c p).inputs = afterCommand s.inputs := rfl
@[simp] theorem State.endCommand_events (s : State) (c : Code) (p : ErrCode) :
    (s.endCommand c p).events = s.events := rfl
@[simp] theorem State.endCommand_resp (s : State) (c : Code) (p : ErrCode) :
    (s.endCommand c p).resp = some { code := c, perrv := p, rdata := zeroBlock } := rfl
@[simp] theorem State.endCommand_readB (s : State) (c : Code) (p : ErrCode) (q : BReg) :
    (s.endCommand c p).readB q = s.readB q := rfl
@[simp] theorem State.endCommand_buf (s : State) (c : Code) (p : ErrCode) (q : Nat) :
    (s.endCommand c p).buf q = s.buf q := rfl
@[simp] theorem State.endCommand_wrongBlockSize (s : State) (c : Code) (p : ErrCode) :
    (s.endCommand c p).wrongBlockSize = s.wrongBlockSize := rfl
@[simp] theorem State.endCommand_nextVerdict (s : State) (c : Code) (p : ErrCode) :
    (s.endCommand c p).nextVerdict = s.nextVerdict := rfl

/-! ## clearSecrets -/

@[simp] theorem State.clearSecrets_regs (s : State) :
    (s.clearSecrets).regs = Regs.zero := rfl
@[simp] theorem State.clearSecrets_csr (s : State) :
    (s.clearSecrets).csr = { s.csr with carry := false } := rfl
@[simp] theorem State.clearSecrets_phase (s : State) :
    (s.clearSecrets).phase = s.phase := rfl
@[simp] theorem State.clearSecrets_cursor (s : State) :
    (s.clearSecrets).cursor = s.cursor := rfl
@[simp] theorem State.clearSecrets_outstanding (s : State) :
    (s.clearSecrets).outstanding = s.outstanding := rfl
@[simp] theorem State.clearSecrets_bufs (s : State) :
    (s.clearSecrets).bufs = s.bufs := rfl
@[simp] theorem State.clearSecrets_provider (s : State) :
    (s.clearSecrets).provider = s.provider := rfl
@[simp] theorem State.clearSecrets_verdicts (s : State) :
    (s.clearSecrets).verdicts = s.verdicts := rfl
@[simp] theorem State.clearSecrets_sourceAnswers (s : State) :
    (s.clearSecrets).sourceAnswers = s.sourceAnswers := rfl
@[simp] theorem State.clearSecrets_inputs (s : State) :
    (s.clearSecrets).inputs = s.inputs := rfl
@[simp] theorem State.clearSecrets_events (s : State) :
    (s.clearSecrets).events = s.events := rfl
@[simp] theorem State.clearSecrets_resp (s : State) :
    (s.clearSecrets).resp = s.resp := rfl
@[simp] theorem State.clearSecrets_bundle (s : State) :
    (s.clearSecrets).bundle = s.bundle := rfl
@[simp] theorem State.clearSecrets_buf (s : State) (q : Nat) :
    (s.clearSecrets).buf q = s.buf q := rfl
@[simp] theorem State.clearSecrets_wrongBlockSize (s : State) :
    (s.clearSecrets).wrongBlockSize = s.wrongBlockSize := rfl
@[simp] theorem State.clearSecrets_nextVerdict (s : State) :
    (s.clearSecrets).nextVerdict = s.nextVerdict := rfl

/-! ## recordCall -/

@[simp] theorem State.recordCall_regs (s : State) (key : KeyHandle) (blk : Block) (iv : Option Block) (a : CipherAnswer) :
    (s.recordCall key blk iv a).regs = s.regs := rfl
@[simp] theorem State.recordCall_csr (s : State) (key : KeyHandle) (blk : Block) (iv : Option Block) (a : CipherAnswer) :
    (s.recordCall key blk iv a).csr = { s.csr with calls := s.csr.calls + 1 } := rfl
@[simp] theorem State.recordCall_phase (s : State) (key : KeyHandle) (blk : Block) (iv : Option Block) (a : CipherAnswer) :
    (s.recordCall key blk iv a).phase = s.phase := rfl
@[simp] theorem State.recordCall_cursor (s : State) (key : KeyHandle) (blk : Block) (iv : Option Block) (a : CipherAnswer) :
    (s.recordCall key blk iv a).cursor = s.cursor := rfl
@[simp] theorem State.recordCall_outstanding (s : State) (key : KeyHandle) (blk : Block) (iv : Option Block) (a : CipherAnswer) :
    (s.recordCall key blk iv a).outstanding = s.outstanding := rfl
@[simp] theorem State.recordCall_bufs (s : State) (key : KeyHandle) (blk : Block) (iv : Option Block) (a : CipherAnswer) :
    (s.recordCall key blk iv a).bufs = s.bufs := rfl
@[simp] theorem State.recordCall_provider (s : State) (key : KeyHandle) (blk : Block) (iv : Option Block) (a : CipherAnswer) :
    (s.recordCall key blk iv a).provider = s.provider := rfl
@[simp] theorem State.recordCall_verdicts (s : State) (key : KeyHandle) (blk : Block) (iv : Option Block) (a : CipherAnswer) :
    (s.recordCall key blk iv a).verdicts = s.verdicts.tail := rfl
@[simp] theorem State.recordCall_sourceAnswers (s : State) (key : KeyHandle) (blk : Block) (iv : Option Block) (a : CipherAnswer) :
    (s.recordCall key blk iv a).sourceAnswers = s.sourceAnswers := rfl
@[simp] theorem State.recordCall_inputs (s : State) (key : KeyHandle) (blk : Block) (iv : Option Block) (a : CipherAnswer) :
    (s.recordCall key blk iv a).inputs = s.inputs := rfl
@[simp] theorem State.recordCall_events (s : State) (key : KeyHandle) (blk : Block) (iv : Option Block) (a : CipherAnswer) :
    (s.recordCall key blk iv a).events = s.events ++ [.cipher key blk iv a] := rfl
@[simp] theorem State.recordCall_resp (s : State) (key : KeyHandle) (blk : Block) (iv : Option Block) (a : CipherAnswer) :
    (s.recordCall key blk iv a).resp = s.resp := rfl
@[simp] theorem State.recordCall_readB (s : State) (key : KeyHandle) (blk : Block) (iv : Option Block) (a : CipherAnswer) (q : BReg) :
    (s.recordCall key blk iv a).readB q = s.readB q := rfl
@[simp] theorem State.recordCall_bundle (s : State) (key : KeyHandle) (blk : Block) (iv : Option Block) (a : CipherAnswer) :
    (s.recordCall key blk iv a).bundle = s.bundle := rfl
@[simp] theorem State.recordCall_buf (s : State) (key : KeyHandle) (blk : Block) (iv : Option Block) (a : CipherAnswer) (q : Nat) :
    (s.recordCall key blk iv a).buf q = s.buf q := rfl
@[simp] theorem State.recordCall_wrongBlockSize (s : State) (key : KeyHandle) (blk : Block) (iv : Option Block) (a : CipherAnswer) :
    (s.recordCall key blk iv a).wrongBlockSize = s.wrongBlockSize := rfl

/-! ## awaitCipher -/

@[simp] theorem State.awaitCipher_regs (s : State) :
    (s.awaitCipher).regs = s.regs := rfl
@[simp] theorem State.awaitCipher_csr (s : State) :
    (s.awaitCipher).csr = { s.csr with calls := s.csr.calls + 1 } := rfl
@[simp] theorem State.awaitCipher_phase (s : State) :
    (s.awaitCipher).phase = s.phase := rfl
@[simp] theorem State.awaitCipher_cursor (s : State) :
    (s.awaitCipher).cursor = s.cursor := rfl
@[simp] theorem State.awaitCipher_outstanding (s : State) :
    (s.awaitCipher).outstanding = some .cipher := rfl
@[simp] theorem State.awaitCipher_bufs (s : State) :
    (s.awaitCipher).bufs = s.bufs := rfl
@[simp] theorem State.awaitCipher_provider (s : State) :
    (s.awaitCipher).provider = s.provider := rfl
@[simp] theorem State.awaitCipher_verdicts (s : State) :
    (s.awaitCipher).verdicts = s.verdicts.tail := rfl
@[simp] theorem State.awaitCipher_sourceAnswers (s : State) :
    (s.awaitCipher).sourceAnswers = s.sourceAnswers := rfl
@[simp] theorem State.awaitCipher_inputs (s : State) :
    (s.awaitCipher).inputs = s.inputs := rfl
@[simp] theorem State.awaitCipher_events (s : State) :
    (s.awaitCipher).events = s.events := rfl
@[simp] theorem State.awaitCipher_resp (s : State) :
    (s.awaitCipher).resp = s.resp := rfl
@[simp] theorem State.awaitCipher_readB (s : State) (q : BReg) :
    (s.awaitCipher).readB q = s.readB q := rfl
@[simp] theorem State.awaitCipher_bundle (s : State) :
    (s.awaitCipher).bundle = s.bundle := rfl
@[simp] theorem State.awaitCipher_buf (s : State) (q : Nat) :
    (s.awaitCipher).buf q = s.buf q := rfl
@[simp] theorem State.awaitCipher_wrongBlockSize (s : State) :
    (s.awaitCipher).wrongBlockSize = s.wrongBlockSize := rfl

/-! ## awaitSegment -/

@[simp] theorem State.awaitSegment_regs (s : State) :
    (s.awaitSegment).regs = s.regs := rfl
@[simp] theorem State.awaitSegment_csr (s : State) :
    (s.awaitSegment).csr = s.csr := rfl
@[simp] theorem State.awaitSegment_phase (s : State) :
    (s.awaitSegment).phase = s.phase := rfl
@[simp] theorem State.awaitSegment_cursor (s : State) :
    (s.awaitSegment).cursor = s.cursor := rfl
@[simp] theorem State.awaitSegment_outstanding (s : State) :
    (s.awaitSegment).outstanding = some .segment := rfl
@[simp] theorem State.awaitSegment_bufs (s : State) :
    (s.awaitSegment).bufs = s.bufs := rfl
@[simp] theorem State.awaitSegment_provider (s : State) :
    (s.awaitSegment).provider = s.provider := rfl
@[simp] theorem State.awaitSegment_verdicts (s : State) :
    (s.awaitSegment).verdicts = s.verdicts := rfl
@[simp] theorem State.awaitSegment_sourceAnswers (s : State) :
    (s.awaitSegment).sourceAnswers = s.sourceAnswers.tail := rfl
@[simp] theorem State.awaitSegment_inputs (s : State) :
    (s.awaitSegment).inputs = s.inputs := rfl
@[simp] theorem State.awaitSegment_events (s : State) :
    (s.awaitSegment).events = s.events := rfl
@[simp] theorem State.awaitSegment_resp (s : State) :
    (s.awaitSegment).resp = s.resp := rfl
@[simp] theorem State.awaitSegment_readB (s : State) (q : BReg) :
    (s.awaitSegment).readB q = s.readB q := rfl
@[simp] theorem State.awaitSegment_bundle (s : State) :
    (s.awaitSegment).bundle = s.bundle := rfl
@[simp] theorem State.awaitSegment_buf (s : State) (q : Nat) :
    (s.awaitSegment).buf q = s.buf q := rfl
@[simp] theorem State.awaitSegment_wrongBlockSize (s : State) :
    (s.awaitSegment).wrongBlockSize = s.wrongBlockSize := rfl
@[simp] theorem State.awaitSegment_nextVerdict (s : State) :
    (s.awaitSegment).nextVerdict = s.nextVerdict := rfl

/-! ## leaveWaiting -/

@[simp] theorem State.leaveWaiting_regs (s : State) :
    (s.leaveWaiting).regs = s.regs := rfl
@[simp] theorem State.leaveWaiting_csr (s : State) :
    (s.leaveWaiting).csr = s.csr := rfl
@[simp] theorem State.leaveWaiting_phase (s : State) :
    (s.leaveWaiting).phase = s.phase := rfl
@[simp] theorem State.leaveWaiting_cursor (s : State) :
    (s.leaveWaiting).cursor = s.cursor := rfl
@[simp] theorem State.leaveWaiting_outstanding (s : State) :
    (s.leaveWaiting).outstanding = s.outstanding := rfl
@[simp] theorem State.leaveWaiting_bufs (s : State) :
    (s.leaveWaiting).bufs = s.bufs := rfl
@[simp] theorem State.leaveWaiting_provider (s : State) :
    (s.leaveWaiting).provider = s.provider := rfl
@[simp] theorem State.leaveWaiting_verdicts (s : State) :
    (s.leaveWaiting).verdicts = s.verdicts := rfl
@[simp] theorem State.leaveWaiting_sourceAnswers (s : State) :
    (s.leaveWaiting).sourceAnswers = s.sourceAnswers := rfl
@[simp] theorem State.leaveWaiting_inputs (s : State) :
    (s.leaveWaiting).inputs = afterCommand s.inputs := rfl
@[simp] theorem State.leaveWaiting_events (s : State) :
    (s.leaveWaiting).events = s.events := rfl
@[simp] theorem State.leaveWaiting_resp (s : State) :
    (s.leaveWaiting).resp = none := rfl
@[simp] theorem State.leaveWaiting_readB (s : State) (q : BReg) :
    (s.leaveWaiting).readB q = s.readB q := rfl
@[simp] theorem State.leaveWaiting_buf (s : State) (q : Nat) :
    (s.leaveWaiting).buf q = s.buf q := rfl
@[simp] theorem State.leaveWaiting_wrongBlockSize (s : State) :
    (s.leaveWaiting).wrongBlockSize = s.wrongBlockSize := rfl
@[simp] theorem State.leaveWaiting_nextVerdict (s : State) :
    (s.leaveWaiting).nextVerdict = s.nextVerdict := rfl

/-! ## writeTag -/

@[simp] theorem State.writeTag_regs (s : State) (ref : Nat) (tag : Block) :
    (s.writeTag ref tag).regs = s.regs := rfl
@[simp] theorem State.writeTag_csr (s : State) (ref : Nat) (tag : Block) :
    (s.writeTag ref tag).csr = s.csr := rfl
@[simp] theorem State.writeTag_phase (s : State) (ref : Nat) (tag : Block) :
    (s.writeTag ref tag).phase = s.phase := rfl
@[simp] theorem State.writeTag_cursor (s : State) (ref : Nat) (tag : Block) :
    (s.writeTag ref tag).cursor = s.cursor := rfl
@[simp] theorem State.writeTag_outstanding (s : State) (ref : Nat) (tag : Block) :
    (s.writeTag ref tag).outstanding = s.outstanding := rfl
@[simp] theorem State.writeTag_bufs (s : State) (ref : Nat) (tag : Block) :
    (s.writeTag ref tag).bufs = putBuf s.bufs ref ((s.buf ref).withTag tag) := rfl
@[simp] theorem State.writeTag_provider (s : State) (ref : Nat) (tag : Block) :
    (s.writeTag ref tag).provider = s.provider := rfl
@[simp] theorem State.writeTag_verdicts (s : State) (ref : Nat) (tag : Block) :
    (s.writeTag ref tag).verdicts = s.verdicts := rfl
@[simp] theorem State.writeTag_sourceAnswers (s : State) (ref : Nat) (tag : Block) :
    (s.writeTag ref tag).sourceAnswers = s.sourceAnswers := rfl
@[simp] theorem State.writeTag_inputs (s : State) (ref : Nat) (tag : Block) :
    (s.writeTag ref tag).inputs = s.inputs := rfl
@[simp] theorem State.writeTag_events (s : State) (ref : Nat) (tag : Block) :
    (s.writeTag ref tag).events = s.events ++ [.memWrite ref 0 (bytesOf tag)] := rfl
@[simp] theorem State.writeTag_resp (s : State) (ref : Nat) (tag : Block) :
    (s.writeTag ref tag).resp = s.resp := rfl
@[simp] theorem State.writeTag_readB (s : State) (ref : Nat) (tag : Block) (q : BReg) :
    (s.writeTag ref tag).readB q = s.readB q := rfl
@[simp] theorem State.writeTag_bundle (s : State) (ref : Nat) (tag : Block) :
    (s.writeTag ref tag).bundle = s.bundle := rfl
@[simp] theorem State.writeTag_wrongBlockSize (s : State) (ref : Nat) (tag : Block) :
    (s.writeTag ref tag).wrongBlockSize = s.wrongBlockSize := rfl
@[simp] theorem State.writeTag_nextVerdict (s : State) (ref : Nat) (tag : Block) :
    (s.writeTag ref tag).nextVerdict = s.nextVerdict := rfl

/-! ## enterPhase -/

@[simp] theorem State.enterPhase_regs (s : State) (p : Phase) :
    (s.enterPhase p).regs = s.regs := rfl
@[simp] theorem State.enterPhase_csr (s : State) (p : Phase) :
    (s.enterPhase p).csr = s.csr := rfl
@[simp] theorem State.enterPhase_phase (s : State) (p : Phase) :
    (s.enterPhase p).phase = p := rfl
@[simp] theorem State.enterPhase_cursor (s : State) (p : Phase) :
    (s.enterPhase p).cursor = s.cursor := rfl
@[simp] theorem State.enterPhase_outstanding (s : State) (p : Phase) :
    (s.enterPhase p).outstanding = s.outstanding := rfl
@[simp] theorem State.enterPhase_bufs (s : State) (p : Phase) :
    (s.enterPhase p).bufs = s.bufs := rfl
@[simp] theorem State.enterPhase_provider (s : State) (p : Phase) :
    (s.enterPhase p).provider = s.provider := rfl
@[simp] theorem State.enterPhase_verdicts (s : State) (p : Phase) :
    (s.enterPhase p).verdicts = s.verdicts := rfl
@[simp] theorem State.enterPhase_sourceAnswers (s : State) (p : Phase) :
    (s.enterPhase p).sourceAnswers = s.sourceAnswers := rfl
@[simp] theorem State.enterPhase_inputs (s : State) (p : Phase) :
    (s.enterPhase p).inputs = s.inputs := rfl
@[simp] theorem State.enterPhase_events (s : State) (p : Phase) :
    (s.enterPhase p).events = s.events := rfl
@[simp] theorem State.enterPhase_resp (s : State) (p : Phase) :
    (s.enterPhase p).resp = s.resp := rfl
@[simp] theorem State.enterPhase_readB (s : State) (p : Phase) (q : BReg) :
    (s.enterPhase p).readB q = s.readB q := rfl
@[simp] theorem State.enterPhase_bundle (s : State) (p : Phase) :
    (s.enterPhase p).bundle = s.bundle := rfl
@[simp] theorem State.enterPhase_buf (s : State) (p : Phase) (q : Nat) :
    (s.enterPhase p).buf q = s.buf q := rfl
@[simp] theorem State.enterPhase_wrongBlockSize (s : State) (p : Phase) :
    (s.enterPhase p).wrongBlockSize = s.wrongBlockSize := rfl
@[simp] theorem State.enterPhase_nextVerdict (s : State) (p : Phase) :
    (s.enterPhase p).nextVerdict = s.nextVerdict := rfl

/-! ## setSubkeys -/

@[simp] theorem State.setSubkeys_regs (s : State) (mac : Block) :
    (s.setSubkeys mac).regs = { s.regs with l := xorBlock mac zeroBlock, k1 := doubleBlock (xorBlock mac zeroBlock), k2 := doubleBlock (doubleBlock (xorBlock mac zeroBlock)) } := rfl
@[simp] theorem State.setSubkeys_csr (s : State) (mac : Block) :
    (s.setSubkeys mac).csr = { s.csr with carry := msbOf (doubleBlock (xorBlock mac zeroBlock)) } := rfl
@[simp] theorem State.setSubkeys_phase (s : State) (mac : Block) :
    (s.setSubkeys mac).phase = s.phase := rfl
@[simp] theorem State.setSubkeys_cursor (s : State) (mac : Block) :
    (s.setSubkeys mac).cursor = s.cursor := rfl
@[simp] theorem State.setSubkeys_outstanding (s : State) (mac : Block) :
    (s.setSubkeys mac).outstanding = s.outstanding := rfl
@[simp] theorem State.setSubkeys_bufs (s : State) (mac : Block) :
    (s.setSubkeys mac).bufs = s.bufs := rfl
@[simp] theorem State.setSubkeys_provider (s : State) (mac : Block) :
    (s.setSubkeys mac).provider = s.provider := rfl
@[simp] theorem State.setSubkeys_verdicts (s : State) (mac : Block) :
    (s.setSubkeys mac).verdicts = s.verdicts := rfl
@[simp] theorem State.setSubkeys_sourceAnswers (s : State) (mac : Block) :
    (s.setSubkeys mac).sourceAnswers = s.sourceAnswers := rfl
@[simp] theorem State.setSubkeys_inputs (s : State) (mac : Block) :
    (s.setSubkeys mac).inputs = s.inputs := rfl
@[simp] theorem State.setSubkeys_events (s : State) (mac : Block) :
    (s.setSubkeys mac).events = s.events := rfl
@[simp] theorem State.setSubkeys_resp (s : State) (mac : Block) :
    (s.setSubkeys mac).resp = s.resp := rfl
@[simp] theorem State.setSubkeys_bundle (s : State) (mac : Block) :
    (s.setSubkeys mac).bundle = s.bundle := rfl
@[simp] theorem State.setSubkeys_buf (s : State) (mac : Block) (q : Nat) :
    (s.setSubkeys mac).buf q = s.buf q := rfl
@[simp] theorem State.setSubkeys_wrongBlockSize (s : State) (mac : Block) :
    (s.setSubkeys mac).wrongBlockSize = s.wrongBlockSize := rfl
@[simp] theorem State.setSubkeys_nextVerdict (s : State) (mac : Block) :
    (s.setSubkeys mac).nextVerdict = s.nextVerdict := rfl

/-! ## applyReset -/

@[simp] theorem State.applyReset_regs (s : State) :
    (s.applyReset).regs = Regs.zero := rfl
@[simp] theorem State.applyReset_csr (s : State) :
    (s.applyReset).csr = Csrs.zero := rfl
@[simp] theorem State.applyReset_phase (s : State) :
    (s.applyReset).phase = .idle := rfl
@[simp] theorem State.applyReset_cursor (s : State) :
    (s.applyReset).cursor = none := rfl
@[simp] theorem State.applyReset_outstanding (s : State) :
    (s.applyReset).outstanding = none := rfl
@[simp] theorem State.applyReset_bufs (s : State) :
    (s.applyReset).bufs = s.bufs := rfl
@[simp] theorem State.applyReset_provider (s : State) :
    (s.applyReset).provider = s.provider := rfl
@[simp] theorem State.applyReset_verdicts (s : State) :
    (s.applyReset).verdicts = s.verdicts := rfl
@[simp] theorem State.applyReset_sourceAnswers (s : State) :
    (s.applyReset).sourceAnswers = s.sourceAnswers := rfl
@[simp] theorem State.applyReset_inputs (s : State) :
    (s.applyReset).inputs = s.inputs := rfl
@[simp] theorem State.applyReset_events (s : State) :
    (s.applyReset).events = [] := rfl
@[simp] theorem State.applyReset_resp (s : State) :
    (s.applyReset).resp = none := rfl
@[simp] theorem State.applyReset_bundle (s : State) :
    (s.applyReset).bundle = s.bundle := rfl
@[simp] theorem State.applyReset_buf (s : State) (q : Nat) :
    (s.applyReset).buf q = s.buf q := rfl
@[simp] theorem State.applyReset_wrongBlockSize (s : State) :
    (s.applyReset).wrongBlockSize = s.wrongBlockSize := rfl
@[simp] theorem State.applyReset_nextVerdict (s : State) :
    (s.applyReset).nextVerdict = s.nextVerdict := rfl

/-! ## Reading block registers -/

/-- `B[0]` reads zero in every state (R22). -/
@[simp] theorem State.readB_z (s : State) : s.readB .z = zeroBlock := rfl

/-- What a register reads after a write: the value where it was written, unless that is `B[0]` (R22). -/
@[simp] theorem State.readB_writeB (s : State) (r q : BReg) (v : Block) :
    (s.writeB r v).readB q = if q = r ∧ r ≠ .z then v else s.readB q := by
  cases r <;> cases q <;> rfl

/-- A write to `B[0]` changes nothing (R22). -/
@[simp] theorem State.writeB_z (s : State) (v : Block) : s.writeB .z v = s := rfl

/-- Cleared registers read zero. -/
theorem State.readB_of_regs_zero {s : State} (h : s.regs = Regs.zero) (q : BReg) : s.readB q = zeroBlock := by
  cases q <;> simp [State.readB, h, Regs.zero]

@[simp] theorem State.readB_clearSecrets (s : State) (q : BReg) : s.clearSecrets.readB q = zeroBlock :=
  State.readB_of_regs_zero rfl q

@[simp] theorem State.readB_setSubkeys (s : State) (mac : Block) (q : BReg) :
    (s.setSubkeys mac).readB q =
      if q = .l then xorBlock mac zeroBlock
      else if q = .k1 then doubleBlock (xorBlock mac zeroBlock)
      else if q = .k2 then doubleBlock (doubleBlock (xorBlock mac zeroBlock))
      else s.readB q := by
  cases q <;> rfl

/-! ## CBCM's writes -/

@[simp] theorem State.readB_writeChained (s : State) (bd : BReg) (c : Bool) (mac : Block) (q : BReg) :
    (s.writeChained bd c mac).readB q =
      if (q = bd ∧ bd ≠ .z) ∨ (c = true ∧ q = .cv) then mac else s.readB q := by
  cases c <;> cases bd <;> cases q <;> rfl

@[simp] theorem State.writeChained_csr (s : State) (bd : BReg) (c : Bool) (mac : Block) :
    (s.writeChained bd c mac).csr = s.csr := by
  cases c <;> rfl
@[simp] theorem State.writeChained_phase (s : State) (bd : BReg) (c : Bool) (mac : Block) :
    (s.writeChained bd c mac).phase = s.phase := by
  cases c <;> rfl
@[simp] theorem State.writeChained_cursor (s : State) (bd : BReg) (c : Bool) (mac : Block) :
    (s.writeChained bd c mac).cursor = s.cursor := by
  cases c <;> rfl
@[simp] theorem State.writeChained_outstanding (s : State) (bd : BReg) (c : Bool) (mac : Block) :
    (s.writeChained bd c mac).outstanding = s.outstanding := by
  cases c <;> rfl
@[simp] theorem State.writeChained_bufs (s : State) (bd : BReg) (c : Bool) (mac : Block) :
    (s.writeChained bd c mac).bufs = s.bufs := by
  cases c <;> rfl
@[simp] theorem State.writeChained_provider (s : State) (bd : BReg) (c : Bool) (mac : Block) :
    (s.writeChained bd c mac).provider = s.provider := by
  cases c <;> rfl
@[simp] theorem State.writeChained_verdicts (s : State) (bd : BReg) (c : Bool) (mac : Block) :
    (s.writeChained bd c mac).verdicts = s.verdicts := by
  cases c <;> rfl
@[simp] theorem State.writeChained_sourceAnswers (s : State) (bd : BReg) (c : Bool) (mac : Block) :
    (s.writeChained bd c mac).sourceAnswers = s.sourceAnswers := by
  cases c <;> rfl
@[simp] theorem State.writeChained_inputs (s : State) (bd : BReg) (c : Bool) (mac : Block) :
    (s.writeChained bd c mac).inputs = s.inputs := by
  cases c <;> rfl
@[simp] theorem State.writeChained_events (s : State) (bd : BReg) (c : Bool) (mac : Block) :
    (s.writeChained bd c mac).events = s.events := by
  cases c <;> rfl
@[simp] theorem State.writeChained_resp (s : State) (bd : BReg) (c : Bool) (mac : Block) :
    (s.writeChained bd c mac).resp = s.resp := by
  cases c <;> rfl

/-! ## Buffers by reference -/

@[simp] theorem findBuf_putBuf (bs : List (Nat × OutBuf)) (ref q : Nat) (b : OutBuf) :
    findBuf (putBuf bs ref b) q = if q = ref then b else findBuf bs q := by
  induction bs with
  | nil => by_cases h : ref = q <;> simp [findBuf, putBuf, h, eq_comm]
  | cons p rest ih =>
    obtain ⟨k, c⟩ := p
    by_cases hk : k = ref
    · subst hk
      by_cases hq : q = k
      · simp [findBuf, putBuf, hq]
      · simp [findBuf, putBuf, hq, Ne.symm hq]
    · by_cases hq : k = q
      · subst hq
        simp [findBuf, putBuf, hk]
      · simp [findBuf, putBuf, hk, hq, ih]

@[simp] theorem State.writeTag_buf (s : State) (ref q : Nat) (tag : Block) :
    (s.writeTag ref tag).buf q = if q = ref then (s.buf ref).withTag tag else s.buf q := by
  simp [State.buf]

@[simp] theorem OutBuf.withTag_cap (b : OutBuf) (tag : Block) : (b.withTag tag).cap = b.cap := rfl
@[simp] theorem OutBuf.withTag_len (b : OutBuf) (tag : Block) : (b.withTag tag).len = 16 := rfl
@[simp] theorem OutBuf.withTag_bytes (b : OutBuf) (tag : Block) :
    (b.withTag tag).bytes = b.bytes.writeBytes 0 (bytesOf tag) := rfl

end Sys2Proof.Machine
end

