-- ==== Sys2Proof/Laws/Blocks.lean ====
section
/-! SUPPORT. What the bytes of a block are: one spec lemma for `blockOf` (R13, R51) and for `bytesOf`. -/

namespace Sys2Proof.Machine

theorem bytesValue_lt (n : Nat) (bs : List Byte) : bytesValue n bs < 256 ^ n := by
  induction n generalizing bs with
  | zero => simp [bytesValue]
  | succ n ih =>
    cases bs with
    | nil => simp [bytesValue]
    | cons b bs =>
      have hb : b.toNat ≤ 255 := by have := b.isLt; omega
      have h : b.toNat * 256 ^ n ≤ 255 * 256 ^ n := Nat.mul_le_mul_right _ hb
      have := ih bs
      simp only [bytesValue, pow_succ]
      omega

/-- The digit of `bytesValue n bs` that stands for byte `i`. -/
theorem bytesValue_digit (n : Nat) (bs : List Byte) (i : Nat) (hi : i < n) :
    bytesValue n bs / 256 ^ (n - 1 - i) % 256 = (bs.getD i 0).toNat := by
  induction n generalizing bs i with
  | zero => omega
  | succ n ih =>
    cases bs with
    | nil => simp [bytesValue]
    | cons b bs =>
      cases i with
      | zero =>
        have hb := b.isLt
        rw [bytesValue, Nat.add_sub_cancel, Nat.sub_zero, Nat.add_comm,
          Nat.add_mul_div_right _ _ (by positivity), Nat.div_eq_of_lt (bytesValue_lt n bs)]
        simp only [Nat.zero_add, List.getD_cons_zero]
        omega
      | succ i =>
        have hi' : i < n := by omega
        obtain ⟨d, hd⟩ : ∃ d, n = (n - 1 - i) + (d + 1) := ⟨i, by omega⟩
        have hsplit : b.toNat * 256 ^ n = 256 ^ (n - 1 - i) * (256 * (b.toNat * 256 ^ d)) := by
          conv_lhs => rw [hd]
          rw [pow_add, pow_succ]
          ring
        rw [bytesValue, show n + 1 - 1 - (i + 1) = n - 1 - i by omega, hsplit,
          Nat.mul_add_div (by positivity), Nat.mul_add_mod, ih bs i hi']
        simp

/-- `blockOf bs` holds `bs` from byte 0 on and 00 after it. -/
@[simp] theorem byteOf_blockOf (bs : List Byte) (i : Nat) (hi : i < 16) : byteOf (blockOf bs) i = bs.getD i 0 := by
  have hlt : bytesValue 16 bs < 2 ^ 128 := by simpa using bytesValue_lt 16 bs
  apply BitVec.eq_of_toNat_eq
  rw [byteOf, BitVec.extractLsb'_toNat, blockOf, BitVec.toNat_ofNat, Nat.mod_eq_of_lt hlt, ← bytesValue_digit 16 bs i hi,
    Nat.shiftRight_eq_div_pow, show 120 - 8 * i = 8 * (16 - 1 - i) by omega, pow_mul, show 2 ^ 8 = 256 by rfl]

@[simp] theorem bytesOf_length (x : Block) : (bytesOf x).length = 16 := by simp [bytesOf]

theorem bytesOf_getD (x : Block) (i : Nat) (hi : i < 16) (d : Byte) : (bytesOf x).getD i d = byteOf x i := by
  simp [bytesOf, List.getD, hi]

/-- A block is its bytes. -/
theorem block_ext {x y : Block} (h : ∀ i < 16, byteOf x i = byteOf y i) : x = y := by
  apply BitVec.eq_of_getLsbD_eq
  intro j hj
  have h' := congrArg (fun b => BitVec.getLsbD b (j % 8)) (h (15 - j / 8) (by omega))
  simp only [byteOf, BitVec.getLsbD_extractLsb', show 120 - 8 * (15 - j / 8) + j % 8 = j by omega,
    show j % 8 < 8 by omega, decide_true, Bool.true_and] at h'
  exact h'

/-- Taking a block apart and putting it together gives it back. -/
@[simp] theorem blockOf_bytesOf (x : Block) : blockOf (bytesOf x) = x :=
  block_ext fun i hi => by rw [byteOf_blockOf _ _ hi, bytesOf_getD _ _ hi]

@[simp] theorem xorBlock_zero (a : Block) : xorBlock a zeroBlock = a := by simp [xorBlock, zeroBlock]

end Sys2Proof.Machine
end

