-- ==== Sys2Proof/Laws/Codec.lean ====
section
/-! SUPPORT. The parts of the decoder, one spec lemma each: a register field, a field that must be zero, an opcode, a word as
its fields, and stored bytes as a word (R81, R84 to R87, R52). -/

namespace Sys2Proof

theorem except_bind_ok {α β : Type} (x : Except DecodeError α) (f : α → Except DecodeError β) (b : β) :
    (x >>= f) = .ok b ↔ ∃ a, x = .ok a ∧ f a = .ok b := by
  cases x <;> simp [bind, Except.bind]

theorem readReg_ok_iff (f : Field) (b : BitVec 4) (r : BReg) : readReg f b = .ok r ↔ regField r = b := by
  unfold readReg
  by_cases h : BitVec.extractLsb' 3 1 b = 0
  · rw [if_pos h, Except.ok.injEq]
    revert b
    cases r <;> decide
  · rw [if_neg h]
    simp only [reduceCtorEq, false_iff]
    revert b
    cases r <;> decide

theorem mustBeZero_ok_iff {n : Nat} (f : Field) (b : BitVec n) (u : Unit) : mustBeZero f b = .ok u ↔ b = 0 := by
  unfold mustBeZero
  by_cases h : b = 0
  · simp [h]
  · rw [if_neg h]
    simpa using h

theorem opcodeOf_eq_some_iff (b : BitVec 8) (o : Opcode) : opcodeOf b = some o ↔ opcodeByte o = b := by
  constructor
  · intro h
    unfold opcodeOf at h
    repeat' split at h
    all_goals cases h
    all_goals exact Eq.symm (by assumption)
  · rintro rfl
    cases o <;> rfl

/-- A row's fields give the row's command. -/
theorem decodeFields_opcode {o : Opcode} {w : Word} {i : Instr} (h : decodeFields o w = .ok i) : i.opcode = o := by
  cases o <;> simp only [decodeFields, except_bind_ok, pure, Except.pure, Except.ok.injEq] at h
  all_goals
    repeat' obtain ⟨_, _, h⟩ := h
    rfl

theorem decode_ok_iff (w : Word) (i : Instr) :
    decode w = .ok i ↔ opcodeByte i.opcode = opcField w ∧ decodeFields i.opcode w = .ok i := by
  unfold decode
  cases h : opcodeOf (opcField w) with
  | none =>
    refine ⟨fun hd => by simp at hd, fun ⟨hb, _⟩ => ?_⟩
    rw [← opcodeOf_eq_some_iff, h] at hb
    simp at hb
  | some o =>
    constructor
    · intro hd
      rw [decodeFields_opcode hd]
      exact ⟨(opcodeOf_eq_some_iff _ _).mp h, hd⟩
    · rintro ⟨hb, hd⟩
      have ho := (opcodeOf_eq_some_iff _ _).mpr hb
      rw [h, Option.some.injEq] at ho
      rw [ho]
      exact hd

theorem toNat_append_eq {n m : Nat} (x : BitVec n) (y : BitVec m) : (x ++ y).toNat = x.toNat * 2 ^ m + y.toNat := by
  rw [BitVec.toNat_append, ← Nat.shiftLeft_add_eq_or_of_lt y.isLt, Nat.shiftLeft_eq]

/-- A word is its fields in the order of R81. -/
theorem fields_append (w : Word) :
    opcField w ++ bdField w ++ baField w ++ bbField w ++ imm4Field w ++ rsvField w ++ cField w = w := by
  apply BitVec.eq_of_toNat_eq
  have hsum : (opcField w ++ bdField w ++ baField w ++ bbField w ++ imm4Field w ++ rsvField w ++ cField w).toNat =
      ((((((opcField w).toNat * 2 ^ 4 + (bdField w).toNat) * 2 ^ 4 + (baField w).toNat) * 2 ^ 4 + (bbField w).toNat) * 2 ^ 4 +
        (imm4Field w).toNat) * 2 ^ 7 + (rsvField w).toNat) * 2 ^ 1 + (cField w).toNat := by
    simp only [toNat_append_eq]
  refine hsum.trans ?_
  simp only [opcField, bdField, baField, bbField, imm4Field, rsvField, cField, BitVec.extractLsb'_toNat,
    Nat.shiftRight_eq_div_pow]
  have := w.isLt
  omega

/-- A word is its stored bytes, the opcode first (R52). -/
theorem wordOfBytes_bytes (w : Word) :
    wordOfBytes (w.extractLsb' 24 8) (w.extractLsb' 16 8) (w.extractLsb' 8 8) (w.extractLsb' 0 8) = w := by
  apply BitVec.eq_of_toNat_eq
  have hsum : (wordOfBytes (w.extractLsb' 24 8) (w.extractLsb' 16 8) (w.extractLsb' 8 8) (w.extractLsb' 0 8)).toNat =
      (((w.extractLsb' 24 8).toNat * 2 ^ 8 + (w.extractLsb' 16 8).toNat) * 2 ^ 8 + (w.extractLsb' 8 8).toNat) * 2 ^ 8 +
        (w.extractLsb' 0 8).toNat := by
    unfold wordOfBytes
    simp only [toNat_append_eq]
  refine hsum.trans ?_
  simp only [BitVec.extractLsb'_toNat, Nat.shiftRight_eq_div_pow]
  have := w.isLt
  omega

end Sys2Proof
end

