-- ==== Sys2Proof/Laws/Memory.lean ====
section
/-! SUPPORT. The memory of a buffer: every write keeps the canonical form and the bound of the buffer, and what a byte reads
after it. -/

namespace Sys2Proof.Machine

/-- An offset below every listed one is unlisted. -/
theorem Memory.read_of_lt {mem : Memory} {a : Nat} (h : ∀ c ∈ mem, a < c.1) : mem.read a = Config.unwrittenByte := by
  induction mem with
  | nil => rfl
  | cons c rest ih =>
    have hc := h c (by simp)
    rw [Memory.read, if_neg (by omega)]
    exact ih fun d hd => h d (by simp [hd])

/-- The offsets a write can leave listed. -/
theorem Memory.mem_write {mem : Memory} {a : Nat} {b : Byte} {c : Host.Cell} (h : c ∈ mem.write a b) :
    c ∈ mem ∨ (c = (a, b) ∧ b ≠ Config.unwrittenByte) := by
  induction mem with
  | nil =>
    rw [Memory.write] at h
    split at h <;> simp_all
  | cons d rest ih =>
    obtain ⟨k, v⟩ := d
    rw [Memory.write] at h
    split at h
    · split at h <;> simp only [List.mem_cons] at h ⊢ <;> tauto
    · split at h
      · split at h <;> simp only [List.mem_cons] at h ⊢ <;> tauto
      · rcases List.mem_cons.mp h with rfl | h
        · exact .inl (by simp)
        · rcases ih h with h | h
          · exact .inl (by simp [h])
          · exact .inr h

/-- A write keeps the canonical form. -/
theorem Memory.wf_write {mem : Memory} (h : mem.wf) (a : Nat) (b : Byte) : (mem.write a b).wf := by
  constructor
  · have hs := h.1
    clear h
    induction mem with
    | nil => rw [Memory.write]; split <;> simp
    | cons d rest ih =>
      obtain ⟨k, v⟩ := d
      have hr := List.pairwise_cons.mp hs
      rw [Memory.write]
      split
      · rename_i hak
        split
        · exact hs
        · refine List.pairwise_cons.mpr ⟨fun c hc => ?_, hs⟩
          rcases List.mem_cons.mp hc with rfl | hc
          · exact hak
          · exact Nat.lt_trans hak (hr.1 c hc)
      · split
        · rename_i hak
          subst hak
          split
          · exact hr.2
          · exact List.pairwise_cons.mpr hr
        · refine List.pairwise_cons.mpr ⟨fun c hc => ?_, ih hr.2⟩
          rcases Memory.mem_write hc with hc | ⟨rfl, -⟩
          · exact hr.1 c hc
          · show k < a
            omega
  · intro c hc
    rcases Memory.mem_write hc with hc | ⟨rfl, hb⟩
    · exact h.2 c hc
    · exact hb

/-- What a byte reads after a write. -/
theorem Memory.read_write {mem : Memory} (h : mem.wf) (a q : Nat) (b : Byte) :
    (mem.write a b).read q = if q = a then b else mem.read q := by
  have hs := h.1
  clear h
  induction mem with
  | nil =>
    rw [Memory.write]
    split <;> simp_all [Memory.read, eq_comm]
  | cons d rest ih =>
    obtain ⟨k, v⟩ := d
    have hr := List.pairwise_cons.mp hs
    rw [Memory.write]
    split
    · rename_i hak
      have hlow : Memory.read ((k, v) :: rest) a = Config.unwrittenByte := Memory.read_of_lt fun c hc => by
        rcases List.mem_cons.mp hc with rfl | hc
        · exact hak
        · exact Nat.lt_trans hak (hr.1 c hc)
      split
      · rename_i hb
        by_cases hq : q = a
        · subst hq; simp [hlow, hb]
        · simp [hq]
      · rw [Memory.read]
        by_cases hq : q = a
        · simp [hq]
        · simp [hq, Ne.symm hq]
    · split
      · rename_i hak
        subst hak
        have hlow : Memory.read rest a = Config.unwrittenByte := Memory.read_of_lt hr.1
        split
        · rename_i hb
          by_cases hq : q = a
          · subst hq; simp [hlow, hb]
          · simp [Memory.read, hq, Ne.symm hq]
        · by_cases hq : q = a
          · simp [Memory.read, hq]
          · simp [Memory.read, hq, Ne.symm hq]
      · by_cases hk : k = q
        · subst hk
          have : ¬ k = a := by omega
          simp [Memory.read, this]
        · simp [Memory.read, hk, ih hr.2]

theorem Memory.wf_writeBytes {mem : Memory} (h : mem.wf) (a : Nat) (bs : List Byte) : (mem.writeBytes a bs).wf := by
  induction bs generalizing mem a with
  | nil => exact h
  | cons b bs ih => exact ih (Memory.wf_write h a b) (a + 1)

theorem Memory.mem_writeBytes {mem : Memory} {a : Nat} {bs : List Byte} {c : Host.Cell} (h : c ∈ mem.writeBytes a bs) :
    c ∈ mem ∨ (a ≤ c.1 ∧ c.1 < a + bs.length) := by
  induction bs generalizing mem a with
  | nil => exact .inl h
  | cons b bs ih =>
    rcases ih h with h | h
    · rcases Memory.mem_write h with h | ⟨rfl, -⟩
      · exact .inl h
      · exact .inr (by simp)
    · exact .inr (by simp only [List.length_cons]; omega)

/-- What a byte reads after bytes were written from offset `a` upward. -/
theorem Memory.read_writeBytes {mem : Memory} (h : mem.wf) (a q : Nat) (bs : List Byte) :
    (mem.writeBytes a bs).read q = if a ≤ q ∧ q < a + bs.length then bs.getD (q - a) 0 else mem.read q := by
  induction bs generalizing mem a with
  | nil => simp [Memory.writeBytes]
  | cons b bs ih =>
    rw [Memory.writeBytes, ih (Memory.wf_write h a b), Memory.read_write h]
    by_cases hq : q = a
    · subst hq; simp
    · by_cases hin : a + 1 ≤ q ∧ q < a + 1 + bs.length
      · have hsub : q - a = (q - (a + 1)) + 1 := by omega
        rw [if_pos hin, if_pos (by simp only [List.length_cons]; omega), hsub, List.getD_cons_succ]
      · rw [if_neg hin, if_neg hq, if_neg (by simp only [List.length_cons]; omega)]

/-- The tag write keeps a buffer canonical and within its capacity: it is made only where 16 bytes are there (R61). -/
theorem OutBuf.wf_withTag {b : OutBuf} (h : b.wf) (hcap : 16 ≤ b.cap.toNat) (tag : Block) : (b.withTag tag).wf := by
  refine ⟨Memory.wf_writeBytes h.1 0 _, fun c hc => ?_⟩
  rw [OutBuf.withTag_bytes] at hc
  rw [OutBuf.withTag_cap]
  rcases Memory.mem_writeBytes hc with hc | hc
  · exact h.2 c hc
  · rw [bytesOf_length] at hc
    exact Nat.lt_of_lt_of_le hc.2 hcap

/-- What a buffer reads after the tag write (R61): the tag in bytes 0 to 15, every other byte as before. -/
theorem OutBuf.read_withTag {b : OutBuf} (h : b.wf) (tag : Block) (a : Nat) :
    (b.withTag tag).bytes.read a = if a < 16 then byteOf tag a else b.bytes.read a := by
  rw [OutBuf.withTag_bytes, Memory.read_writeBytes h.1, bytesOf_length]
  by_cases ha : a < 16
  · rw [if_pos (by omega), if_pos ha, Nat.sub_zero, bytesOf_getD _ _ ha]
  · rw [if_neg (by omega), if_neg ha]

/-- Replacing a buffer keeps the list of buffers well-formed. -/
theorem mem_putBuf {bs : List (Nat × OutBuf)} {ref : Nat} {b : OutBuf} {p : Nat × OutBuf} (h : p ∈ putBuf bs ref b) :
    p ∈ bs ∨ p = (ref, b) := by
  induction bs with
  | nil => simpa [putBuf] using h
  | cons q rest ih =>
    obtain ⟨k, c⟩ := q
    rw [putBuf] at h
    split at h
    · rename_i hk
      subst hk
      rcases List.mem_cons.mp h with h | h
      · exact .inr h
      · exact .inl (by simp [h])
    · rcases List.mem_cons.mp h with h | h
      · exact .inl (by simp [h])
      · rcases ih h with h | h
        · exact .inl (by simp [h])
        · exact .inr h

theorem keys_putBuf (bs : List (Nat × OutBuf)) (ref : Nat) (b : OutBuf) :
    (putBuf bs ref b).map (·.1) = if ref ∈ bs.map (·.1) then bs.map (·.1) else bs.map (·.1) ++ [ref] := by
  induction bs with
  | nil => simp [putBuf]
  | cons q rest ih =>
    obtain ⟨k, c⟩ := q
    rw [putBuf]
    by_cases hk : k = ref
    · simp [hk]
    · rw [if_neg hk, List.map_cons, ih]
      by_cases hm : ref ∈ rest.map (·.1)
      · simp [hm]
      · simp [hm, Ne.symm hk]

theorem findBuf_wf {bs : List (Nat × OutBuf)} (h : ∀ p ∈ bs, p.2.wf) (ref : Nat) : (findBuf bs ref).wf := by
  induction bs with
  | nil => simp [findBuf, OutBuf.wf, Memory.wf]
  | cons q rest ih =>
    obtain ⟨k, c⟩ := q
    rw [findBuf]
    split
    · exact h (k, c) (by simp)
    · exact ih fun p hp => h p (by simp [hp])

theorem State.BuffersWf.buf {s : State} (h : s.BuffersWf) (ref : Nat) : (s.buf ref).wf := findBuf_wf h.each ref

/-- Putting a well-formed buffer in its place keeps the buffers well-formed. -/
theorem State.BuffersWf.put {s t : State} (h : s.BuffersWf) {ref : Nat} {b : OutBuf} (hb : b.wf)
    (ht : t.bufs = putBuf s.bufs ref b) : t.BuffersWf := by
  refine ⟨fun p hp => ?_, ?_⟩
  · rw [ht] at hp
    rcases mem_putBuf hp with hp | rfl
    · exact h.each p hp
    · exact hb
  · rw [ht, keys_putBuf]
    split
    · exact h.once
    · rename_i hm
      exact List.Nodup.append h.once (by simp) (by simpa using hm)

end Sys2Proof.Machine
end

