-- ==== Sys2Proof/Laws/Ports.lean ====
section
/-! SUPPORT. What a port transaction can do, once for each: `cipherCall` (R58 to R60), `segDesc` (R55), `segPull` (R56), and the
relation `Advanced` that every stretch of a command keeps. -/

namespace Sys2Proof.Machine

/-! ## The cipher port -/

theorem cipherCall_answers {s : State} (h : s.nextVerdict = .answers) (key : KeyHandle) (blk : Block) (iv : Option Block) :
    cipherCall key blk iv s =
      .answered (.ok (s.provider.cbcMac key blk iv)) (s.recordCall key blk iv (.ok (s.provider.cbcMac key blk iv))) := by
  rw [cipherCall, h]

theorem cipherCall_fails {s : State} {code : ErrCode} (h : s.nextVerdict = .fails code) (key : KeyHandle) (blk : Block)
    (iv : Option Block) : cipherCall key blk iv s = .answered (.err code) (s.recordCall key blk iv (.err code)) := by
  rw [cipherCall, h]

theorem cipherCall_silent {s : State} (h : s.nextVerdict = .silent) (key : KeyHandle) (blk : Block) (iv : Option Block) :
    cipherCall key blk iv s = .noAnswer s.awaitCipher := by
  rw [cipherCall, h]

/-- All that a call on the cipher port can do. -/
theorem cipherCall_cases (key : KeyHandle) (blk : Block) (iv : Option Block) (s : State) :
    (s.nextVerdict = .answers ∧ cipherCall key blk iv s =
      .answered (.ok (s.provider.cbcMac key blk iv)) (s.recordCall key blk iv (.ok (s.provider.cbcMac key blk iv)))) ∨
    (∃ code, s.nextVerdict = .fails code ∧
      cipherCall key blk iv s = .answered (.err code) (s.recordCall key blk iv (.err code))) ∨
    (s.nextVerdict = .silent ∧ cipherCall key blk iv s = .noAnswer s.awaitCipher) := by
  cases h : s.nextVerdict with
  | answers => exact .inl ⟨rfl, cipherCall_answers h key blk iv⟩
  | fails code => exact .inr (.inl ⟨code, rfl, cipherCall_fails h key blk iv⟩)
  | silent => exact .inr (.inr ⟨rfl, cipherCall_silent h key blk iv⟩)

/-- An IV of zeros and no IV give the same answer (R59). -/
@[simp] theorem Provider.cbcMac_zero_iv (p : Provider) (key : KeyHandle) (blk : Block) :
    p.cbcMac key blk (some zeroBlock) = p.cbcMac key blk none := by
  simp [Provider.cbcMac]

theorem State.callsAnswer_next {s : State} {k : Nat} (h : s.callsAnswer (k + 1)) : s.nextVerdict = .answers := by
  unfold State.nextVerdict
  unfold State.callsAnswer at h
  cases hv : s.verdicts with
  | nil => rfl
  | cons v rest => exact h v (by simp [hv])

theorem State.callsAnswer_tail {s t : State} {k : Nat} (h : s.callsAnswer (k + 1)) (ht : t.verdicts = s.verdicts.tail) :
    t.callsAnswer k := by
  unfold State.callsAnswer at h ⊢
  intro v hv
  rw [ht] at hv
  cases hs : s.verdicts with
  | nil => simp [hs] at hv
  | cons w rest =>
    rw [hs] at hv
    exact h v (by simp only [hs, List.take_succ_cons, List.mem_cons]; exact .inr hv)

theorem State.callsAnswer_of_verdicts {s t : State} {k : Nat} (h : s.callsAnswer k) (ht : t.verdicts = s.verdicts) :
    t.callsAnswer k := by
  unfold State.callsAnswer at h ⊢
  rw [ht]
  exact h

/-! ## The segment port -/

/-- All that spending one transaction of the segment source can do. -/
theorem State.spendAnswer_cases (s : State) :
    (s.sourceAnswers.head? = some 0 ∧ s.spendAnswer = none) ∨
    (s.sourceAnswers.head? ≠ some 0 ∧ s.spendAnswer = some { s with sourceAnswers := s.sourceAnswers.modifyHead (· - 1) }) := by
  rcases h : s.sourceAnswers with _ | ⟨_ | k, later⟩
  · refine .inr ⟨by simp, ?_⟩
    rw [State.spendAnswer, h]
    simp only [List.modifyHead_nil, Option.some.injEq]
    rw [← h]
  · exact .inl ⟨rfl, by rw [State.spendAnswer, h]⟩
  · exact .inr ⟨by simp, by rw [State.spendAnswer, h]; simp⟩

/-- A descriptor that was read: recorded, one transaction of the source spent. -/
def State.afterDesc (s : State) (i : Nat) (g : Segment) : State :=
  { s with
    sourceAnswers := s.sourceAnswers.modifyHead (· - 1)
    events := s.events ++ [.segDesc i g.sign g.len] }

theorem segDesc_cases (i : Nat) (g : Segment) (s : State) :
    (s.sourceAnswers.head? = some 0 ∧ segDesc i g s = .noAnswer s.awaitSegment) ∨
    (s.sourceAnswers.head? ≠ some 0 ∧ segDesc i g s = .answered (g.sign, g.len) (s.afterDesc i g)) := by
  rcases s.spendAnswer_cases with ⟨h, hs⟩ | ⟨h, hs⟩
  · exact .inl ⟨h, by rw [segDesc, hs]⟩
  · exact .inr ⟨h, by rw [segDesc, hs]; rfl⟩

/-- The stream, and the chunk the next pull answers (R54, R56). -/
def State.stream (s : State) : List Byte := signedStream s.bundle.segl
def State.nextChunk (s : State) : List Byte := chunkAt s.stream (s.cursor.getD 0)

/-- A pull that was answered: the cursor moved on, `IDX` counted, recorded, one transaction of the source spent. -/
def State.afterPull (s : State) : State :=
  { s with
    sourceAnswers := s.sourceAnswers.modifyHead (· - 1)
    cursor := some (min (s.cursor.getD 0 + 16) s.stream.length)
    csr := { s.csr with idx := s.csr.idx + 1 }
    events := s.events ++ [.segPull s.nextChunk] }

theorem segPull_cases (s : State) :
    (s.sourceAnswers.head? = some 0 ∧ segPull s = .noAnswer s.awaitSegment) ∨
    (s.sourceAnswers.head? ≠ some 0 ∧ segPull s = .answered s.nextChunk s.afterPull) := by
  rcases s.spendAnswer_cases with ⟨h, hs⟩ | ⟨h, hs⟩
  · exact .inl ⟨h, by rw [segPull, hs]⟩
  · exact .inr ⟨h, by rw [segPull, hs]; rfl⟩

theorem State.sourceLasts_ne {s : State} {k : Nat} (h : s.sourceLasts (k + 1)) : s.sourceAnswers.head? ≠ some 0 := by
  intro h0
  have := h 0 h0
  omega

theorem State.sourceLasts_pred {s t : State} {k : Nat} (h : s.sourceLasts (k + 1))
    (ht : t.sourceAnswers = s.sourceAnswers.modifyHead (· - 1)) : t.sourceLasts k := by
  intro m hm
  rw [ht] at hm
  rcases hs : s.sourceAnswers with _ | ⟨j, later⟩
  · simp [hs] at hm
  · have := h j (by simp [hs])
    simp [hs] at hm
    omega

/-! ## What every stretch of a command keeps -/

/-- From `s` to `t` the command made `pulls` pulls and `calls` calls and went on: nothing that belongs to the outside but
what those transactions used up has changed, and no CSR but `IDX`, `CALLS` and `CARRY`. -/
structure Advanced (s t : State) (pulls calls : Nat) : Prop where
  status : t.csr.status = s.csr.status
  perr : t.csr.perr = s.csr.perr
  bufs : t.bufs = s.bufs
  provider : t.provider = s.provider
  inputs : t.inputs = s.inputs
  verdicts : t.verdicts = s.verdicts.drop calls
  len : t.csr.len = s.csr.len
  nblk : t.csr.nblk = s.csr.nblk
  rem : t.csr.rem = s.csr.rem
  fpad : t.csr.fpad = s.csr.fpad
  idx : t.csr.idx = s.csr.idx + BitVec.ofNat 64 pulls
  calls : t.csr.calls = s.csr.calls + BitVec.ofNat 64 calls
  source : s.sourceAnswers = [] → t.sourceAnswers = []

theorem Advanced.refl (s : State) : Advanced s s 0 0 := by
  constructor <;> simp

theorem Advanced.trans {s t u : State} {p c p' c' : Nat} (h : Advanced s t p c) (h' : Advanced t u p' c') :
    Advanced s u (p + p') (c + c') where
  status := h'.status.trans h.status
  perr := h'.perr.trans h.perr
  bufs := h'.bufs.trans h.bufs
  provider := h'.provider.trans h.provider
  inputs := h'.inputs.trans h.inputs
  verdicts := by rw [h'.verdicts, h.verdicts, List.drop_drop]
  len := h'.len.trans h.len
  nblk := h'.nblk.trans h.nblk
  rem := h'.rem.trans h.rem
  fpad := h'.fpad.trans h.fpad
  idx := by rw [h'.idx, h.idx, BitVec.ofNat_add, BitVec.add_assoc]
  calls := by rw [h'.calls, h.calls, BitVec.ofNat_add, BitVec.add_assoc]
  source := h'.source ∘ h.source

theorem Advanced.bundle {s t : State} {p c : Nat} (h : Advanced s t p c) : t.bundle = s.bundle := by
  unfold State.bundle
  rw [h.inputs]

theorem Advanced.buf {s t : State} {p c : Nat} (h : Advanced s t p c) (ref : Nat) : t.buf ref = s.buf ref := by
  unfold State.buf
  rw [h.bufs]

theorem Advanced.recordCall (s : State) (key : KeyHandle) (blk : Block) (iv : Option Block) (a : CipherAnswer) :
    Advanced s (s.recordCall key blk iv a) 0 1 := by
  constructor <;> simp

theorem Advanced.afterPull (s : State) : Advanced s s.afterPull 1 0 := by
  constructor <;> simp [State.afterPull]

theorem Advanced.writeB (s : State) (r : BReg) (v : Block) : Advanced s (s.writeB r v) 0 0 := by
  constructor <;> simp

theorem Advanced.enterPhase (s : State) (p : Phase) : Advanced s (s.enterPhase p) 0 0 := by
  constructor <;> simp

theorem Advanced.setSubkeys (s : State) (mac : Block) : Advanced s (s.setSubkeys mac) 0 0 := by
  constructor <;> simp

theorem Advanced.afterDesc (s : State) (i : Nat) (g : Segment) : Advanced s (s.afterDesc i g) 0 0 := by
  constructor <;> simp [State.afterDesc]

theorem Advanced.awaitCipher (s : State) : Advanced s s.awaitCipher 0 1 := by
  constructor <;> simp

theorem Advanced.awaitSegment (s : State) : Advanced s s.awaitSegment 0 0 := by
  constructor <;> simp +contextual

/-- A silence lies ahead: of the provider, or of the segment source (U16). -/
def State.silenceAhead (s : State) : Prop := .silent ∈ s.verdicts ∨ s.sourceAnswers ≠ []

/-- From `s` the command came to wait in the state `t`, on a port, in a phase. -/
structure Waits (s t : State) (port : Port) (phase : Phase) : Prop where
  outstanding : t.outstanding = some port
  inPhase : t.phase = phase
  advanced : ∃ pulls calls, Advanced s t pulls calls
  silence : s.silenceAhead

theorem Waits.after {s t u : State} {p c : Nat} {port : Port} {phase : Phase} (h : Advanced s t p c)
    (h' : Waits t u port phase) : Waits s u port phase := by
  obtain ⟨p', c', ha⟩ := h'.advanced
  refine ⟨h'.outstanding, h'.inPhase, ⟨_, _, h.trans ha⟩, ?_⟩
  rcases h'.silence with hs | hs
  · exact .inl (List.mem_of_mem_drop (h.verdicts ▸ hs))
  · exact .inr (mt h.source hs)

theorem State.silent_mem {s : State} (h : s.nextVerdict = .silent) : .silent ∈ s.verdicts := by
  unfold State.nextVerdict at h
  cases hs : s.verdicts with
  | nil => simp [hs] at h
  | cons v rest =>
    rw [hs] at h
    exact h ▸ List.mem_cons_self

theorem Waits.awaitCipher {s : State} (h : s.nextVerdict = .silent) : Waits s s.awaitCipher .cipher s.phase :=
  ⟨rfl, rfl, ⟨_, _, Advanced.awaitCipher s⟩, .inl (State.silent_mem h)⟩

theorem Waits.awaitSegment {s : State} (h : s.sourceAnswers.head? = some 0) : Waits s s.awaitSegment .segment s.phase :=
  ⟨rfl, rfl, ⟨_, _, Advanced.awaitSegment s⟩, .inr fun h0 => by simp [h0] at h⟩

end Sys2Proof.Machine
end

