-- ==== Sys2Proof/Laws/Driver.lean ====
section
/-! SUPPORT. What the steps of CMAC can do (R161 to R175): one lemma for each step, then `CmacEnd`, which says once all that a
CMAC command that ends can have done. -/

namespace Sys2Proof.Machine

/-! ## Walks -/

@[simp] theorem Walk.go_andThen (s : State) (f : State → Walk) : (Walk.go s).andThen f = f s := rfl
@[simp] theorem Walk.exit_andThen (c : Code) (p : ErrCode) (s : State) (f : State → Walk) :
    (Walk.exit c p s).andThen f = .exit c p s := rfl
@[simp] theorem Walk.stuck_andThen (s : State) (f : State → Walk) : (Walk.stuck s).andThen f = .stuck s := rfl

/-! ## Step 2 -/

theorem signedStream_cons (g : Segment) (rest : List Segment) :
    signedStream (g :: rest) = (if g.sign then g.data else []) ++ signedStream rest := by
  cases h : g.sign <;> simp [signedStream, h]

/-- All that step 2's reading of the descriptors can do: it waits on a source that falls silent, or writes `LEN` (R163). -/
theorem sumLengths_cases (gs : List Segment) (i total : Nat) (s : State) :
    (∃ m, s.sourceAnswers.head? = some m ∧ m < gs.length ∧ sumLengths gs i total s =
      .stuck { s with
        sourceAnswers := s.sourceAnswers.tail
        events := s.events ++ (descEvents i gs).take m
        outstanding := some .segment }) ∨
    (s.sourceLasts gs.length ∧ sumLengths gs i total s =
      .go { s with
        csr := { s.csr with len := BitVec.ofNat 64 (total + (signedStream gs).length) }
        sourceAnswers := s.sourceAnswers.modifyHead (· - gs.length)
        events := s.events ++ descEvents i gs }) := by
  induction gs generalizing i total s with
  | nil =>
    refine .inr ⟨fun _ _ => Nat.zero_le _, ?_⟩
    cases h : s.sourceAnswers <;> simp [sumLengths, signedStream, descEvents] <;> rw [← h]
  | cons g rest ih =>
    rcases segDesc_cases i g s with ⟨h, hd⟩ | ⟨h, hd⟩
    · exact .inl ⟨0, h, by simp, by rw [sumLengths, hd]; simp [State.awaitSegment]⟩
    · rcases ih (i + 1) (if g.sign then total + g.len else total) (s.afterDesc i g) with ⟨m, hm, hl, hw⟩ | ⟨hl, hw⟩
      · rcases hs : s.sourceAnswers with _ | ⟨j, later⟩
        · simp [State.afterDesc, hs] at hm
        · have hj : j ≠ 0 := fun h0 => h (by simp [hs, h0])
          simp only [State.afterDesc, hs, List.modifyHead_cons, List.head?_cons, Option.some.injEq] at hm
          refine .inl ⟨j, rfl, by simp only [List.length_cons]; omega, ?_⟩
          rw [sumLengths, hd]
          refine hw.trans ?_
          obtain rfl : j = m + 1 := by omega
          simp [State.afterDesc, hs, descEvents]
      · refine .inr ⟨?_, ?_⟩
        · intro m hm
          have h0 : m ≠ 0 := fun h0 => h (by rw [hm, h0])
          have := hl (m - 1) (by
            rcases hs : s.sourceAnswers with _ | ⟨j, later⟩
            · simp [hs] at hm
            · simp only [hs, List.head?_cons, Option.some.injEq] at hm
              simp [State.afterDesc, hs, hm])
          simp only [List.length_cons]
          omega
        · rw [sumLengths, hd]
          refine hw.trans ?_
          simp only [State.afterDesc, List.modifyHead_modifyHead, List.append_assoc, descEvents, List.length_cons,
            signedStream_cons, Segment.len]
          congr 3
          · cases g.sign <;> simp [Nat.add_assoc]
          · funext m
            simp only [Function.comp_apply]
            omega

/-! ## A call with the running chaining value, and the loop of step 6 -/

/-- The answer to the request that chains `M`. -/
def State.chained (s : State) : Block := s.provider.cbcMac s.bundle.key (s.readB .m) (some (s.readB .cv))

/-- All that chaining one block can do (R167, R169). -/
theorem chainBlock_cases (s : State) :
    (s.nextVerdict = .answers ∧ chainBlock s =
      .go ((s.recordCall s.bundle.key (s.readB .m) (some (s.readB .cv)) (.ok s.chained)).writeB .cv s.chained)) ∨
    (∃ code, s.nextVerdict = .fails code ∧ chainBlock s =
      .exit .eProvider code (s.recordCall s.bundle.key (s.readB .m) (some (s.readB .cv)) (.err code))) ∨
    (s.nextVerdict = .silent ∧ chainBlock s = .stuck s.awaitCipher) := by
  rcases cipherCall_cases s.bundle.key (s.readB .m) (some (s.readB .cv)) s with ⟨h, hc⟩ | ⟨code, h, hc⟩ | ⟨h, hc⟩
  · exact .inl ⟨h, by rw [chainBlock, hc]; rfl⟩
  · exact .inr (.inl ⟨code, h, by rw [chainBlock, hc]⟩)
  · exact .inr (.inr ⟨h, by rw [chainBlock, hc]⟩)

/-- `M` loaded with the chunk the next pull answers. -/
def State.pulled (s : State) : State := s.afterPull.writeB .m (blockOf s.nextChunk)

theorem Advanced.pulled (s : State) : Advanced s s.pulled 1 0 := (Advanced.afterPull s).trans (Advanced.writeB _ _ _)

theorem pullAndChain_cases (s : State) :
    (s.sourceAnswers.head? = some 0 ∧ pullAndChain s = .stuck s.awaitSegment) ∨
    (s.sourceAnswers.head? ≠ some 0 ∧ pullAndChain s = chainBlock s.pulled) := by
  rcases segPull_cases s with ⟨h, hp⟩ | ⟨h, hp⟩
  · exact .inl ⟨h, by rw [pullAndChain, hp]⟩
  · exact .inr ⟨h, by rw [pullAndChain, hp]; rfl⟩

/-- All that the loop of step 6 can do: it goes through, a call fails, or it waits for ever in its phase. -/
theorem chainBlocks_cases (k : Nat) (s : State) :
    (∃ t, chainBlocks k s = .go t ∧ Advanced s t k k) ∨
    (∃ j code t, j < k ∧ chainBlocks k s = .exit .eProvider code t ∧ Advanced s t (j + 1) (j + 1) ∧
      (s.verdicts.drop j).head? = some (.fails code)) ∨
    (∃ port t, chainBlocks k s = .stuck t ∧ Waits s t port s.phase) := by
  induction k generalizing s with
  | zero => exact .inl ⟨s, rfl, Advanced.refl s⟩
  | succ k ih =>
    rcases pullAndChain_cases s with ⟨h0, hp⟩ | ⟨-, hp⟩
    · exact .inr (.inr ⟨.segment, _, by rw [chainBlocks, hp]; rfl, Waits.awaitSegment h0⟩)
    · have hv : s.pulled.nextVerdict = s.nextVerdict := rfl
      rcases chainBlock_cases s.pulled with ⟨-, hc⟩ | ⟨code, hf, hc⟩ | ⟨hq, hc⟩
      · have hadv : Advanced s ((s.pulled.recordCall s.pulled.bundle.key (s.pulled.readB .m) (some (s.pulled.readB .cv))
            (.ok s.pulled.chained)).writeB .cv s.pulled.chained) 1 1 :=
          ((Advanced.pulled s).trans (Advanced.recordCall _ _ _ _ _)).trans (Advanced.writeB _ _ _)
        rw [chainBlocks, hp, hc, Walk.go_andThen]
        rcases ih ((s.pulled.recordCall s.pulled.bundle.key (s.pulled.readB .m) (some (s.pulled.readB .cv))
            (.ok s.pulled.chained)).writeB .cv s.pulled.chained) with ⟨t, ht, ha⟩ | ⟨j, code, t, hj, ht, ha, hd⟩ | ⟨port, t, ht, hw⟩
        · exact .inl ⟨t, ht, by simpa only [Nat.add_comm] using hadv.trans ha⟩
        · refine .inr (.inl ⟨j + 1, code, t, by omega, ht, ?_, ?_⟩)
          · simpa only [Nat.add_comm, Nat.add_left_comm] using hadv.trans ha
          · rw [hadv.verdicts, List.drop_drop, Nat.add_comm] at hd
            exact hd
        · exact .inr (.inr ⟨port, t, ht, hw.after hadv⟩)
      · refine .inr (.inl ⟨0, code, _, by omega, by rw [chainBlocks, hp, hc]; rfl,
          (Advanced.pulled s).trans (Advanced.recordCall _ _ _ _ _), ?_⟩)
        rw [hv, State.nextVerdict] at hf
        cases hs : s.verdicts with
        | nil => simp [hs] at hf
        | cons v rest =>
          rw [hs] at hf
          simp [hf]
      · exact .inr (.inr ⟨.cipher, _, by rw [chainBlocks, hp, hc]; rfl,
          (Waits.awaitCipher hq).after (Advanced.pulled s)⟩)

/-! ## The arithmetic of step 4 -/

/-- The three cases of R165 in one: the length is `16 * (n - 1)` and what the final block holds. -/
theorem blockCount_spec (length : Nat) :
    1 ≤ blockCount length ∧ blockCount length ≤ length / 16 + 1 ∧ 16 * (blockCount length - 1) ≤ length ∧
      length ≤ 16 * blockCount length := by
  unfold blockCount ceil16
  split
  · omega
  · split <;> omega

theorem planned_nblk {len : BitVec 64} :
    (BitVec.ofNat 64 (blockCount len.toNat)).toNat = blockCount len.toNat := by
  have := blockCount_spec len.toNat
  have := len.isLt
  rw [BitVec.toNat_ofNat]
  omega

/-! ## The whole command -/

/-- What is the same at every exit (R171): the secrets are cleared, the sequencer is idle, the command is answered. -/
structure CmacExit (s t : State) (code : Code) (pcode : ErrCode) : Prop where
  regs : t.regs = Regs.zero
  carry : t.csr.carry = false
  phase : t.phase = .idle
  cursor : t.cursor = none
  ended : EndedWith s t code pcode
  provider : t.provider = s.provider

/-- Step 4 has been reached: `NBLK`, `FPAD`, `REM` are as it wrote them (R165). -/
structure CmacPlanned (t : State) : Prop where
  nblk : t.csr.nblk = BitVec.ofNat 64 (blockCount t.csr.len.toNat)
  fpad : t.csr.fpad = needsPadding t.csr.len.toNat
  rem : t.csr.rem = BitVec.ofNat 4 (remainder t.csr.len.toNat)

/-- `LEN` as step 2 wrote it (R163). -/
def CmacLen (s t : State) : Prop := t.csr.len = BitVec.ofNat 64 (signedStream s.bundle.segl).length

/-- All the ways a CMAC command can end, and what it leaves in each. -/
inductive CmacEnd (s t : State) : Prop where
  | blksz (wrong : s.wrongBlockSize = true) (exit : CmacExit s t .eBlksz 0) (len : t.csr.len = 0) (nblk : t.csr.nblk = 0)
      (rem : t.csr.rem = 0) (fpad : t.csr.fpad = false) (idx : t.csr.idx = 0) (calls : t.csr.calls = 0)
      (bufs : t.bufs = s.bufs) (verdicts : t.verdicts = s.verdicts) (events : t.events = [])
      (source : t.sourceAnswers = s.sourceAnswers)
  | subkeys (right : s.wrongBlockSize = false) (code : ErrCode) (exit : CmacExit s t .eProvider code) (len : CmacLen s t)
      (nblk : t.csr.nblk = 0) (rem : t.csr.rem = 0) (fpad : t.csr.fpad = false) (idx : t.csr.idx = 0)
      (calls : t.csr.calls = 1) (bufs : t.bufs = s.bufs) (verdicts : t.verdicts = s.verdicts.drop 1)
      (failed : s.verdicts.head? = some (.fails code))
  | block (right : s.wrongBlockSize = false) (code : ErrCode) (j : Nat) (hj : j < t.csr.nblk.toNat)
      (exit : CmacExit s t .eProvider code)
      (len : CmacLen s t) (planned : CmacPlanned t) (idx : t.csr.idx = BitVec.ofNat 64 (j + 1))
      (calls : t.csr.calls = BitVec.ofNat 64 (j + 2)) (bufs : t.bufs = s.bufs) (verdicts : t.verdicts = s.verdicts.drop (j + 2))
      (failed : (s.verdicts.drop (j + 1)).head? = some (.fails code))
  | outcap (right : s.wrongBlockSize = false) (cap : (s.buf s.bundle.out).cap.toNat < 16) (exit : CmacExit s t .eOutcap 0)
      (len : CmacLen s t) (planned : CmacPlanned t) (idx : t.csr.idx = t.csr.nblk)
      (calls : t.csr.calls = t.csr.nblk + 1) (bufs : t.bufs = s.bufs)
      (verdicts : t.verdicts = s.verdicts.drop (t.csr.nblk.toNat + 1))
  | success (right : s.wrongBlockSize = false) (cap : 16 ≤ (s.buf s.bundle.out).cap.toNat) (tag : Block)
      (exit : CmacExit s t .ok 0)
      (len : CmacLen s t) (planned : CmacPlanned t) (idx : t.csr.idx = t.csr.nblk)
      (calls : t.csr.calls = t.csr.nblk + 1)
      (bufs : t.bufs = putBuf s.bufs s.bundle.out ((s.buf s.bundle.out).withTag tag))
      (verdicts : t.verdicts = s.verdicts.drop (t.csr.nblk.toNat + 1))

/-- What a CMAC command that is left waiting leaves (U16, R241). -/
structure CmacWaits (s t : State) (port : Port) : Prop where
  right : s.wrongBlockSize = false
  left : LeftWaiting s t port
  inPhase : t.phase ∈ waitingPhases port
  bufs : t.bufs = s.bufs
  verdicts : ∃ calls, t.verdicts = s.verdicts.drop calls
  len : t.csr.len = 0 ∨ CmacLen s t
  silence : s.silenceAhead

theorem cmacExit_exit {s t : State} (hi : t.inputs = s.inputs) (hp : t.provider = s.provider) (code : Code) (pcode : ErrCode) :
    CmacExit s (cmacExit code pcode t) code pcode := by
  constructor
  · rfl
  · rfl
  · rfl
  · rfl
  · exact ⟨rfl, rfl, rfl, congrArg afterCommand hi, rfl⟩
  · exact hp

/-- The state in which step 2 waits, when the source answers `m` descriptors and no more. -/
def State.atSilentDesc (s : State) (m : Nat) : State :=
  { (((cmacEntry s).enterPhase .s1).enterPhase .s2) with
    sourceAnswers := s.sourceAnswers.tail
    events := (descEvents 0 s.bundle.segl).take m
    outstanding := some .segment }

/-- The state in which step 3 begins its request, when the source lasted through step 2. -/
def State.atSubkeys (s : State) : State :=
  { (((cmacEntry s).enterPhase .s1).enterPhase .s2) with
    csr := { (cmacEntry s).csr with len := BitVec.ofNat 64 (signedStream s.bundle.segl).length }
    sourceAnswers := s.sourceAnswers.modifyHead (· - s.bundle.segl.length)
    events := descEvents 0 s.bundle.segl
    phase := .s3 }

/-- The state in which step 6 begins, when the call of step 3 was answered with `mac`. -/
def State.atLoop (s : State) : State :=
  let mac := s.provider.cbcMac s.bundle.key zeroBlock none
  let u := (s.atSubkeys.recordCall s.bundle.key zeroBlock none (.ok mac)).setSubkeys mac
  (({ u with csr := planFinalBlock u.csr, phase := .s5 } : State).writeB .cv zeroBlock).enterPhase .s6

/-- The steps from the request of step 8 on. -/
def finishSteps (s : State) : Walk := (cmacS8 s).andThen cmacS9

/-- Steps 1 to 3: what they lead to. -/
theorem cmacSteps_cases (s : State) :
    (s.wrongBlockSize = true ∧ cmacSteps (cmacEntry s) = .exit .eBlksz 0 ((cmacEntry s).enterPhase .s1)) ∨
    (s.wrongBlockSize = false ∧ ∃ m, s.sourceAnswers.head? = some m ∧ m < s.bundle.segl.length ∧
      cmacSteps (cmacEntry s) = .stuck (s.atSilentDesc m)) ∨
    (s.wrongBlockSize = false ∧ s.sourceLasts s.bundle.segl.length ∧
      ((s.nextVerdict = .silent ∧ cmacSteps (cmacEntry s) = .stuck s.atSubkeys.awaitCipher) ∨
       (∃ code, s.nextVerdict = .fails code ∧ cmacSteps (cmacEntry s) =
          .exit .eProvider code (s.atSubkeys.recordCall s.bundle.key zeroBlock none (.err code))) ∨
       (s.nextVerdict = .answers ∧ cmacSteps (cmacEntry s) =
          ((chainBlocks (s.atLoop.csr.nblk.toNat - 1) s.atLoop).andThen cmacS7).andThen finishSteps))) := by
  have hassoc : ∀ w : Walk, ((w.andThen cmacS7).andThen cmacS8).andThen cmacS9 = (w.andThen cmacS7).andThen finishSteps := by
    intro w
    cases w with
    | go t => cases h : cmacS7 t <;> simp [finishSteps, h]
    | exit => rfl
    | stuck => rfl
  rw [cmacSteps, hassoc]
  cases hb : s.wrongBlockSize with
  | true =>
    refine .inl ⟨rfl, ?_⟩
    have h1 : cmacS1 (cmacEntry s) = .exit .eBlksz 0 ((cmacEntry s).enterPhase .s1) :=
      if_pos (show (cmacEntry s).wrongBlockSize = true from hb)
    rw [h1]
    rfl
  | false =>
    have h1 : cmacS1 (cmacEntry s) = .go ((cmacEntry s).enterPhase .s1) :=
      if_neg (by rw [show ((cmacEntry s).enterPhase .s1).wrongBlockSize = s.wrongBlockSize from rfl, hb]; decide)
    rw [h1, Walk.go_andThen]
    rcases sumLengths_cases s.bundle.segl 0 0 (((cmacEntry s).enterPhase .s1).enterPhase .s2) with ⟨m, hm, hl, hw⟩ | ⟨hl, hw⟩
    · refine .inr (.inl ⟨rfl, m, hm, hl, ?_⟩)
      rw [show cmacS2 ((cmacEntry s).enterPhase .s1) = _ from hw]
      rfl
    · refine .inr (.inr ⟨rfl, hl, ?_⟩)
      have h2 : (cmacS2 ((cmacEntry s).enterPhase .s1)).andThen cmacS3 =
          match cipherCall s.bundle.key zeroBlock none s.atSubkeys with
          | .noAnswer u => .stuck u
          | .answered (.err code) u => .exit .eProvider code u
          | .answered (.ok mac) u => .go (u.setSubkeys mac) := by
        rw [show cmacS2 ((cmacEntry s).enterPhase .s1) = _ from hw, Walk.go_andThen, Nat.zero_add]
        rfl
      rw [h2]
      rcases cipherCall_cases s.bundle.key zeroBlock none s.atSubkeys with ⟨hv, hc⟩ | ⟨code, hv, hc⟩ | ⟨hv, hc⟩
      · exact .inr (.inr ⟨hv, by rw [hc]; rfl⟩)
      · exact .inr (.inl ⟨code, hv, by rw [hc]; rfl⟩)
      · exact .inl ⟨hv, by rw [hc]; rfl⟩

theorem State.nextVerdict_fails {s : State} {code : ErrCode} (h : s.nextVerdict = .fails code) :
    s.verdicts.head? = some (.fails code) := by
  unfold State.nextVerdict at h
  cases hs : s.verdicts with
  | nil => simp [hs] at h
  | cons v rest => simpa [hs] using h

theorem CmacPlanned.nblk_toNat {t : State} (h : CmacPlanned t) : t.csr.nblk.toNat = blockCount t.csr.len.toNat := by
  rw [h.nblk, planned_nblk]

theorem CmacPlanned.nblk_pos {t : State} (h : CmacPlanned t) : 1 ≤ t.csr.nblk.toNat := by
  rw [h.nblk_toNat]
  exact (blockCount_spec _).1

theorem State.atLoop_planned (s : State) : CmacPlanned s.atLoop := ⟨rfl, rfl, rfl⟩

/-- All that steps 7 to 9 can do from a state that has reached them. -/
theorem lastSteps_cases (s : State) :
    (∃ port phase t, ((cmacS7 s).andThen finishSteps) = .stuck t ∧ Waits s t port phase ∧ phase ∈ waitingPhases port) ∨
    (∃ code t, ((cmacS7 s).andThen finishSteps) = .exit .eProvider code t ∧ Advanced s t 1 1 ∧
      s.verdicts.head? = some (.fails code)) ∨
    (∃ t, ((cmacS7 s).andThen finishSteps) = .exit .eOutcap 0 t ∧ Advanced s t 1 1 ∧
      (s.buf s.bundle.out).cap.toNat < 16) ∨
    (∃ t tag, ((cmacS7 s).andThen finishSteps) = .go (t.writeTag s.bundle.out tag) ∧ Advanced s t 1 1 ∧
      16 ≤ (s.buf s.bundle.out).cap.toNat) := by
  rcases segPull_cases (s.enterPhase .s7) with ⟨h0, hp⟩ | ⟨-, hp⟩
  · exact .inl ⟨.segment, .s7, _, by rw [cmacS7, hp]; rfl,
      (Waits.awaitSegment h0).after (Advanced.enterPhase s .s7), by decide⟩
  · obtain ⟨u, hu, ha, hv⟩ : ∃ u, cmacS7 s = .go u ∧ Advanced s u 1 0 ∧ u.verdicts = s.verdicts := by
      have h7 : cmacS7 s = .go ((s.enterPhase .s7).afterPull.writeB .m
          (maskFinal (s.enterPhase .s7).afterPull (blockOf (s.enterPhase .s7).nextChunk))) := by rw [cmacS7, hp]
      exact ⟨_, h7, ((Advanced.enterPhase s .s7).trans (Advanced.afterPull _)).trans (Advanced.writeB _ _ _), rfl⟩
    rw [hu, Walk.go_andThen, finishSteps, cmacS8]
    have hn : (u.enterPhase .s8).nextVerdict = s.nextVerdict := by
      show u.nextVerdict = _
      unfold State.nextVerdict
      rw [hv]
    rcases chainBlock_cases (u.enterPhase .s8) with ⟨-, hc⟩ | ⟨code, hf, hc⟩ | ⟨hq, hc⟩
    · rw [hc, Walk.go_andThen]
      have hadv := (((ha.trans (Advanced.enterPhase u .s8)).trans (Advanced.recordCall _ _ _ _ _)).trans
        (Advanced.writeB (State.recordCall (u.enterPhase .s8) (u.enterPhase .s8).bundle.key ((u.enterPhase .s8).readB .m)
          (some ((u.enterPhase .s8).readB .cv)) (.ok (u.enterPhase .s8).chained)) .cv (u.enterPhase .s8).chained)).trans
        (Advanced.enterPhase _ .s9)
      rw [cmacS9, hadv.bundle, hadv.buf]
      by_cases hcap : (s.buf s.bundle.out).cap.toNat < 16
      · exact .inr (.inr (.inl ⟨_, if_pos hcap, hadv, hcap⟩))
      · exact .inr (.inr (.inr ⟨_, _, if_neg hcap, hadv, by omega⟩))
    · refine .inr (.inl ⟨code, _, by rw [hc]; rfl,
        (ha.trans (Advanced.enterPhase u .s8)).trans (Advanced.recordCall _ _ _ _ _), ?_⟩)
      rw [hn] at hf
      exact State.nextVerdict_fails hf
    · exact .inl ⟨.cipher, .s8, _, by rw [hc]; rfl,
        (Waits.awaitCipher hq).after (ha.trans (Advanced.enterPhase u .s8)), by decide⟩

theorem execCmac_go {s t : State} (h : cmacSteps (cmacEntry s) = .go t) : execCmac s = .next (cmacExit .ok 0 t) := by
  rw [execCmac, h]

theorem execCmac_exit {s t : State} {code : Code} {pcode : ErrCode} (h : cmacSteps (cmacEntry s) = .exit code pcode t) :
    execCmac s = .next (cmacExit code pcode t) := by
  rw [execCmac, h]

theorem execCmac_stuck {s t : State} (h : cmacSteps (cmacEntry s) = .stuck t) : execCmac s = .next t.leaveWaiting := by
  rw [execCmac, h]

/-- From the loop of step 6 on, a command that waits. -/
theorem CmacWaits.of_loop {s t : State} (hb : s.wrongBlockSize = false) {port : Port} {phase : Phase}
    (h : Waits s.atLoop t port phase) (hp : phase ∈ waitingPhases port) : CmacWaits s t.leaveWaiting port := by
  obtain ⟨p, c, ha⟩ := h.advanced
  refine ⟨hb, ⟨h.outstanding, ha.status, ha.perr, rfl, congrArg afterCommand ha.inputs, ha.provider⟩, ?_, ha.bufs,
    ⟨1 + c, ?_⟩, .inr ha.len, ?_⟩
  · rw [State.leaveWaiting_phase, h.inPhase]
    exact hp
  · rw [State.leaveWaiting_verdicts, ha.verdicts, ← List.drop_drop]
    congr 1
    show s.verdicts.tail = _
    simp
  · rcases h.silence with hs | hs
    · exact .inl (List.mem_of_mem_tail hs)
    · refine .inr fun h0 => hs ?_
      show s.sourceAnswers.modifyHead _ = []
      rw [h0, List.modifyHead_nil]

/-- EVERYTHING A CMAC COMMAND CAN DO: it is left waiting on a port, or it ends in one of the ways of `CmacEnd`. -/
theorem execCmac_cases (s : State) :
    (∃ t port, execCmac s = .next t ∧ CmacWaits s t port) ∨ ∃ t, execCmac s = .next t ∧ CmacEnd s t := by
  rcases cmacSteps_cases s with ⟨hb, h⟩ | ⟨hb, m, hm, hl, h⟩ | ⟨hb, hl, ⟨hq, h⟩ | ⟨code, hv, h⟩ | ⟨-, h⟩⟩
  · refine .inr ⟨_, execCmac_exit h, .blksz hb (cmacExit_exit (s := s) (t := _) (by rfl) (by rfl) _ _) rfl rfl rfl rfl rfl rfl rfl rfl rfl rfl⟩
  · exact .inl ⟨_, .segment, execCmac_stuck h, hb, ⟨rfl, rfl, rfl, rfl, rfl, rfl⟩, by show Phase.s2 ∈ _; decide, rfl, ⟨0, rfl⟩,
      .inl rfl, .inr fun h0 => by simp [h0] at hm⟩
  · exact .inl ⟨_, .cipher, execCmac_stuck h, hb, ⟨rfl, rfl, rfl, rfl, rfl, rfl⟩, by show Phase.s3 ∈ _; decide, rfl,
      ⟨1, by show s.verdicts.tail = _; simp⟩, .inr rfl, .inl (State.silent_mem hq)⟩
  · refine .inr ⟨_, execCmac_exit h, .subkeys hb code (cmacExit_exit (s := s) (t := _) (by rfl) (by rfl) _ _) rfl rfl rfl rfl rfl rfl rfl ?_
      (State.nextVerdict_fails hv)⟩
    show s.verdicts.tail = _
    simp
  · have hdrop : s.atLoop.verdicts = s.verdicts.drop 1 := by
      show s.verdicts.tail = _
      simp
    rcases chainBlocks_cases (s.atLoop.csr.nblk.toNat - 1) s.atLoop with ⟨u, hu, ha⟩ | ⟨j, code, t, hj, ht, ha, hd⟩ | ⟨port, t, ht, hw⟩
    · rw [hu, Walk.go_andThen] at h
      have hpos := s.atLoop_planned.nblk_pos
      have fin : ∀ v, Advanced u v 1 1 → CmacPlanned v ∧ CmacLen s v ∧ v.csr.idx = v.csr.nblk ∧ v.csr.calls = v.csr.nblk + 1 ∧
          v.bufs = s.bufs ∧ v.verdicts = s.verdicts.drop (v.csr.nblk.toNat + 1) ∧ v.inputs = s.inputs ∧
          v.provider = s.provider := by
        intro v hv
        have hall := ha.trans hv
        have hn : s.atLoop.csr.nblk.toNat - 1 + 1 = v.csr.nblk.toNat := by rw [hall.nblk]; omega
        refine ⟨⟨?_, ?_, ?_⟩, hall.len, ?_, ?_, hall.bufs, ?_, hall.inputs, hall.provider⟩
        · rw [hall.nblk, hall.len]; rfl
        · rw [hall.fpad, hall.len]; rfl
        · rw [hall.rem, hall.len]; rfl
        · rw [hall.idx, hn, BitVec.ofNat_toNat]
          show (0 : BitVec 64) + _ = _
          simp
        · rw [hall.calls, hn, BitVec.ofNat_toNat]
          show (0 : BitVec 64) + 1 + _ = _
          simp [BitVec.add_comm]
        · rw [hall.verdicts, hdrop, List.drop_drop, hn, Nat.add_comm]
      have hbuf : u.buf u.bundle.out = s.buf s.bundle.out := by rw [ha.bundle, ha.buf]; rfl
      have hbun : u.bundle.out = s.bundle.out := by rw [ha.bundle]; rfl
      rcases lastSteps_cases u with ⟨port, phase, t, hl, hw, hp⟩ | ⟨code, v, hl, hv, hd⟩ | ⟨v, hl, hv, hc⟩ | ⟨v, tag, hl, hv, hc⟩
      · exact .inl ⟨_, _, execCmac_stuck (h.trans hl), CmacWaits.of_loop hb (hw.after ha) hp⟩
      · obtain ⟨pl, le, idx, calls, bufs, ver, inp, pro⟩ := fin v hv
        have hn : v.csr.nblk.toNat = s.atLoop.csr.nblk.toNat := by rw [(ha.trans hv).nblk]
        refine .inr ⟨_, execCmac_exit (h.trans hl), .block hb code (v.csr.nblk.toNat - 1) ?_ (cmacExit_exit inp pro _ _) le
          ⟨pl.nblk, pl.fpad, pl.rem⟩ ?_ ?_ bufs ?_ ?_⟩
        · show v.csr.nblk.toNat - 1 < v.csr.nblk.toNat
          omega
        · show v.csr.idx = _
          rw [idx, show v.csr.nblk.toNat - 1 + 1 = v.csr.nblk.toNat by omega, BitVec.ofNat_toNat]
          simp
        · show v.csr.calls = _
          rw [calls, show v.csr.nblk.toNat - 1 + 2 = v.csr.nblk.toNat + 1 by omega, BitVec.ofNat_add, BitVec.ofNat_toNat]
          simp
        · show v.verdicts = _
          rw [ver]
          congr 1
          omega
        · rw [ha.verdicts, hdrop, List.drop_drop] at hd
          rw [show v.csr.nblk.toNat - 1 + 1 = 1 + (s.atLoop.csr.nblk.toNat - 1) by omega]
          exact hd
      · obtain ⟨pl, le, idx, calls, bufs, ver, inp, pro⟩ := fin v hv
        rw [hbuf] at hc
        exact .inr ⟨_, execCmac_exit (h.trans hl), .outcap hb hc (cmacExit_exit inp pro _ _) le ⟨pl.nblk, pl.fpad, pl.rem⟩ idx
          calls bufs ver⟩
      · obtain ⟨pl, le, idx, calls, bufs, ver, inp, pro⟩ := fin v hv
        rw [hbuf] at hc
        refine .inr ⟨_, execCmac_go (h.trans hl), .success hb hc tag
          (cmacExit_exit (t := v.writeTag u.bundle.out tag) inp pro _ _) le ⟨pl.nblk, pl.fpad, pl.rem⟩
          idx calls ?_ ver⟩
        show putBuf v.bufs u.bundle.out ((findBuf v.bufs u.bundle.out).withTag tag) = _
        rw [bufs, hbun]
        rfl
    · rw [ht, Walk.exit_andThen, Walk.exit_andThen] at h
      have hn : t.csr.nblk.toNat = s.atLoop.csr.nblk.toNat := by rw [ha.nblk]
      refine .inr ⟨_, execCmac_exit h, .block hb code j ?_
        (cmacExit_exit (show t.inputs = s.inputs from ha.inputs) (show t.provider = s.provider from ha.provider) _ _) ha.len ⟨?_, ?_, ?_⟩
        ?_ ?_ ha.bufs ?_ ?_⟩
      · show j < t.csr.nblk.toNat
        omega
      · show t.csr.nblk = BitVec.ofNat 64 (blockCount t.csr.len.toNat)
        rw [ha.nblk, ha.len]; rfl
      · show t.csr.fpad = needsPadding t.csr.len.toNat
        rw [ha.fpad, ha.len]; rfl
      · show t.csr.rem = BitVec.ofNat 4 (remainder t.csr.len.toNat)
        rw [ha.rem, ha.len]; rfl
      · show t.csr.idx = _
        rw [ha.idx]
        show (0 : BitVec 64) + _ = _
        simp
      · show t.csr.calls = _
        rw [ha.calls, show j + 2 = 1 + (j + 1) by omega, BitVec.ofNat_add 1]
        show (0 : BitVec 64) + 1 + _ = _
        simp
      · show t.verdicts = _
        rw [ha.verdicts, hdrop, List.drop_drop]
        congr 1
        omega
      · rw [hdrop, List.drop_drop, Nat.add_comm] at hd
        exact hd
    · rw [ht, Walk.stuck_andThen, Walk.stuck_andThen] at h
      exact .inl ⟨_, _, execCmac_stuck h, CmacWaits.of_loop hb hw (by
        show Phase.s6 ∈ _
        cases port <;> decide)⟩

end Sys2Proof.Machine
end

