-- ==== Sys2Proof/Laws/PerInstr.lean ====
section
/-! SUPPORT. One law per command, for every value of its operands: the word of a command lies in its row of R85, so the
encoder sets no bit of a field that the command does not use, no bit 3 of a register field, and no bit of `RSV`. -/

namespace Sys2Proof.Laws.EncodeInRow

open Sys2Proof

/-- "a word `W` is this command exactly when `W and mask = match`" (R85): the encoder's half of it. -/
def Statement (i : Instr) : Prop := encode i &&& rowMask i.opcode = rowMatch i.opcode

theorem xorb (bd ba bb : BReg) : Statement (.xorb bd ba bb) := by cases bd <;> cases ba <;> cases bb <;> rfl
theorem shlb (bd ba : BReg) : Statement (.shlb bd ba) := by cases bd <;> cases ba <;> rfl
theorem dblb (bd ba : BReg) : Statement (.dblb bd ba) := by cases bd <;> cases ba <;> rfl
theorem padb (bd ba : BReg) (imm4 : Fin 16) : Statement (.padb bd ba imm4) := by
  unfold Statement
  revert imm4
  cases bd <;> cases ba <;> decide
theorem ldb (bd : BReg) : Statement (.ldb bd) := by cases bd <;> rfl
theorem rdb (ba : BReg) : Statement (.rdb ba) := by cases ba <;> rfl
theorem rdcsr (imm4 : Fin 16) : Statement (.rdcsr imm4) := by
  unfold Statement
  revert imm4
  decide
theorem zeroize : Statement .zeroize := rfl
theorem cbcm (bd ba : BReg) (c : Bool) : Statement (.cbcm bd ba c) := by cases bd <;> cases ba <;> cases c <;> rfl
theorem gensubk : Statement .gensubk := rfl
theorem cmac : Statement .cmac := rfl

end Sys2Proof.Laws.EncodeInRow
end

