-- ==== Sys2Proof/Laws/Step.lean ====
section
/-! SUPPORT. One step, by what stands first among the inputs (R69, R92, R204, R230), and the operations around the command
port. -/

namespace Sys2Proof.Machine

theorem State.fetch_of_idle {s : State} (h : s.outstanding = none) : s.fetch = s.fetchIdle := by
  rw [State.fetch, h]

theorem State.fetch_of_waiting {s : State} {port : Port} (h : s.outstanding = some port) : s.fetch = s.fetchWaiting port := by
  rw [State.fetch, h]

theorem step_of_nothing {s : State} (ho : s.outstanding = none) (h : s.inputs = []) : step s = .next s := by
  rw [step, State.fetch_of_idle ho, State.fetchIdle, h]

theorem step_of_command {s : State} (ho : s.outstanding = none) {c : Command} {rest : List Input}
    (h : s.inputs = .command c :: rest) :
    step s = match decode c.word with
      | .ok i => exec i s
      | .error _ => .next (takeIllegal s) := by
  rw [step, State.fetch_of_idle ho, State.fetchIdle, h]
  cases hd : decode c.word <;> simp only [hd]

theorem step_of_illegal {s : State} (ho : s.outstanding = none) {c : Command} {rest : List Input} {e : DecodeError}
    (h : s.inputs = .command c :: rest) (hd : decode c.word = .error e) : step s = .next (takeIllegal s) := by
  rw [step_of_command ho h, hd]

theorem step_of_buffer {s : State} (ho : s.outstanding = none) {ref : Nat} {b : OutBuf} {rest : List Input}
    (h : s.inputs = .buffer ref b :: rest) : step s = .next { s with bufs := putBuf s.bufs ref b, inputs := rest } := by
  rw [step, State.fetch_of_idle ho, State.fetchIdle, h]
  rfl

theorem step_of_attach {s : State} (ho : s.outstanding = none) {p : Provider} {rest : List Input}
    (h : s.inputs = .attach p :: rest) : step s = .next { s with provider := p, inputs := rest } := by
  rw [step, State.fetch_of_idle ho, State.fetchIdle, h]
  rfl

/-- A reset is taken whether a request is outstanding or not (R230, U16). -/
theorem step_of_reset {s : State} {rest : List Input} (h : s.inputs = .reset :: rest) :
    step s = .next { s.applyReset with inputs := rest } := by
  cases ho : s.outstanding with
  | none =>
    rw [step, State.fetch_of_idle ho, State.fetchIdle, h]
    rfl
  | some port =>
    rw [step, State.fetch_of_waiting ho, State.fetchWaiting, h]
    rfl

/-- An engine that waits takes no step but a reset (U16, R240). -/
theorem step_of_wait {s : State} {port : Port} (ho : s.outstanding = some port) (h : ∀ rest, s.inputs ≠ .reset :: rest) :
    step s = .fault (.noAnswer port s.phase) := by
  have hw : s.fetchWaiting port = .stuck port := by
    rw [State.fetchWaiting]
    split
    · exact absurd ‹_› (h _)
    · rfl
  rw [step, State.fetch_of_waiting ho, hw]

/-- The bundle a meaning reads is that of the presented command. -/
theorem State.bundle_of_inputs {s : State} {c : Command} {rest : List Input} (h : s.inputs = .command c :: rest) :
    s.bundle = c.bundle := by
  rw [State.bundle, h]

@[simp] theorem afterCommand_command (c : Command) (rest : List Input) : afterCommand (.command c :: rest) = rest := rfl

/-- What is after the command stood among the inputs before. -/
theorem mem_of_mem_afterCommand {x : Input} {l : List Input} (h : x ∈ afterCommand l) : x ∈ l := by
  unfold afterCommand at h
  split at h
  · exact List.mem_cons_of_mem _ h
  · exact h

@[simp] theorem State.wrongBlockSize_eq_false (s : State) : s.wrongBlockSize = false ↔ s.provider.blksz = 16 := by
  simp [State.wrongBlockSize]

@[simp] theorem State.wrongBlockSize_eq_true (s : State) : s.wrongBlockSize = true ↔ s.provider.blksz ≠ 16 := by
  simp [State.wrongBlockSize]

/-- Buffers that are the same list are the same byte for byte. -/
theorem BuffersSame.of_bufs {s t : State} (h : t.bufs = s.bufs) : BuffersSame s t := fun ref => by
  simp [BufferSame, State.buf, h]

/-! ## CBCM and GENSUBK: all that each can do -/

/-- All that CBCM can do (R140): the block-size error, an answer, a failed call, or no answer. -/
theorem execCbcm_cases (bd ba : BReg) (c : Bool) (s : State) :
    (s.provider.blksz ≠ 16 ∧ execCbcm bd ba c s = .next (s.openRecord.clearCalls.endCommand .eBlksz 0)) ∨
    (s.provider.blksz = 16 ∧ s.nextVerdict = .answers ∧ ∃ mac,
      mac = s.provider.cbcMac s.bundle.key (s.readB ba) (chainInput c s) ∧
      execCbcm bd ba c s = .next (((s.openRecord.clearCalls.recordCall s.bundle.key (s.readB ba) (chainInput c s)
        (.ok mac)).writeChained bd c mac).endCommand .ok 0)) ∨
    (s.provider.blksz = 16 ∧ ∃ code, s.nextVerdict = .fails code ∧
      execCbcm bd ba c s = .next ((s.openRecord.clearCalls.recordCall s.bundle.key (s.readB ba) (chainInput c s)
        (.err code)).endCommand .eProvider code)) ∨
    (s.provider.blksz = 16 ∧ s.nextVerdict = .silent ∧
      execCbcm bd ba c s = .next s.openRecord.clearCalls.awaitCipher.leaveWaiting) := by
  by_cases hb : s.provider.blksz = 16
  · have hw : s.openRecord.clearCalls.wrongBlockSize = false := by simp [hb]
    have hrun : execCbcm bd ba c s =
        match cipherCall s.bundle.key (s.readB ba) (chainInput c s) s.openRecord.clearCalls with
        | .noAnswer u => .next u.leaveWaiting
        | .answered (.err code) u => .next (u.endCommand .eProvider code)
        | .answered (.ok mac) u => .next ((u.writeChained bd c mac).endCommand .ok 0) := by
      unfold execCbcm
      simp only [hw, Bool.false_eq_true, if_false]
      rfl
    rcases cipherCall_cases s.bundle.key (s.readB ba) (chainInput c s) s.openRecord.clearCalls with
      ⟨hv, hc⟩ | ⟨code, hv, hc⟩ | ⟨hv, hc⟩
    · exact .inr (.inl ⟨hb, hv, _, rfl, by rw [hrun, hc]; rfl⟩)
    · exact .inr (.inr (.inl ⟨hb, code, hv, by rw [hrun, hc]⟩))
    · exact .inr (.inr (.inr ⟨hb, hv, by rw [hrun, hc]⟩))
  · have hw : s.openRecord.clearCalls.wrongBlockSize = true := by simpa using hb
    refine .inl ⟨hb, ?_⟩
    unfold execCbcm
    simp only [hw, if_true]

/-- All that GENSUBK can do (R141). -/
theorem execGensubk_cases (s : State) :
    (s.provider.blksz ≠ 16 ∧ execGensubk s = .next (s.openRecord.clearCalls.endCommand .eBlksz 0)) ∨
    (s.provider.blksz = 16 ∧ s.nextVerdict = .answers ∧ ∃ mac,
      mac = s.provider.enc s.bundle.key zeroBlock ∧
      execGensubk s = .next (((s.openRecord.clearCalls.recordCall s.bundle.key zeroBlock none (.ok mac)).setSubkeys
        mac).endCommand .ok 0)) ∨
    (s.provider.blksz = 16 ∧ ∃ code, s.nextVerdict = .fails code ∧
      execGensubk s = .next ((s.openRecord.clearCalls.recordCall s.bundle.key zeroBlock none
        (.err code)).endCommand .eProvider code)) ∨
    (s.provider.blksz = 16 ∧ s.nextVerdict = .silent ∧
      execGensubk s = .next s.openRecord.clearCalls.awaitCipher.leaveWaiting) := by
  by_cases hb : s.provider.blksz = 16
  · have hw : s.openRecord.clearCalls.wrongBlockSize = false := by simp [hb]
    have hrun : execGensubk s =
        match cipherCall s.bundle.key zeroBlock none s.openRecord.clearCalls with
        | .noAnswer u => .next u.leaveWaiting
        | .answered (.err code) u => .next (u.endCommand .eProvider code)
        | .answered (.ok mac) u => .next ((u.setSubkeys mac).endCommand .ok 0) := by
      unfold execGensubk
      simp only [hw, Bool.false_eq_true, if_false]
      rfl
    rcases cipherCall_cases s.bundle.key zeroBlock none s.openRecord.clearCalls with ⟨hv, hc⟩ | ⟨code, hv, hc⟩ | ⟨hv, hc⟩
    · exact .inr (.inl ⟨hb, hv, _, rfl, by rw [hrun, hc]; rfl⟩)
    · exact .inr (.inr (.inl ⟨hb, code, hv, by rw [hrun, hc]⟩))
    · exact .inr (.inr (.inr ⟨hb, hv, by rw [hrun, hc]⟩))
  · have hw : s.openRecord.clearCalls.wrongBlockSize = true := by simpa using hb
    refine .inl ⟨hb, ?_⟩
    unfold execGensubk
    simp only [hw, if_true]

end Sys2Proof.Machine
end

