-- ==== Sys2Proof/Laws/Tag.lean ====
section
/-! SUPPORT. The loop of step 6 when its calls are answered: what it leaves, in the terms of the closed form (R167, R173); and
CMAC from its entry up to any block of the loop. -/

namespace Sys2Proof.Machine

/-- The loop's port events from block `j` on, `k` of them. -/
def loopEventsFrom (key : KeyHandle) (enc : Block → Block) (stream : List Byte) (j k : Nat) : List Event :=
  (List.range' j k).flatMap fun i =>
    [.segPull (chunkAt stream (16 * i)),
     .cipher key (streamBlock stream i) (some (chainValue enc stream i)) (.ok (chainValue enc stream (i + 1)))]

theorem loopEvents_eq (key : KeyHandle) (enc : Block → Block) (stream : List Byte) (n : Nat) :
    loopEvents key enc stream n = loopEventsFrom key enc stream 0 n := by
  rw [loopEvents, loopEventsFrom, List.range_eq_range']

/-- Before block `j` of the loop: the cursor stands at its first byte and `CV` holds `C_j`. -/
structure AtBlock (enc : Block → Block) (stream : List Byte) (j : Nat) (s : State) : Prop where
  cursor : s.cursor = some (16 * j)
  cv : s.readB .cv = chainValue enc stream j
  stream : s.stream = stream
  enc : enc = s.provider.enc s.bundle.key

/-- One iteration, answered. -/
theorem pullAndChain_answered {enc : Block → Block} {stream : List Byte} {j : Nat} {s : State} (h : AtBlock enc stream j s)
    (hlen : 16 * (j + 1) ≤ stream.length) (hv : s.nextVerdict = .answers) (hs : s.sourceAnswers.head? ≠ some 0) :
    ∃ t, pullAndChain s = .go t ∧ AtBlock enc stream (j + 1) t ∧ Advanced s t 1 1 ∧
      t.readB .k1 = s.readB .k1 ∧ t.readB .k2 = s.readB .k2 ∧ t.phase = s.phase ∧
      t.sourceAnswers = s.sourceAnswers.modifyHead (· - 1) ∧ t.events = s.events ++ loopEventsFrom s.bundle.key enc stream j 1 := by
  rcases pullAndChain_cases s with ⟨h0, -⟩ | ⟨-, hp⟩
  · exact absurd h0 hs
  · have hchunk : s.nextChunk = chunkAt stream (16 * j) := by rw [State.nextChunk, h.stream, h.cursor]; rfl
    have hm : s.pulled.readB .m = streamBlock stream j := by rw [State.pulled, hchunk]; simp [streamBlock]
    have hcv : s.pulled.readB .cv = chainValue enc stream j := h.cv
    have hmac : s.pulled.chained = chainValue enc stream (j + 1) := by
      rw [State.chained, hm, hcv, chainValue, h.enc]
      rfl
    rcases chainBlock_cases s.pulled with ⟨-, hc⟩ | ⟨code, hf, -⟩ | ⟨hf, -⟩
    · refine ⟨_, hp.trans hc, ⟨?_, ?_, h.stream, h.enc⟩,
        ((Advanced.pulled s).trans (Advanced.recordCall _ _ _ _ _)).trans (Advanced.writeB _ _ _), ?_, ?_, rfl, rfl, ?_⟩
      · show some (min (s.cursor.getD 0 + 16) s.stream.length) = _
        rw [h.stream, h.cursor, Option.getD_some, Nat.min_eq_left (by omega)]
        rfl
      · simp [hmac]
      · simp [State.pulled]
        rfl
      · simp [State.pulled]
        rfl
      · show (s.events ++ [.segPull s.nextChunk]) ++ [.cipher s.pulled.bundle.key (s.pulled.readB .m)
          (some (s.pulled.readB .cv)) (.ok s.pulled.chained)] = _
        rw [hchunk, hm, hcv, hmac]
        simp [loopEventsFrom, List.range', show s.pulled.bundle = s.bundle from rfl]
    · exact absurd (hf.symm.trans hv) (by simp)
    · exact absurd (hf.symm.trans hv) (by simp)

/-- `k` iterations, all answered. -/
theorem chainBlocks_answered {enc : Block → Block} {stream : List Byte} (k : Nat) {j : Nat} {s : State}
    (h : AtBlock enc stream j s) (hlen : 16 * (j + k) ≤ stream.length) (hv : s.callsAnswer k) (hs : s.sourceLasts k) :
    ∃ t, chainBlocks k s = .go t ∧ AtBlock enc stream (j + k) t ∧ Advanced s t k k ∧
      t.readB .k1 = s.readB .k1 ∧ t.readB .k2 = s.readB .k2 ∧ t.phase = s.phase ∧
      t.sourceAnswers = s.sourceAnswers.modifyHead (· - k) ∧ t.events = s.events ++ loopEventsFrom s.bundle.key enc stream j k := by
  induction k generalizing j s with
  | zero =>
    exact ⟨s, rfl, h, Advanced.refl s, rfl, rfl, rfl, by cases s.sourceAnswers <;> simp, by simp [loopEventsFrom]⟩
  | succ k ih =>
    obtain ⟨u, hu, hat, hadv, hk1, hk2, hph, hsrc, hev⟩ :=
      pullAndChain_answered h (by omega) (State.callsAnswer_next hv) (State.sourceLasts_ne hs)
    obtain ⟨t, ht, hat', hadv', hk1', hk2', hph', hsrc', hev'⟩ := ih hat (by omega)
      (State.callsAnswer_tail hv (by rw [hadv.verdicts, List.drop_one])) (State.sourceLasts_pred hs hsrc)
    refine ⟨t, by rw [chainBlocks, hu, Walk.go_andThen, ht], ?_, ?_, hk1'.trans hk1, hk2'.trans hk2, hph'.trans hph, ?_, ?_⟩
    · rw [show j + (k + 1) = j + 1 + k by omega]
      exact hat'
    · rw [Nat.add_comm k 1]
      exact hadv.trans hadv'
    · rw [hsrc', hsrc, List.modifyHead_modifyHead]
      congr 1
      funext m
      simp only [Function.comp_apply]
      omega
    · rw [hev', hev, hadv.bundle, List.append_assoc]
      simp [loopEventsFrom, List.range'_succ]

/-! ## From the entry to a block of the loop -/

/-- Each of the segments is shorter than 2^32 (R11). -/
theorem signedStream_length_le {gs : List Segment} (h : segmentsWithinLength gs) :
    (signedStream gs).length ≤ gs.length * 4294967295 := by
  induction gs with
  | nil => simp [signedStream]
  | cons g rest ih =>
    have hr := ih fun x hx => h x (List.mem_cons_of_mem _ hx)
    have hg : g.data.length < 4294967296 := h g List.mem_cons_self
    rw [signedStream_cons, List.length_append, List.length_cons]
    split
    · omega
    · simp only [List.length_nil]
      omega

/-- Within the limits of R11 no count of CMAC wraps. -/
theorem signedStream_length_lt {c : Command} (h : c.wf) : (signedStream c.bundle.segl).length < 2 ^ 48 - 16 := by
  have hl := signedStream_length_le h.2
  have hc : c.bundle.segl.length ≤ 65535 := h.1
  omega

/-- The loop in two stretches. -/
theorem chainBlocks_add (a b : Nat) (s : State) : chainBlocks (a + b) s = (chainBlocks a s).andThen (chainBlocks b) := by
  induction a generalizing s with
  | zero => simp [chainBlocks]
  | succ a ih =>
    rw [show a + 1 + b = (a + b) + 1 by omega, chainBlocks, chainBlocks]
    cases pullAndChain s with
    | go t => simp [ih]
    | exit => rfl
    | stuck => rfl

/-- CMAC up to block `k` of its loop, every request so far answered. -/
theorem cmac_reaches_block (s : State) (c : Command) (rest : List Input) (n k : Nat) (hin : s.inputs = .command c :: rest)
    (hwf : c.wf) (hn : n = blockCount (signedStream c.bundle.segl).length) (hk : k + 1 ≤ n) (hb : s.provider.blksz = 16)
    (hv : s.callsAnswer (k + 1)) (hs : s.sourceLasts (c.bundle.segl.length + k)) :
    ∃ u : State, cmacSteps (cmacEntry s) = ((chainBlocks (n - 1 - k) u).andThen cmacS7).andThen finishSteps ∧
      AtBlock (s.provider.enc c.bundle.key) (signedStream c.bundle.segl) k u ∧ Advanced s.atLoop u k k ∧ u.phase = .s6 ∧
      u.readB .k1 = doubleBlock (s.provider.enc c.bundle.key zeroBlock) ∧
      u.readB .k2 = doubleBlock (doubleBlock (s.provider.enc c.bundle.key zeroBlock)) ∧
      PlannedFor u (signedStream c.bundle.segl).length ∧ u.csr.idx.toNat = k ∧ u.csr.calls.toNat = k + 1 ∧
      u.bundle = c.bundle ∧ u.verdicts = s.verdicts.drop (k + 1) ∧
      u.sourceAnswers = s.sourceAnswers.modifyHead (· - (c.bundle.segl.length + k)) ∧
      u.events = eventsBeforePull c.bundle (s.provider.enc c.bundle.key) k := by
  have hbun : s.bundle = c.bundle := State.bundle_of_inputs hin
  have hlb := signedStream_length_lt hwf
  have hspec := blockCount_spec (signedStream c.bundle.segl).length
  rw [← hn] at hspec
  have hlen : (BitVec.ofNat 64 (signedStream c.bundle.segl).length).toNat = (signedStream c.bundle.segl).length := by
    rw [BitVec.toNat_ofNat]
    omega
  rcases cmacSteps_cases s with ⟨h, -⟩ | ⟨-, m, h1, h2, -⟩ | ⟨-, -, ⟨h, -⟩ | ⟨code, h, -⟩ | ⟨-, h⟩⟩
  · simp [hb] at h
  · rw [hbun] at h2
    have := hs m h1
    omega
  · rw [State.callsAnswer_next hv] at h
    simp at h
  · rw [State.callsAnswer_next hv] at h
    simp at h
  · have hL : s.atLoop.csr.len = BitVec.ofNat 64 (signedStream c.bundle.segl).length := by
      rw [← hbun]
      rfl
    have hnn : s.atLoop.csr.nblk.toNat = n := by
      rw [s.atLoop_planned.nblk_toNat, hL, hlen, hn]
    have hat : AtBlock (s.provider.enc c.bundle.key) (signedStream c.bundle.segl) 0 s.atLoop := by
      rw [← hbun]
      exact ⟨rfl, rfl, rfl, rfl⟩
    have hsrc : s.atLoop.sourceAnswers = s.sourceAnswers.modifyHead (· - c.bundle.segl.length) := by
      rw [← hbun]
      rfl
    have hs' : s.atLoop.sourceLasts k := by
      intro m hm
      rw [hsrc] at hm
      cases hq : s.sourceAnswers with
      | nil => simp [hq] at hm
      | cons q l =>
        have := hs q (by simp [hq])
        simp [hq] at hm
        omega
    obtain ⟨u, hu, hatu, hadv, hk1, hk2, hph, hsrcu, hev⟩ :=
      chainBlocks_answered k hat (by omega) (State.callsAnswer_tail hv rfl) hs'
    rw [Nat.zero_add] at hatu
    have hplan := s.atLoop_planned
    have hubun : u.bundle = c.bundle := hadv.bundle.trans hbun
    refine ⟨u, ?_, hatu, hadv, hph, ?_, ?_, ⟨?_, ?_, ?_, ?_⟩, ?_, ?_, hubun, ?_, ?_, ?_⟩
    · rw [h, hnn, show n - 1 = k + (n - 1 - k) by omega, chainBlocks_add, hu, Walk.go_andThen]
      simp
    · rw [hk1, ← hbun]
      show doubleBlock (xorBlock _ zeroBlock) = _
      simp [Provider.cbcMac]
    · rw [hk2, ← hbun]
      show doubleBlock (doubleBlock (xorBlock _ zeroBlock)) = _
      simp [Provider.cbcMac]
    · rw [hadv.len, hL, hlen]
    · rw [hadv.nblk, hnn, hn]
    · rw [hadv.rem, hplan.rem, hL, hlen, BitVec.toNat_ofNat, remainder]
      omega
    · rw [hadv.fpad, hplan.fpad, hL, hlen]
    · rw [hadv.idx]
      show ((0 : BitVec 64) + _).toNat = _
      simp
      omega
    · rw [hadv.calls]
      show ((0 : BitVec 64) + 1 + _).toNat = _
      simp
      omega
    · rw [hadv.verdicts, show s.atLoop.verdicts = s.verdicts.tail from rfl, ← List.drop_one, List.drop_drop, Nat.add_comm]
    · rw [hsrcu, hsrc, List.modifyHead_modifyHead]
      congr 1
      funext m
      simp only [Function.comp_apply]
      omega
    · have hle : s.atLoop.events = descEvents 0 c.bundle.segl ++
          [.cipher c.bundle.key zeroBlock none (.ok (s.provider.enc c.bundle.key zeroBlock))] := by
        rw [← hbun]
        rfl
      rw [hev, hle, eventsBeforePull, loopEvents_eq]
      show _ ++ loopEventsFrom s.bundle.key _ _ _ _ = _
      rw [hbun]

end Sys2Proof.Machine
end

