-- ==== Sys2Proof/Tests/Slice0.lean ====
section
/-! SUPPORT. Tests of the model, and a witness for the hypotheses of every statement that has some. Expected values are from
spec/95_test_vectors.md (V1 to V8, P2 to P5) and from the worked examples of the rules named in each comment. The toy provider
TOYROT is the test fixture of section 2 of that file. -/

namespace Sys2Proof.Tests

open Sys2Proof Sys2Proof.Machine

/-! ## Helpers -/

/-- `kt`, the toy key. -/
def toyKey : KeyHandle := ⟨0x000102030405060708090a0b0c0d0e0f⟩

/-- A provider that answers as TOYROT does, at the listed inputs: "rotate the block left by one byte, then XOR the key". -/
def toyRot (key : KeyHandle) (inputs : List Block) : Provider :=
  { ident := 1
    blksz := 16
    known := inputs.map fun x => { key := key, input := x, output := x.rotateLeft 8 ^^^ BitVec.ofNat 128 key.handle } }

/-- The key of V1. -/
def docKey : KeyHandle := ⟨0x2b7e151628aed2a6abf7158809cf4f3c⟩

/-- The provider of V4, at the inputs that case len = 40 uses. -/
def docProvider : Provider :=
  { ident := 2
    blksz := 16
    known :=
      [{ key := docKey, input := 0, output := 0x7df76b0c1ab899b33e42f047b91b546f },
       { key := docKey, input := 0x6bc1bee22e409f96e93d7e117393172a, output := 0x3ad77bb40d7a3660a89ecaf32466ef97 },
       { key := docKey, input := 0xae2d8a571e03ac9c9eb76fac45af8e51 ^^^ 0x3ad77bb40d7a3660a89ecaf32466ef97,
         output := 0xb148c17f309ee692287ae57cf12add49 },
       { key := docKey, input := 0xc715b076c9be82dd790bc11ee46d513b ^^^ 0xb148c17f309ee692287ae57cf12add49,
         output := 0xdfa66747de9ae63030ca32611497c827 }] }

/-- The 40-byte message of V1.3. -/
def docMessage : List Byte :=
  bytesOf 0x6bc1bee22e409f96e93d7e117393172a ++ bytesOf 0xae2d8a571e03ac9c9eb76fac45af8e51 ++
    (bytesOf 0x30c81c46a35ce411e5fbc1191a0a52ef).take 8

/-- The first `k` bytes of the toy message: byte `j` is 0x10 + j. -/
def toyMessage (k : Nat) : List Byte := (List.range k).map fun j => BitVec.ofNat 8 (0x10 + j)

/-- The inputs at which a CMAC of the 33-byte toy message calls TOYROT (the event list at the end of section 6). -/
def toyInputs33 : List Block :=
  [0, 0x101112131415161718191a1b1c1d1e1f,
   0x202122232425262728292a2b2c2d2e2f ^^^ 0x111311171113111f111311171113111f,
   0x3084080c1014181c2024282c3034383c ^^^ 0x3232363632323e3e3232363632323e3e]

def toyBundle : Bundle := { Bundle.empty with key := toyKey }

/-- A CMAC bundle over the toy message. -/
def cmacBundle (gs : List Segment) : Bundle := { toyBundle with segl := gs }

/-- `Enc` known at one block, and one command presented. -/
def presenting (p : Provider) (w : Word) (b : Bundle) : State :=
  { State.reset with provider := p, inputs := [.command { word := w, bundle := b }] }

/-- The buffer under reference 0 replaced. -/
def withBuf (s : State) (b : OutBuf) : State := { s with bufs := [(0, b)] }

/-- A buffer of `n` bytes of ee. -/
def eeBuf (n : Nat) : OutBuf := { cap := BitVec.ofNat 32 n, bytes := (List.range n).map fun a => (a, 0xee), len := 0 }

def withVerdicts (s : State) (vs : List Verdict) : State := { s with verdicts := vs }

def withCsr (s : State) (c : Csrs) : State := { s with csr := c }

/-- What a step shows, where it gives a next state. -/
def shows {α : Type} (o : Host.Outcome State Fault Refusal) (f : State → α) : Option α :=
  match o with
  | .next t => some (f t)
  | .fault _ => none
  | .refused _ => none

/-- What is shown is shown of a next state. -/
theorem next_of_shows {α : Type} {o : Host.Outcome State Fault Refusal} {f : State → α} {a : α} (h : shows o f = some a) :
    ∃ t, o = .next t ∧ f t = a := by
  cases o with
  | next t => exact ⟨t, rfl, Option.some.inj h⟩
  | fault r => cases h
  | refused r => cases h

/-! ## WellFormed: each check refuses an ill-formed term -/

/-- R11: 65535 segments are admitted, 65536 are not. -/
theorem test_segment_count_limit (g : Segment) :
    segmentsWithinCount (List.replicate 65535 g) ∧ ¬ segmentsWithinCount (List.replicate 65536 g) := by
  simp only [segmentsWithinCount, Config.maxSegments, List.length_replicate]
  omega

/-- R11: a segment of 2^32 - 1 bytes is admitted, one of 2^32 bytes is not. -/
theorem test_segment_length_limit (b : Byte) :
    segmentsWithinLength [{ sign := true, data := List.replicate (2 ^ 32 - 1) b }] ∧
    ¬ segmentsWithinLength [{ sign := false, data := List.replicate (2 ^ 32) b }] := by
  simp only [segmentsWithinLength, List.mem_singleton, forall_eq, Segment.len, Config.segmentLimit, List.length_replicate]
  omega

/-- A bundle, and so a command, is refused by either check. -/
theorem test_bundle_refused (g : Segment) (b : Byte) :
    ¬ (cmacBundle (List.replicate 65536 g)).wf ∧
    ¬ (cmacBundle [{ sign := true, data := List.replicate (2 ^ 32) b }]).wf :=
  ⟨fun h => (test_segment_count_limit g).2 h.1, fun h => absurd (h.2 _ (List.mem_singleton.mpr rfl)) (by
    simp only [Segment.len, Config.segmentLimit, List.length_replicate]
    omega)⟩

/-! ## Decoding: words of R93, V7, V8 and P5, and the words written from the bit positions of R81 -/

theorem test_decode_xorb : decode 0x10553000 = .ok (.xorb .m .m .k2) ∧ decode 0x10066000 = .ok (.xorb .z .t0 .t0) := by decide
theorem test_decode_shlb : decode 0x11760000 = .ok (.shlb .t1 .t0) := by decide
theorem test_decode_dblb : decode 0x12210000 = .ok (.dblb .k1 .l) := by decide
theorem test_decode_padb :
    decode 0x13550800 = .ok (.padb .m .m 8) ∧ decode 0x13550F00 = .ok (.padb .m .m 15) ∧
    decode 0x13500000 = .ok (.padb .m .z 0) := by decide
theorem test_decode_ldb : decode 0x20500000 = .ok (.ldb .m) ∧ decode 0x20400000 = .ok (.ldb .cv) := by decide
theorem test_decode_rdb : decode 0x21060000 = .ok (.rdb .t0) ∧ decode 0x21000000 = .ok (.rdb .z) := by decide
theorem test_decode_rdcsr : decode 0x22000700 = .ok (.rdcsr 7) ∧ decode 0x22000F00 = .ok (.rdcsr 15) := by decide
theorem test_decode_zeroize : decode 0x23000000 = .ok .zeroize := by decide
theorem test_decode_cbcm :
    decode 0x30100000 = .ok (.cbcm .l .z false) ∧ decode 0x30050001 = .ok (.cbcm .z .m true) ∧
    decode 0x30650001 = .ok (.cbcm .t0 .m true) := by decide
theorem test_decode_gensubk : decode 0x31000000 = .ok .gensubk := by decide
theorem test_decode_cmac : decode 0x40000000 = .ok .cmac := by decide

/-- R81, field by field: `oooooooo dddd aaaa bbbb iiii 0000000 c`. -/
theorem test_decode_bit_patterns :
    decode 0b00010000_0111_0100_0001_0000_0000000_0 = .ok (.xorb .t1 .cv .l) ∧
    decode 0b00010011_0110_0011_0000_1010_0000000_0 = .ok (.padb .t0 .k2 10) ∧
    decode 0b00100010_0000_0000_0000_0101_0000000_0 = .ok (.rdcsr 5) ∧
    decode 0b00110000_0010_0111_0000_0000_0000000_1 = .ok (.cbcm .k1 .t1 true) := by decide

/-- R52: the opcode is byte 0 of a stored word. -/
theorem test_decode_stored_bytes :
    decodeBytes [0x10, 0x55, 0x30, 0x00, 0xab] = .ok (.xorb .m .m .k2, [0xab]) ∧
    decodeBytes [0x10, 0x55, 0x30] = .error .shortWord := by decide

/-- V7, R87: no command has the opcode. -/
theorem test_decode_unknown_opcode :
    decode 0x00000000 = .error .unknownOpcode ∧ decode 0xFFFFFFFF = .error .unknownOpcode ∧
    decode 0x0F000000 = .error .unknownOpcode ∧ decode 0x14000000 = .error .unknownOpcode ∧
    decode 0x24000000 = .error .unknownOpcode ∧ decode 0x32000000 = .error .unknownOpcode ∧
    decode 0x41000000 = .error .unknownOpcode := by decide

/-- V7, R93: block primitives with a field that is illegal. -/
theorem test_decode_illegal_primitives :
    decode 0x10800000 = .error (.noSuchRegister .bd) ∧ decode 0x10853000 = .error (.noSuchRegister .bd) ∧
    decode 0x10558000 = .error (.noSuchRegister .bb) ∧ decode 0x12280000 = .error (.noSuchRegister .ba) ∧
    decode 0x10553001 = .error (.unusedNotZero .c) ∧ decode 0x10553100 = .error (.unusedNotZero .imm4) ∧
    decode 0x11760100 = .error (.unusedNotZero .imm4) ∧ decode 0x11761000 = .error (.unusedNotZero .bb) ∧
    decode 0x12210001 = .error (.unusedNotZero .c) ∧ decode 0x13551F00 = .error (.unusedNotZero .bb) := by decide

/-- V7, R93: the other commands with a field that is illegal. -/
theorem test_decode_illegal_others :
    decode 0x20510000 = .error (.unusedNotZero .ba) ∧ decode 0x21600000 = .error (.unusedNotZero .bd) ∧
    decode 0x22100000 = .error (.unusedNotZero .bd) ∧ decode 0x22000801 = .error (.unusedNotZero .c) ∧
    decode 0x23000001 = .error (.unusedNotZero .c) ∧ decode 0x30050002 = .error (.unusedNotZero .rsv) ∧
    decode 0x30051001 = .error (.unusedNotZero .bb) ∧ decode 0x31000001 = .error (.unusedNotZero .c) ∧
    decode 0x31100000 = .error (.unusedNotZero .bd) ∧ decode 0x40000001 = .error (.unusedNotZero .c) ∧
    decode 0x40100000 = .error (.unusedNotZero .bd) := by decide

/-! ## The pure functions on blocks (V3) -/

theorem test_xor_block :
    xorBlock 0x0123456789abcdeffedcba9876543210 0xffffffffffffffff0000000000000000 = 0xfedcba9876543210fedcba9876543210 := by
  decide

theorem test_shl_block :
    shlBlock 0x00800000000000000000000000000000 = (0x01000000000000000000000000000000, false) ∧
    shlBlock 0x80000000000000000000000000000001 = (2, true) ∧
    shlBlock 0x0123456789abcdeffedcba9876543210 = (0x02468acf13579bdffdb97530eca86420, false) := by decide

theorem test_double_block :
    doubleBlock 0xc0000000000000000000000000000043 = 0x80000000000000000000000000000001 ∧
    doubleBlock 0xffffffffffffffffffffffffffffffff = 0xffffffffffffffffffffffffffffff79 ∧
    doubleBlock 0x8123456789abcdeffedcba9876543210 = 0x02468acf13579bdffdb97530eca864a7 ∧
    doubleBlock 0x0123456789abcdeffedcba9876543210 = 0x02468acf13579bdffdb97530eca86420 := by decide

theorem test_pad_block :
    padBlock 0x30c81c46a35ce411e5fbc1191a0a52ef 0 = 0x80000000000000000000000000000000 ∧
    padBlock 0x30c81c46a35ce411e5fbc1191a0a52ef 1 = 0x30800000000000000000000000000000 ∧
    padBlock 0x30c81c46a35ce411e5fbc1191a0a52ef 15 = 0x30c81c46a35ce411e5fbc1191a0a5280 ∧
    padBlock 0xffffffffffffffffffffffffffffffff 7 = 0xffffffffffffff800000000000000000 := by decide

/-! ## One step of each command -/

/-- The example of R104: `XORB M, M, K1`. -/
theorem test_xorb_example :
    shows (step (((presenting (toyRot toyKey []) 0x10552000 Bundle.empty).writeB .m 0x6bc1bee22e409f96e93d7e117393172a).writeB .k1
      0xfbeed618357133667c85e08f7236a8de)) (fun t => (t.readB .m, t.readB .k1)) =
    some (0x902f68fa1b31acf095b89e9e01a5bff4, 0xfbeed618357133667c85e08f7236a8de) := by decide

/-- P5: `XORB Z, T0, T0` changes no block register. -/
theorem test_xorb_discards :
    shows (step ((presenting (toyRot toyKey []) 0x10066000 Bundle.empty).writeB .t0 0x10a)) (fun t => (t.readB .z, t.regs)) =
    some (0, { Regs.zero with t0 := 0x10a }) := by decide

/-- The example of R105: `SHLB T1, T0`. -/
theorem test_shlb_example :
    shows (step ((presenting (toyRot toyKey []) 0x11760000 Bundle.empty).writeB .t0 0x80000000000000000000000000000001))
      (fun t => (t.readB .t1, t.csr.carry, t.csr.status, t.csr.calls)) = some (2, true, .ok, 0) := by decide

/-- R105: `bd = 0` only sets `CARRY`. -/
theorem test_shlb_carry_only :
    shows (step ((presenting (toyRot toyKey []) 0x11010000 Bundle.empty).writeB .l 0x80000000000000000000000000000000))
      (fun t => (t.readB .z, t.readB .l, t.csr.carry)) = some (0, 0x80000000000000000000000000000000, true) := by decide

/-- The example of R106: `DBLB K2, K1`. -/
theorem test_dblb_example :
    shows (step ((presenting (toyRot toyKey []) 0x12320000 Bundle.empty).writeB .k1 0xfbeed618357133667c85e08f7236a8de))
      (fun t => (t.readB .k2, t.csr.carry)) = some (0xf7ddac306ae266ccf90bc11ee46d513b, true) := by decide

/-- P5: `DBLB T0, T0` tests the old top bit. -/
theorem test_dblb_in_place :
    shows (step ((presenting (toyRot toyKey []) 0x12660000 Bundle.empty).writeB .t0 0x80000000000000000000000000000001))
      (fun t => (t.readB .t0, t.csr.carry)) = some (0x85, true) := by decide

/-- The example of R107: `PADB M, M, 8`. -/
theorem test_padb_example :
    shows (step ((presenting (toyRot toyKey []) 0x13550800 Bundle.empty).writeB .m 0x30c81c46a35ce411e5fbc1191a0a52ef))
      (fun t => t.readB .m) = some 0x30c81c46a35ce4118000000000000000 := by decide

/-- P3: `PADB M, Z, 0`. -/
theorem test_padb_empty :
    shows (step (presenting (toyRot toyKey []) 0x13500000 Bundle.empty)) (fun t => t.readB .m) =
    some 0x80000000000000000000000000000000 := by decide

/-- The example of R120: byte 0 is 6b, byte 15 is 2a. -/
theorem test_ldb_example :
    shows (step (presenting (toyRot toyKey []) 0x20500000
      { Bundle.empty with data := 0x6bc1bee22e409f96e93d7e117393172a })) (fun t => (byteOf (t.readB .m) 0, byteOf (t.readB .m) 15)) =
    some (0x6b, 0x2a) := by decide

/-- V8.5: `LDB Z` discards the data. -/
theorem test_ldb_zero :
    shows (step (presenting (toyRot toyKey []) 0x20000000
      { Bundle.empty with data := 0xffffffffffffffffffffffffffffffff })) (fun t => (t.readB .z, t.regs)) =
    some (0, Regs.zero) := by decide

/-- P2: `RDB T0`. -/
theorem test_rdb :
    shows (step ((presenting (toyRot toyKey []) 0x21060000 Bundle.empty).writeB .t0 0xdfa66747de9ae63030ca32611497c827))
      (fun t => (t.resp, t.inputs)) =
    some (some { code := .ok, perrv := 0, rdata := 0xdfa66747de9ae63030ca32611497c827 }, []) := by decide

/-- R122: `RDCSR FLAGS` after the CMAC of V4 case len = 40 answers 2. -/
theorem test_rdcsr_flags :
    shows (step (withCsr (presenting (toyRot toyKey []) 0x22000200 Bundle.empty) { Csrs.zero with fpad := true }))
      (fun t => t.resp.map (·.rdata)) = some (some 2) := by decide

/-- V8.8, V8.7: `RDCSR STATUS` after an illegal word answers 4; `RDCSR BLKSZ` answers the provider's 8. -/
theorem test_rdcsr_status_and_blksz :
    shows (step (withCsr (presenting (toyRot toyKey []) 0x22000000 Bundle.empty) { Csrs.zero with status := .eIllegal }))
      (fun t => (t.resp.map (·.rdata), t.csr.status)) = some (some 4, .eIllegal) ∧
    shows (step (presenting { toyRot toyKey [] with blksz := 8 } 0x22000800 Bundle.empty))
      (fun t => t.resp.map (·.rdata)) = some (some 8) := by decide

/-- R123: ZEROIZE clears the block registers and `CARRY` and keeps `FPAD`. -/
theorem test_zeroize :
    shows (step (withCsr ((presenting (toyRot toyKey []) 0x23000000 Bundle.empty).writeB .t1 5)
      { Csrs.zero with carry := true, fpad := true, calls := 1 })) (fun t => (t.regs, t.csr)) =
    some (Regs.zero, { Csrs.zero with fpad := true }) := by decide

/-- V8.2: `CBCM T0, M, 1`: `T0` and `CV` both hold the answer. -/
theorem test_cbcm_chained :
    shows (step (((presenting (toyRot toyKey [0x101112131415161718191a1b1c1d1e1f ^^^ 0xffffffffffffffff0000000000000000])
      0x30650001 toyBundle).writeB .m 0x101112131415161718191a1b1c1d1e1f).writeB .cv 0xffffffffffffffff0000000000000000))
      (fun t => (t.readB .t0, t.readB .cv, t.csr.calls)) =
    some (0xeeeceee8eeecee1f11131117111311e0, 0xeeeceee8eeecee1f11131117111311e0, 1) := by decide

/-- V7.17: `CBCM T0, M, 1` on a failing call writes no register. -/
theorem test_cbcm_failed :
    shows (step { ((presenting (toyRot toyKey []) 0x30650001 toyBundle).writeB .t0 0x66).writeB .cv 0x44 with
      verdicts := [.fails 5] }) (fun t => (t.readB .t0, t.readB .cv, t.csr.status, t.csr.perr, t.csr.calls)) =
    some (0x66, 0x44, .eProvider, 5, 1) := by decide

/-- V2.3: GENSUBK with TOYROT and `kt`. -/
theorem test_gensubk_toy :
    shows (step (presenting (toyRot toyKey [0]) 0x31000000 toyBundle))
      (fun t => (t.readB .l, t.readB .k1, t.readB .k2, t.csr.carry, t.csr.calls)) =
    some (0x000102030405060708090a0b0c0d0e0f, 0x00020406080a0c0e10121416181a1c1e, 0x0004080c1014181c2024282c3034383c,
      false, 1) := by decide

/-- V2.5: both doublings reduce, and `CARRY` is the top bit of `K1`. -/
theorem test_gensubk_reduces :
    shows (step (presenting (toyRot ⟨0xc0000000000000000000000000000000⟩ [0]) 0x31000000
      { Bundle.empty with key := ⟨0xc0000000000000000000000000000000⟩ }))
      (fun t => (t.readB .k1, t.readB .k2, t.csr.carry)) =
    some (0x80000000000000000000000000000087, 0x189, true) := by decide

/-- V4 case len = 40, the message split over two signed segments with an unsigned one between them (R176 (b), (c)), into a
buffer of 20 bytes of ee (V6). -/
theorem test_cmac_document_vector :
    shows (step (withBuf (presenting docProvider 0x40000000
      { Bundle.empty with
        key := docKey
        segl := [{ sign := true, data := docMessage.take 10 }, { sign := false, data := [0xaa, 0xaa] },
          { sign := true, data := docMessage.drop 10 }] }) (eeBuf 20)))
      (fun t => ((List.range 20).map (t.buf 0).bytes.read, (t.buf 0).len, t.csr)) =
    some (bytesOf 0xdfa66747de9ae63030ca32611497c827 ++ [0xee, 0xee, 0xee, 0xee], 16,
      { Csrs.zero with len := 40, nblk := 3, fpad := true, rem := 8, idx := 3, calls := 4 }) := by decide

/-- V7.11: the fourth call fails and the capacity is 15: `E_PROVIDER`, all secrets cleared, the buffer unchanged. -/
theorem test_cmac_failed :
    shows (step (withBuf { (presenting (toyRot toyKey toyInputs33) 0x40000000
      (cmacBundle [{ sign := true, data := toyMessage 33 }])).writeB .t0 0xaa with
        verdicts := [.answers, .answers, .answers, .fails 0xDEAD0001] } (eeBuf 15)))
      (fun t => (t.csr, t.regs, t.bufs, t.events.length)) =
    some ({ Csrs.zero with status := .eProvider, perr := 0xDEAD0001, len := 33, nblk := 3, fpad := true, rem := 1, idx := 3, calls := 4 },
      Regs.zero, [(0, eeBuf 15)], 8) := by decide

/-- V7: the word 0x14000000 reports `E_ILLEGAL` and clears no secret. -/
theorem test_illegal_word :
    shows (step ((presenting (toyRot toyKey []) 0x14000000 Bundle.empty).writeB .k1 7)) (fun t => (t.readB .k1, t.csr.status)) =
    some (7, .eIllegal) := by decide

/-- U16, R230: a CMAC whose second call is never answered is left waiting at step 8 with the block register M in use, and a reset
ends it. -/
theorem test_reset_ends_a_wait :
    let s := withVerdicts { presenting (toyRot toyKey [0]) 0x40000000 (cmacBundle []) with
      inputs := [.command { word := 0x40000000, bundle := cmacBundle [] }, .reset] } [.answers, .silent]
    shows (step s) (fun t => (t.outstanding, t.phase, t.csr.calls, t.resp)) = some (some .cipher, .s8, 2, none) ∧
    shows (step s) (fun t => shows (step t) (fun u => (u.regs, u.csr, u.outstanding, u.phase))) =
      some (some (Regs.zero, Csrs.zero, none, .idle)) := by decide

/-- The host's questions: the word is decoded, and it is the first command after reset. -/
theorem test_fetch_word :
    decodeTableWord 32 0x13550800 = some (.padb .m .m 8) ∧ decodeTableWord 32 0x14000000 = none ∧
    shows (step (State.reset.withFetchWord 32 0x13550800)) (fun t => t.readB .m) = some 0x00000000000000008000000000000000 := by
  decide

/-! ## Witnesses: for every statement with hypotheses, concrete values that meet them together, clause by clause -/

/-- A CMAC of the first `k` bytes of the toy message into the buffer `b`. -/
def cmacOf (k : Nat) (b : OutBuf) : State :=
  withBuf (presenting (toyRot toyKey toyInputs33) 0x40000000 (cmacBundle [{ sign := true, data := toyMessage k }])) b

/-- The command that `cmacOf` presents. -/
def cmacCommand (k : Nat) : Command := { word := 0x40000000, bundle := cmacBundle [{ sign := true, data := toyMessage k }] }

theorem cmacOf_sourceLasts (k n : Nat) (b : OutBuf) : (cmacOf k b).sourceLasts n := fun _ h => by cases h

theorem witness_DoubleTestsTheOriginalTopBit :
    (0x7fffffffffffffffffffffffffffffff : Block).toNat < 2 ^ 127 ∧
    2 ^ 127 ≤ (0x80000000000000000000000000000000 : Block).toNat := by decide

theorem witness_DoublingMultipliesInTheField :
    ∃ poly : Block → Polynomial (ZMod 2), ∀ x : Block,
      poly x = ∑ b ∈ Finset.range 128, if x.getLsbD b then Polynomial.X ^ b else 0 := ⟨_, fun _ => rfl⟩

theorem witness_BlockLaws :
    msbOf 0x80000000000000000000000000000000 = true ∧ msbOf 0x7fffffffffffffffffffffffffffffff = false ∧
    doubleBlock zeroBlock = zeroBlock ∧ ∀ i < (15 : Fin 16).val, byteOf 0 i = byteOf 0xff i := by decide

/-- One word for each case of the match, the immediate at its largest value. -/
theorem witness_EncodeOfDecodeIsTheWord_OperandsAreTheFields :
    decode 0x10776000 = .ok (.xorb .t1 .t1 .t0) ∧ decode 0x11010000 = .ok (.shlb .z .l) ∧
    decode 0x12660000 = .ok (.dblb .t0 .t0) ∧ decode 0x13550F00 = .ok (.padb .m .m 15) ∧
    decode 0x20400000 = .ok (.ldb .cv) ∧ decode 0x21020000 = .ok (.rdb .k1) ∧ decode 0x22000F00 = .ok (.rdcsr 15) ∧
    decode 0x23000000 = .ok .zeroize ∧ decode 0x30450000 = .ok (.cbcm .cv .m false) ∧
    decode 0x31000000 = .ok .gensubk ∧ decode 0x40000000 = .ok .cmac := by decide

theorem witness_DecodeIsMaskAndMatch : (0x13550F00 : Word) &&& rowMask .padb = rowMatch .padb := by decide

/-- Every statement whose only hypothesis is that a destination is not `B[0]`. -/
theorem witness_bd_ne_z : BReg.t1 ≠ .z := by decide

/-- StepExecutesTheDecodedCommand, LdbResultAndFrame, UsageAffectsNothing. -/
theorem witness_StepExecutesTheDecodedCommand :
    (presenting (toyRot toyKey []) 0x20500000 toyBundle).outstanding = none ∧
    (presenting (toyRot toyKey []) 0x20500000 toyBundle).inputs =
      .command { word := 0x20500000, bundle := toyBundle } :: [] ∧
    decode 0x20500000 = .ok (.ldb .m) := ⟨rfl, rfl, by decide⟩

theorem witness_EveryCommandIsAnsweredOnce :
    let s := presenting (toyRot toyKey []) 0x11760000 toyBundle
    s.outstanding = none ∧ s.inputs = .command { word := 0x11760000, bundle := toyBundle } :: [] ∧
      (∃ t, step s = .next t ∧ t.outstanding = none) ∧ s.phase = .idle ∧
      s.cursor = none ∧ (∀ ba, decode 0x11760000 ≠ .ok (.rdb ba)) ∧ ∀ n, decode 0x11760000 ≠ .ok (.rdcsr n) := by
  refine ⟨rfl, rfl, ⟨_, rfl, rfl⟩, rfl, rfl, ?_, ?_⟩
  · intro ba h
    rw [test_decode_shlb] at h
    cases h
  · intro n h
    rw [test_decode_shlb] at h
    cases h

theorem witness_IllegalWordOnlyReports :
    (presenting (toyRot toyKey []) 0x14000000 toyBundle).outstanding = none ∧
    (presenting (toyRot toyKey []) 0x14000000 toyBundle).inputs =
      .command { word := 0x14000000, bundle := toyBundle } :: [] ∧
    ∀ o, (0x14000000 : Word) &&& rowMask o ≠ rowMatch o := ⟨rfl, rfl, fun o => by cases o <;> decide⟩

theorem witness_ResetLeavesTheStatedValues : ({ State.reset with inputs := [.reset] } : State).inputs = .reset :: [] := rfl

theorem witness_BetweenCommandsTheEngineKeepsItsState :
    State.reset.outstanding = none ∧ State.reset.inputs = [] ∧
    ({ State.reset with inputs := [.buffer 0 (eeBuf 20)] } : State).inputs = .buffer 0 (eeBuf 20) :: [] ∧
    (0 : Nat) ≠ 1 ∧
    ({ State.reset with inputs := [.attach docProvider] } : State).inputs = .attach docProvider :: [] :=
  ⟨rfl, rfl, rfl, by decide, rfl⟩

theorem witness_RegisterZeroIsHardwired :
    (∃ ba bb, Instr.xorb .z .t0 .t0 = .xorb .z ba bb) ∧ (∃ ba, Instr.shlb .z .l = .shlb .z ba) ∧
    (∃ ba, Instr.dblb .z .l = .dblb .z ba) ∧ (∃ ba v, Instr.padb .z .m 15 = .padb .z ba v) ∧ Instr.ldb .z = .ldb .z ∧
    State.reset.provider.blksz = 16 ∧ State.reset.nextVerdict = .answers :=
  ⟨⟨_, _, rfl⟩, ⟨_, rfl⟩, ⟨_, rfl⟩, ⟨_, _, rfl⟩, rfl, rfl, rfl⟩

theorem witness_RdcsrAnswersAndChangesNothing :
    (0 : Fin 16).val = 0 ∧ (1 : Fin 16).val = 1 ∧ (2 : Fin 16).val = 2 ∧ (3 : Fin 16).val = 3 ∧ (4 : Fin 16).val = 4 ∧
    (5 : Fin 16).val = 5 ∧ (6 : Fin 16).val = 6 ∧ (7 : Fin 16).val = 7 ∧ (8 : Fin 16).val = 8 ∧ 9 ≤ (9 : Fin 16).val ∧
    9 ≤ (15 : Fin 16).val := by decide

theorem witness_CbcmAnsweredResultAndFrame :
    let s := presenting (toyRot toyKey []) 0x30650001 toyBundle
    s.inputs = .command { word := 0x30650001, bundle := toyBundle } :: [] ∧ s.provider.blksz = 16 ∧
      s.nextVerdict = .answers ∧ BReg.t0 ≠ .z := by decide

/-- CbcmErrorsWriteNoRegister and GensubkErrorsWriteNoRegister, both clauses. -/
theorem witness_ErrorsWriteNoRegister :
    (presenting { toyRot toyKey [] with blksz := 8 } 0x30650001 toyBundle).provider.blksz ≠ 16 ∧
    let s := withVerdicts (presenting (toyRot toyKey []) 0x30650001 toyBundle) [.fails 5]
    s.provider.blksz = 16 ∧ s.nextVerdict = .fails 5 := by decide

theorem witness_GensubkAnsweredResultAndFrame :
    let s := presenting (toyRot toyKey []) 0x31000000 toyBundle
    s.inputs = .command { word := 0x31000000, bundle := toyBundle } :: [] ∧ s.provider.blksz = 16 ∧
      s.nextVerdict = .answers := by decide

theorem witness_GensubkEqualsThePrimitiveSequence :
    let s := presenting (toyRot toyKey []) 0x31000000 toyBundle
    ∃ u : State, s.outstanding = none ∧ s.provider.blksz = 16 ∧ s.nextVerdict = .answers ∧
      s.inputs = .command { word := 0x31000000, bundle := toyBundle } :: [] ∧
      u = { s with inputs := [.command { word := 0x30100000, bundle := toyBundle },
        .command { word := 0x10110000, bundle := Bundle.empty }, .command { word := 0x12210000, bundle := Bundle.empty },
        .command { word := 0x12320000, bundle := Bundle.empty }] ++ [] } :=
  ⟨_, rfl, rfl, rfl, rfl, rfl⟩

/-- A silent provider with a source that lasts, and a source that answers one descriptor of two; the last part has its own
witness, after this one. -/
theorem witness_UnansweredCommandsAreLeftWaiting :
    (let s : State := withVerdicts { cmacOf 33 (eeBuf 16) with sourceAnswers := [1] } [.silent];
      s.provider.blksz = 16 ∧ s.nextVerdict = .silent ∧ s.sourceLasts s.bundle.segl.length) ∧
    (let s : State := { presenting (toyRot toyKey []) 0x40000000
        (cmacBundle [{ sign := true, data := [1] }, { sign := false, data := [] }]) with sourceAnswers := [1] };
      s.provider.blksz = 16 ∧ ¬ s.sourceLasts s.bundle.segl.length) := by
  refine ⟨⟨rfl, rfl, fun m h => ?_⟩, rfl, fun h => absurd (h 1 rfl) (by decide)⟩
  cases h
  decide

/-- The first and the last block (j = 1 and j = n = 3) of a message of 33 bytes: the pull is not answered, and the call is not. -/
theorem witness_UnansweredCommandsAreLeftWaiting_blocks :
    ∀ j ∈ [1, 3],
      ((cmacCommand 33).wf ∧ 33 = (signedStream (cmacCommand 33).bundle.segl).length ∧ 3 = blockCount 33 ∧ 1 ≤ j ∧ j ≤ 3 ∧
        (cmacCommand 33).bundle.segl.length = 1) ∧
      (let s : State := { cmacOf 33 (eeBuf 16) with sourceAnswers := [j] };
        s.provider.blksz = 16 ∧ s.inputs = .command (cmacCommand 33) :: [] ∧ s.callsAnswer j ∧ s.sourceLasts (1 + (j - 1)) ∧
          ¬ s.sourceLasts (1 + j)) ∧
      let s := withVerdicts (cmacOf 33 (eeBuf 16)) (List.replicate j .answers ++ [.silent])
      s.provider.blksz = 16 ∧ s.inputs = .command (cmacCommand 33) :: [] ∧ s.callsAnswer j ∧ s.sourceLasts (1 + j) ∧
        (s.verdicts.drop j).head? = some .silent := by
  intro j hj
  have h1 : 1 ≤ j ∧ j ≤ 3 := by
    revert j
    decide
  refine ⟨⟨by decide, by decide, by decide, h1.1, h1.2, rfl⟩, ⟨rfl, rfl, fun v hv => ?_, fun m h => ?_, fun h => ?_⟩,
    rfl, rfl, ?_, cmacOf_sourceLasts 33 _ (eeBuf 16), ?_⟩
  · simp [cmacOf, withBuf, presenting, State.reset] at hv
  · cases h
    omega
  · have := h j rfl
    omega
  · revert j
    unfold State.callsAnswer
    decide
  · revert j
    decide

/-- A waiting engine with a reset next, with a command next, and with nothing next. -/
theorem witness_OnlyResetEndsAWait :
    let s : State := { State.reset with outstanding := some .cipher, phase := .s3 }
    s.outstanding = some .cipher ∧ ({ s with inputs := [.reset] } : State).inputs = .reset :: [] ∧
      (∀ rest, ({ s with inputs := [.command (cmacCommand 0), .reset] } : State).inputs ≠ .reset :: rest) ∧
      ∀ rest, s.inputs ≠ .reset :: rest :=
  ⟨rfl, rfl, fun _ h => (by cases h), fun _ h => (by cases h)⟩

theorem witness_EveryAnsweredCommandEnds :
    let s := withVerdicts (cmacOf 33 (eeBuf 16)) [.answers, .fails 5]
    (∀ v ∈ s.verdicts, v ≠ .silent) ∧ s.sourceAnswers = [] := by decide

theorem witness_FinalBlockPlanIsConsistent : (1 : Nat) ≠ 0 := by decide

/-- At the start, at the last full chunk, and at the end of the stream. -/
theorem witness_SegPullYieldsTheStreamInOrder :
    ∀ pos ∈ [0, 17, 33],
      let s : State := { cmacOf 33 (eeBuf 16) with cursor := some pos, sourceAnswers := [1] }
      s.cursor = some pos ∧ s.sourceLasts 1 ∧ pos ≤ (signedStream s.bundle.segl).length := by
  intro pos hpos
  refine ⟨rfl, fun m h => ?_, ?_⟩
  · cases h
    decide
  · revert pos
    decide

theorem cmacOf_buffersWf (k : Nat) : (cmacOf k (eeBuf 16)).BuffersWf :=
  ⟨fun p hp => by
    cases List.mem_singleton.mp hp
    show (eeBuf 16).wf
    decide, by
    show [0].Nodup
    decide⟩

/-- CmacWritesTheClosedFormTag and CmacPortEventsInOrder: the empty message and a message of 33 bytes, the capacity at its
bound, and both forms of an offset (below 16 and not) and of another reference. -/
theorem witness_CmacWritesTheClosedFormTag :
    ∀ k ∈ [0, 33], let s := cmacOf k (eeBuf 16)
      s.inputs = .command (cmacCommand k) :: [] ∧ (cmacCommand k).wf ∧ s.BuffersWf ∧
      k = (signedStream (cmacCommand k).bundle.segl).length ∧ s.provider.blksz = 16 ∧
      16 ≤ (s.buf (cmacCommand k).bundle.out).cap.toNat ∧ s.callsAnswer (blockCount k + 1) ∧
      s.sourceLasts ((cmacCommand k).bundle.segl.length + blockCount k) ∧ 15 < 16 ∧ ¬ 16 < 16 ∧
      1 ≠ (cmacCommand k).bundle.out := by
  intro k hk
  refine ⟨rfl, ?_, cmacOf_buffersWf k, ?_, rfl, Nat.le_refl 16, fun v hv => ?_, cmacOf_sourceLasts _ _ _, by decide,
    by decide, Nat.one_ne_zero⟩
  · revert k
    decide
  · revert k
    decide
  · cases hv

theorem witness_CmacBlockSizeMismatchTouchesNoPort :
    (presenting { toyRot toyKey [] with blksz := 8 } 0x40000000 (cmacBundle [])).provider.blksz ≠ 16 := by decide

/-- The subkey call (j = 0) and the last call (j = n = 3) of a message of 33 bytes. -/
theorem witness_CmacEndsAtTheFailedCall :
    ∀ j ∈ [0, 3], let s := withVerdicts (cmacOf 33 (eeBuf 16)) (List.replicate j .answers ++ [.fails 0xDEAD0001])
      s.inputs = .command (cmacCommand 33) :: [] ∧ (cmacCommand 33).wf ∧
      33 = (signedStream (cmacCommand 33).bundle.segl).length ∧ 3 = blockCount 33 ∧ j ≤ 3 ∧ s.provider.blksz = 16 ∧
      s.callsAnswer j ∧ (s.verdicts.drop j).head? = some (.fails 0xDEAD0001) ∧
      s.sourceLasts ((cmacCommand 33).bundle.segl.length + j) := by
  intro j hj
  refine ⟨rfl, by decide, by decide, by decide, ?_, rfl, ?_, ?_, cmacOf_sourceLasts 33 _ (eeBuf 16)⟩
  · revert j
    decide
  · revert j
    unfold State.callsAnswer
    decide
  · revert j
    decide

/-- Capacities 0 and 15. -/
theorem witness_CmacOutcapViolationWritesNothing :
    ∀ cap ∈ [0, 15], let s := cmacOf 33 (eeBuf cap)
      s.inputs = .command (cmacCommand 33) :: [] ∧ (cmacCommand 33).wf ∧ s.provider.blksz = 16 ∧
      (s.buf (cmacCommand 33).bundle.out).cap.toNat < 16 ∧
      s.callsAnswer (blockCount (signedStream (cmacCommand 33).bundle.segl).length + 1) ∧
      s.sourceLasts ((cmacCommand 33).bundle.segl.length + 3) := by
  intro cap hcap
  refine ⟨rfl, by decide, rfl, ?_, fun v hv => ?_, cmacOf_sourceLasts _ _ _⟩
  · revert cap
    decide
  · cases hv

/-- CmacClearsSecretsOnEveryExit, CmacCallCount, OnlySuccessfulCmacWritesOutput, CodesEachCommandCanEndWith: CMAC with each of
its four codes. -/
theorem witness_CmacCodes :
    (cmacOf 33 (eeBuf 16)).inputs = .command (cmacCommand 33) :: [] ∧ (cmacCommand 33).wf ∧
    (∃ t, exec .cmac (cmacOf 33 (eeBuf 16)) = .next t ∧ (t.outstanding, t.csr.status) = (none, .ok)) ∧
    (∃ t, exec .cmac (cmacOf 33 (eeBuf 15)) = .next t ∧ (t.outstanding, t.csr.status) = (none, .eOutcap)) ∧
    (∃ t, exec .cmac (withVerdicts (cmacOf 33 (eeBuf 16)) [.fails 5]) = .next t ∧
      (t.outstanding, t.csr.status) = (none, .eProvider)) ∧
    ∃ t, exec .cmac (presenting { toyRot toyKey [] with blksz := 8 } 0x40000000 (cmacBundle [])) = .next t ∧
      (t.outstanding, t.csr.status) = (none, .eBlksz) :=
  ⟨rfl, by decide, next_of_shows (by decide), next_of_shows (by decide), next_of_shows (by decide),
    next_of_shows (by decide)⟩

/-- The message in two segments, with an unsigned one. -/
theorem witness_CmacDependsOnlyOnTheSignedStream :
    let s := cmacOf 33 (eeBuf 16)
    let gs : List Segment := [{ sign := true, data := toyMessage 5 }, { sign := false, data := [0xaa] },
      { sign := true, data := (toyMessage 33).drop 5 }]
    s.inputs = .command (cmacCommand 33) :: [] ∧ signedStream gs = signedStream (cmacCommand 33).bundle.segl ∧
      s.sourceAnswers = [] := by decide

/-- Registers, CSRs, phase, cursor, record and response differ. -/
theorem witness_CmacIsIndependentOfHistory :
    let s := cmacOf 33 (eeBuf 16)
    ∃ s' : State, s'.readB .l ≠ s.readB .l ∧ s'.csr.carry ≠ s.csr.carry ∧ s'.cursor ≠ s.cursor ∧ s'.inputs = s.inputs ∧
      s'.provider = s.provider ∧ s'.verdicts = s.verdicts ∧ s'.sourceAnswers = s.sourceAnswers ∧ s'.bufs = s.bufs :=
  ⟨{ ((cmacOf 33 (eeBuf 16)).writeB .l 1).setCarry true with cursor := some 7 }, by decide, by decide, by decide, rfl, rfl,
    rfl, rfl, rfl⟩

/-- Another key, another provider and other bytes of the same lengths. -/
theorem witness_CmacCsrsRevealNoSecret :
    let s := cmacOf 33 (eeBuf 16)
    let s' := withBuf (presenting docProvider 0x40000000
      { cmacBundle [{ sign := true, data := docMessage.take 33 }] with key := docKey }) (eeBuf 16)
    (∃ c, s.inputs = .command c :: [] ∧ ∃ c', s'.inputs = .command c' :: [] ∧
      c'.bundle.key ≠ c.bundle.key ∧
      c'.bundle.segl.map (fun g => (g.sign, g.len)) = c.bundle.segl.map (fun g => (g.sign, g.len)) ∧
      (s'.buf c'.bundle.out).cap = (s.buf c.bundle.out).cap) ∧
    s'.provider.blksz = s.provider.blksz ∧ s'.verdicts = s.verdicts ∧ s'.sourceAnswers = s.sourceAnswers :=
  ⟨⟨_, rfl, _, rfl, by decide, by decide, by decide⟩, rfl, rfl, rfl⟩

/-- A CMAC that ends with `OK` writes the buffer it names. -/
theorem witness_OnlySuccessfulCmacWritesOutput :
    ∃ t, exec .cmac (cmacOf 33 (eeBuf 16)) = .next t ∧ ¬ BufferSame (cmacOf 33 (eeBuf 16)) t 0 := by
  obtain ⟨t, ht, hlen⟩ := next_of_shows (o := exec .cmac (cmacOf 33 (eeBuf 16))) (f := fun t => (t.buf 0).len) (a := 16) (by decide)
  refine ⟨t, ht, fun h => ?_⟩
  have := h.2.1
  rw [hlen] at this
  exact absurd this (by decide)

/-- SHLB changes `CARRY`, CMAC the driver's CSRs; RDB and RDCSR end in a next state. -/
theorem witness_EachCsrHasItsWriters :
    (let s := (presenting (toyRot toyKey []) 0x11010000 toyBundle).writeB .l 0x80000000000000000000000000000000;
      ∃ t, exec (.shlb .z .l) s = .next t ∧ t.csr.carry ≠ s.csr.carry) ∧
    (∃ t, exec .cmac (cmacOf 33 (eeBuf 16)) = .next t ∧ ¬ DriverCsrsSame (cmacOf 33 (eeBuf 16)) t) ∧
    (∃ t, exec (.rdb .t0) State.reset = .next t) ∧ ∃ t, exec (.rdcsr 3) State.reset = .next t := by
  refine ⟨⟨_, rfl, by decide⟩, ?_, ⟨_, rfl⟩, _, rfl⟩
  obtain ⟨t, ht, hlen⟩ := next_of_shows (o := exec .cmac (cmacOf 33 (eeBuf 16))) (f := fun t => t.csr.len) (a := 33) (by decide)
  refine ⟨t, ht, fun h => ?_⟩
  have := h.1
  rw [hlen] at this
  exact absurd this (by decide)

theorem witness_CarryIsAnOutputOnly : Instr.shlb .t1 .t0 ≠ .rdcsr 2 ∧ Instr.rdcsr 0 ≠ .rdcsr 2 := by decide

/-- A next state after a command of each group of the statement, and a code other than `E_PROVIDER`. -/
theorem witness_CodesEachCommandCanEndWith :
    (∃ t, exec .zeroize State.reset = .next t ∧ t.outstanding = none) ∧
    (∃ t, exec (.xorb .m .m .k1) State.reset = .next t ∧ t.outstanding = none) ∧
    (∃ t, exec .gensubk (presenting { toyRot toyKey [] with blksz := 8 } 0x31000000 toyBundle) = .next t ∧
      t.outstanding = none) ∧
    (∃ t, exec (.cbcm .t0 .m true) (presenting { toyRot toyKey [] with blksz := 8 } 0x30650001 toyBundle) = .next t ∧
      t.outstanding = none) ∧ Code.ok ≠ .eProvider :=
  ⟨⟨_, rfl, rfl⟩, ⟨_, rfl, rfl⟩, ⟨_, rfl, rfl⟩, ⟨_, rfl, rfl⟩, by decide⟩

/-- A state with a CMAC and a reset ahead, and its next state. -/
theorem witness_StepKeepsTheInvariant :
    let s : State := withVerdicts { cmacOf 33 (eeBuf 16) with inputs := [.command (cmacCommand 33), .reset] } [.fails 5]
    s.Inv ∧ ∃ t, step s = .next t := by
  refine ⟨⟨⟨?_, ?_⟩, ⟨(cmacOf_buffersWf 33).each, (cmacOf_buffersWf 33).once⟩, fun _ => ⟨rfl, rfl, .inl ⟨rfl, rfl, rfl, rfl⟩,
    ⟨by decide, fun _ => rfl, fun h => (by cases h), fun h => (by cases h)⟩⟩, fun _ h => (by cases h), by decide⟩, ?_⟩
  · intro x hx
    rcases List.mem_pair.mp hx with rfl | rfl
    · show (cmacCommand 33).wf
      decide
    · trivial
  · intro v hv
    cases List.mem_singleton.mp hv
    show (5 : ErrCode) ≠ 0
    decide
  · obtain ⟨t, ht, _⟩ := next_of_shows (o := step (withVerdicts { cmacOf 33 (eeBuf 16) with
      inputs := [.command (cmacCommand 33), .reset] } [.fails 5])) (f := fun t => t.csr.status) (a := .eProvider) (by decide)
    exact ⟨t, ht⟩

end Sys2Proof.Tests
end

section
/-! PROOF. The integer value of a block as a sum over its bytes (spec/00_scope.md R13, spec/20_memory.md R51). -/

namespace Sys2Proof.Machine

theorem bytesValue_eq_sum (n : Nat) (bs : List Byte) :
    bytesValue n bs = ∑ i ∈ Finset.range n, (bs.getD i 0).toNat * 256 ^ (n - 1 - i) := by
  induction n generalizing bs with
  | zero => rfl
  | succ n ih =>
    cases bs with
    | nil => simp [bytesValue]
    | cons b bs =>
      rw [bytesValue, ih, Finset.sum_range_succ', Nat.add_comm]
      simp [Nat.sub_sub, Nat.add_comm 1]

theorem toNat_blockOf (bs : List Byte) : (blockOf bs).toNat = bytesValue 16 bs :=
  Nat.mod_eq_of_lt (bytesValue_lt 16 bs)

/-- Settles O1: a block is the block of its sixteen bytes, whose value is a base-256 sum. -/
theorem blockIntegerIsBigEndianByteSum : Obligations.BlockIntegerIsBigEndianByteSum := by
  intro x
  calc x.toNat
      = bytesValue 16 (bytesOf x) := by rw [← toNat_blockOf, blockOf_bytesOf]
    _ = ∑ i ∈ Finset.range 16, ((bytesOf x).getD i 0).toNat * 256 ^ (15 - i) := bytesValue_eq_sum 16 _
    _ = ∑ i ∈ Finset.range 16, (byteOf x i).toNat * 2 ^ (8 * (15 - i)) :=
      Finset.sum_congr rfl fun i hi => by
        rw [bytesOf_getD x i (Finset.mem_range.mp hi), pow_mul, show 2 ^ 8 = 256 by rfl]

end Sys2Proof.Machine
end

section
/-! PROOF. What a command other than CMAC, or an illegal word, can do (spec/10_state.md R30, R200, R204), and the invariant:
it holds at reset and every step keeps it (spec/10_state.md R40, R43). -/

namespace Sys2Proof.Machine

/-! ## What every command but CMAC can do -/

/-- The body of a command that is not the driver, before it ends or is left waiting: `calls` calls were made, and the
sequencer and the cursor stand as before. -/
structure PlainBody (s u : State) (calls : Nat) : Prop where
  advanced : Advanced s.openRecord.clearCalls u 0 calls
  phase : u.phase = s.phase
  cursor : u.cursor = s.cursor

/-- The code, the error value and the number of calls with which a command that is not the driver can end (R200, R204). -/
inductive PlainResult (s : State) : Code → ErrCode → Nat → Prop where
  | ok (calls : Nat) : PlainResult s .ok 0 calls
  | blksz : PlainResult s .eBlksz 0 0
  | illegal : PlainResult s .eIllegal 0 0
  | provider (code : ErrCode) (failed : s.nextVerdict = .fails code) : PlainResult s .eProvider code 1

/-- All that a command other than CMAC, or an illegal word, can do: it reads out (RDB, RDCSR), it ends with a code, or it is
left waiting for its one call. -/
inductive PlainEffect (s t : State) : Prop where
  | readout (rdata : Block) (after : t = s.openRecord.respond .ok 0 rdata)
  | ended (u : State) (code : Code) (pcode : ErrCode) (calls : Nat) (body : PlainBody s u calls)
      (result : PlainResult s code pcode calls) (after : t = u.endCommand code pcode)
  | waiting (u : State) (body : PlainBody s u 1) (request : u.outstanding = some .cipher) (after : t = u.leaveWaiting)

theorem PlainBody.start (s : State) : PlainBody s s.openRecord.clearCalls 0 := ⟨Advanced.refl _, rfl, rfl⟩

theorem PlainBody.writeB {s u : State} {calls : Nat} (h : PlainBody s u calls) (r : BReg) (v : Block) :
    PlainBody s (u.writeB r v) calls :=
  ⟨h.advanced.trans (Advanced.writeB u r v), h.phase, h.cursor⟩

theorem PlainBody.setCarry {s u : State} {calls : Nat} (h : PlainBody s u calls) (c : Bool) :
    PlainBody s (u.setCarry c) calls :=
  ⟨h.advanced.trans (p' := 0) (c' := 0) (by constructor <;> simp), h.phase, h.cursor⟩

theorem PlainBody.clearSecrets {s u : State} {calls : Nat} (h : PlainBody s u calls) : PlainBody s u.clearSecrets calls :=
  ⟨h.advanced.trans (p' := 0) (c' := 0) (by constructor <;> simp), h.phase, h.cursor⟩

theorem PlainBody.setSubkeys {s u : State} {calls : Nat} (h : PlainBody s u calls) (mac : Block) :
    PlainBody s (u.setSubkeys mac) calls :=
  ⟨h.advanced.trans (Advanced.setSubkeys u mac), h.phase, h.cursor⟩

theorem PlainBody.writeChained {s u : State} {calls : Nat} (h : PlainBody s u calls) (bd : BReg) (c : Bool) (mac : Block) :
    PlainBody s (u.writeChained bd c mac) calls := by
  cases c with
  | false => exact h.writeB bd mac
  | true => exact (h.writeB .cv mac).writeB bd mac

theorem PlainBody.recordCall (s : State) (key : KeyHandle) (blk : Block) (iv : Option Block) (a : CipherAnswer) :
    PlainBody s (s.openRecord.clearCalls.recordCall key blk iv a) 1 :=
  ⟨Advanced.recordCall _ _ _ _ _, rfl, rfl⟩

theorem PlainBody.awaitCipher (s : State) : PlainBody s s.openRecord.clearCalls.awaitCipher 1 :=
  ⟨Advanced.awaitCipher _, rfl, rfl⟩

/-- A body that ends without an error. -/
theorem PlainBody.endsOk {s u : State} {calls : Nat} (h : PlainBody s u calls) : PlainEffect s (u.endCommand .ok 0) :=
  .ended u .ok 0 calls h (.ok calls) rfl

theorem takeIllegal_effect (s : State) : PlainEffect s (takeIllegal s) :=
  .ended _ .eIllegal 0 0 (.start s) .illegal rfl

theorem execCbcm_effect (bd ba : BReg) (c : Bool) (s : State) : ∃ t, execCbcm bd ba c s = .next t ∧ PlainEffect s t := by
  rcases execCbcm_cases bd ba c s with ⟨-, h⟩ | ⟨-, -, mac, -, h⟩ | ⟨-, code, hf, h⟩ | ⟨-, -, h⟩
  · exact ⟨_, h, .ended _ .eBlksz 0 0 (.start s) .blksz rfl⟩
  · exact ⟨_, h, ((PlainBody.recordCall s _ _ _ _).writeChained bd c mac).endsOk⟩
  · exact ⟨_, h, .ended _ .eProvider code 1 (.recordCall s _ _ _ _) (.provider code hf) rfl⟩
  · exact ⟨_, h, .waiting _ (.awaitCipher s) rfl rfl⟩

theorem execGensubk_effect (s : State) : ∃ t, execGensubk s = .next t ∧ PlainEffect s t := by
  rcases execGensubk_cases s with ⟨-, h⟩ | ⟨-, -, mac, -, h⟩ | ⟨-, code, hf, h⟩ | ⟨-, -, h⟩
  · exact ⟨_, h, .ended _ .eBlksz 0 0 (.start s) .blksz rfl⟩
  · exact ⟨_, h, ((PlainBody.recordCall s _ _ _ _).setSubkeys mac).endsOk⟩
  · exact ⟨_, h, .ended _ .eProvider code 1 (.recordCall s _ _ _ _) (.provider code hf) rfl⟩
  · exact ⟨_, h, .waiting _ (.awaitCipher s) rfl rfl⟩

/-- Every command but CMAC gives a next state, and `PlainEffect` says which. -/
theorem exec_plainEffect {i : Instr} (hi : i ≠ .cmac) (s : State) : ∃ t, exec i s = .next t ∧ PlainEffect s t := by
  have start := PlainBody.start s
  cases i with
  | xorb bd ba bb => exact ⟨_, rfl, (start.writeB bd _).endsOk⟩
  | shlb bd ba => exact ⟨_, rfl, ((start.writeB bd _).setCarry _).endsOk⟩
  | dblb bd ba => exact ⟨_, rfl, ((start.writeB bd _).setCarry _).endsOk⟩
  | padb bd ba imm4 => exact ⟨_, rfl, (start.writeB bd _).endsOk⟩
  | ldb bd => exact ⟨_, rfl, (start.writeB bd _).endsOk⟩
  | rdb ba => exact ⟨_, rfl, .readout _ rfl⟩
  | rdcsr imm4 => exact ⟨_, rfl, .readout _ rfl⟩
  | zeroize => exact ⟨_, rfl, start.clearSecrets.endsOk⟩
  | cbcm bd ba c => exact execCbcm_effect bd ba c s
  | gensubk => exact execGensubk_effect s
  | cmac => exact absurd rfl hi

theorem plainEffect_of_exec {i : Instr} (hi : i ≠ .cmac) {s t : State} (h : exec i s = .next t) : PlainEffect s t := by
  obtain ⟨u, hu, effect⟩ := exec_plainEffect hi s
  cases hu.symm.trans h
  exact effect

theorem PlainBody.driverCsrs {s u : State} {calls : Nat} (h : PlainBody s u calls) : DriverCsrsSame s u :=
  ⟨h.advanced.len, h.advanced.nblk, h.advanced.rem, by rw [h.advanced.idx]; simp, h.advanced.fpad⟩

theorem PlainEffect.driverCsrs {s t : State} (h : PlainEffect s t) : DriverCsrsSame s t := by
  cases h with
  | readout _ after => subst after; exact ⟨rfl, rfl, rfl, rfl, rfl⟩
  | ended u code pcode calls body _ after => subst after; exact body.driverCsrs
  | waiting u body _ after => subst after; exact body.driverCsrs

theorem PlainEffect.bufs {s t : State} (h : PlainEffect s t) : t.bufs = s.bufs := by
  cases h with
  | readout _ after => subst after; rfl
  | ended u code pcode calls body _ after => subst after; exact body.advanced.bufs
  | waiting u body _ after => subst after; exact body.advanced.bufs

theorem PlainEffect.inputs {s t : State} (h : PlainEffect s t) : t.inputs = afterCommand s.inputs := by
  cases h with
  | readout _ after => subst after; rfl
  | ended u code pcode calls body _ after => subst after; exact congrArg afterCommand body.advanced.inputs
  | waiting u body _ after => subst after; exact congrArg afterCommand body.advanced.inputs

theorem PlainEffect.verdicts {s t : State} (h : PlainEffect s t) : ∃ k, t.verdicts = s.verdicts.drop k := by
  cases h with
  | readout _ after => subst after; exact ⟨0, rfl⟩
  | ended u code pcode calls body _ after => subst after; exact ⟨calls, body.advanced.verdicts⟩
  | waiting u body _ after => subst after; exact ⟨1, body.advanced.verdicts⟩

/-! ## The parts of the invariant -/

theorem Csrs.codesFit_zero : Csrs.zero.CodesFit :=
  ⟨by decide, fun _ => rfl, nofun, nofun⟩

theorem Csrs.CodesFit.of_ok {c : Csrs} (hs : c.status = .ok) (hp : c.perr = 0) : c.CodesFit := by
  constructor <;> simp [hs, hp]

theorem Csrs.CodesFit.of_noCall {c : Csrs} (hs : c.status = .eBlksz ∨ c.status = .eIllegal) (hp : c.perr = 0)
    (hc : c.calls = 0) : c.CodesFit := by
  rcases hs with hs | hs <;> constructor <;> simp [hs, hp, hc]

theorem Csrs.CodesFit.of_provider {c : Csrs} (hs : c.status = .eProvider) (hp : c.perr ≠ 0) (hc : 1 ≤ c.calls.toNat) :
    c.CodesFit :=
  ⟨⟨fun _ => hs, fun _ => hp⟩, by simp [hs], fun _ => hc, by simp [hs]⟩

theorem Csrs.CodesFit.of_outcap {c : Csrs} (hs : c.status = .eOutcap) (hp : c.perr = 0)
    (hc : c.calls.toNat = c.nblk.toNat + 1) (hi : c.idx = c.nblk) : c.CodesFit := by
  constructor <;> simp [hs, hp, hc, hi]

/-- `Planned` speaks of the driver's CSRs alone. -/
theorem Csrs.Planned.of_driverCsrs {s t : State} (h : s.csr.Planned) (same : DriverCsrsSame s t) : t.csr.Planned := by
  obtain ⟨len, nblk, rem, idx, fpad⟩ := same
  rw [Csrs.Planned, len, nblk, rem, idx, fpad]
  exact h

/-- A provider's code is not zero (R58). -/
theorem State.OutsideWf.failed_ne_zero {s : State} (h : s.OutsideWf) {k : Nat} {code : ErrCode}
    (hf : (s.verdicts.drop k).head? = some (.fails code)) : code ≠ 0 :=
  h.verdicts (.fails code) (List.mem_of_mem_drop (List.mem_of_head? hf))

/-- Taking a command off the port and spending verdicts leaves the outside within its contracts. -/
theorem State.OutsideWf.spent {s t : State} (h : s.OutsideWf) (hi : t.inputs = afterCommand s.inputs)
    (hv : ∃ k, t.verdicts = s.verdicts.drop k) : t.OutsideWf := by
  obtain ⟨k, hv⟩ := hv
  constructor
  · intro x hx
    exact h.inputs x (mem_of_mem_afterCommand (hi ▸ hx))
  · intro v hmem
    exact h.verdicts v (List.mem_of_mem_drop (hv ▸ hmem))

theorem State.BuffersWf.of_bufs {s t : State} (h : s.BuffersWf) (hb : t.bufs = s.bufs) : t.BuffersWf :=
  ⟨hb ▸ h.each, hb ▸ h.once⟩

/-- The invariant of a state with no request outstanding. -/
theorem State.Inv.of_idle {t : State} (outside : t.OutsideWf) (buffers : t.BuffersWf) (idle : t.Idle)
    (answered : t.outstanding = none) (lenBound : t.csr.len.toNat < 2 ^ 48) : t.Inv :=
  ⟨outside, buffers, fun _ => idle, fun port h => by simp [answered] at h, lenBound⟩

/-- The invariant of a state with a request outstanding. -/
theorem State.Inv.of_waiting {t : State} {port : Port} (outside : t.OutsideWf) (buffers : t.BuffersWf)
    (request : t.outstanding = some port) (phase : t.phase ∈ waitingPhases port) (silent : t.resp = none)
    (lenBound : t.csr.len.toNat < 2 ^ 48) : t.Inv := by
  refine ⟨outside, buffers, fun h => by simp [request] at h, fun q hq => ?_, lenBound⟩
  cases request.symm.trans hq
  exact ⟨phase, silent⟩

/-! ## Every command but CMAC keeps the invariant -/

theorem PlainResult.codesFit {s u : State} {code : Code} {pcode : ErrCode} {calls : Nat} (body : PlainBody s u calls)
    (result : PlainResult s code pcode calls) (outside : s.OutsideWf) : (u.endCommand code pcode).csr.CodesFit := by
  have hcalls : u.csr.calls = BitVec.ofNat 64 calls := by rw [body.advanced.calls]; simp
  cases result with
  | ok => exact .of_ok rfl rfl
  | blksz => exact .of_noCall (.inl rfl) rfl hcalls
  | illegal => exact .of_noCall (.inr rfl) rfl hcalls
  | provider code failed =>
    refine .of_provider rfl (outside.failed_ne_zero (k := 0) (State.nextVerdict_fails failed)) ?_
    show 1 ≤ u.csr.calls.toNat
    rw [hcalls]
    decide

theorem PlainEffect.keeps_inv {s t : State} (h : PlainEffect s t) (inv : s.Inv) (ho : s.outstanding = none) : t.Inv := by
  have idle := inv.idle ho
  have outside := inv.outside.spent h.inputs h.verdicts
  have buffers := inv.buffers.of_bufs h.bufs
  have planned := idle.planned.of_driverCsrs h.driverCsrs
  have lenBound : t.csr.len.toNat < 2 ^ 48 := h.driverCsrs.1 ▸ inv.lenBound
  cases h with
  | readout _ after =>
    subst after
    exact .of_idle outside buffers ⟨idle.phase, idle.noCursor, planned, idle.codes⟩ rfl lenBound
  | ended u code pcode calls body result after =>
    subst after
    exact .of_idle outside buffers
      ⟨body.phase.trans idle.phase, body.cursor.trans idle.noCursor, planned, result.codesFit body inv.outside⟩ rfl lenBound
  | waiting u body request after =>
    subst after
    refine .of_waiting outside buffers request ?_ rfl lenBound
    rw [State.leaveWaiting_phase, body.phase, idle.phase]
    decide

/-! ## CMAC keeps the invariant -/

theorem CmacPlanned.planned {t : State} (h : CmacPlanned t) (hi : t.csr.idx.toNat ≤ t.csr.nblk.toNat) : t.csr.Planned := by
  refine .inr ⟨h.nblk_toNat, h.fpad, ?_, hi⟩
  rw [h.rem, BitVec.toNat_ofNat, remainder]
  omega

/-- `NBLK` is far from the end of its range, so that counts up to `NBLK + 1` do not wrap. -/
theorem CmacPlanned.nblk_lt {t : State} (h : CmacPlanned t) : t.csr.nblk.toNat < 2 ^ 63 := by
  have := (blockCount_spec t.csr.len.toNat).2.1
  have := t.csr.len.isLt
  rw [h.nblk_toNat]
  omega

theorem CmacPlanned.calls_toNat {t : State} (h : CmacPlanned t) (hc : t.csr.calls = t.csr.nblk + 1) :
    t.csr.calls.toNat = t.csr.nblk.toNat + 1 := by
  have := h.nblk_lt
  rw [hc, BitVec.toNat_add]
  exact Nat.mod_eq_of_lt (by simp; omega)

/-- A CMAC that ends leaves the engine idle and its CSRs fitting together. -/
theorem CmacEnd.idle {s t : State} (h : CmacEnd s t) (outside : s.OutsideWf) : t.Idle := by
  cases h with
  | blksz _ exit _ nblk rem fpad idx calls =>
    obtain ⟨status, perr, -⟩ := exit.ended
    exact ⟨exit.phase, exit.cursor, .inl ⟨nblk, rem, fpad, idx⟩, .of_noCall (.inl status) perr calls⟩
  | subkeys _ code exit _ nblk rem fpad idx calls _ _ failed =>
    obtain ⟨status, perr, -⟩ := exit.ended
    have hcode : code ≠ 0 := outside.failed_ne_zero (k := 0) failed
    exact ⟨exit.phase, exit.cursor, .inl ⟨nblk, rem, fpad, idx⟩,
      .of_provider status (perr ▸ hcode) (by rw [calls]; decide)⟩
  | block _ code j hj exit _ planned idx calls _ _ failed =>
    obtain ⟨status, perr, -⟩ := exit.ended
    have hcode : code ≠ 0 := outside.failed_ne_zero failed
    have := planned.nblk_lt
    refine ⟨exit.phase, exit.cursor, planned.planned ?_, .of_provider status (perr ▸ hcode) ?_⟩
    · rw [idx, BitVec.toNat_ofNat]
      omega
    · rw [calls, BitVec.toNat_ofNat]
      omega
  | outcap _ _ exit _ planned idx calls =>
    obtain ⟨status, perr, -⟩ := exit.ended
    exact ⟨exit.phase, exit.cursor, planned.planned (by rw [idx]),
      .of_outcap status perr (planned.calls_toNat calls) idx⟩
  | success _ _ tag exit _ planned idx =>
    obtain ⟨status, perr, -⟩ := exit.ended
    exact ⟨exit.phase, exit.cursor, planned.planned (by rw [idx]), .of_ok status perr⟩

theorem CmacEnd.inputs_outstanding {s t : State} (h : CmacEnd s t) :
    t.inputs = afterCommand s.inputs ∧ t.outstanding = none := by
  cases h <;> rename CmacExit _ _ _ _ => exit <;> exact exit.ended.2.2.2

theorem CmacEnd.verdicts_drop {s t : State} (h : CmacEnd s t) : ∃ k, t.verdicts = s.verdicts.drop k := by
  cases h <;> rename t.verdicts = _ => verdicts
  case blksz => exact ⟨0, verdicts⟩
  all_goals exact ⟨_, verdicts⟩

theorem CmacEnd.len_cases {s t : State} (h : CmacEnd s t) : t.csr.len = 0 ∨ CmacLen s t := by
  cases h
  case blksz len _ _ _ _ _ _ _ _ _ => exact .inl len
  all_goals exact .inr ‹_›

theorem CmacEnd.buffersWf {s t : State} (h : CmacEnd s t) (buffers : s.BuffersWf) : t.BuffersWf := by
  cases h <;> rename t.bufs = _ => bufs
  case success cap tag _ _ _ _ _ _ => exact buffers.put (OutBuf.wf_withTag (buffers.buf _) cap tag) bufs
  all_goals exact buffers.of_bufs bufs

/-- `LEN` is below 2^48 where the command is within the limits of R11 (R35). -/
theorem lenBound_of_cmac {s t : State} {c : Command} (hbun : s.bundle = c.bundle) (hwf : c.wf)
    (h : t.csr.len = 0 ∨ CmacLen s t) : t.csr.len.toNat < 2 ^ 48 := by
  rcases h with h | h
  · rw [h]
    decide
  · have := signedStream_length_lt hwf
    rw [h, hbun, BitVec.toNat_ofNat]
    omega

theorem execCmac_keeps_inv {s t : State} {c : Command} {rest : List Input} (inv : s.Inv) (hin : s.inputs = .command c :: rest)
    (h : execCmac s = .next t) : t.Inv := by
  have hbun := State.bundle_of_inputs hin
  have hwf : c.wf := inv.outside.inputs (.command c) (hin ▸ List.mem_cons_self)
  rcases execCmac_cases s with ⟨u, port, hu, waits⟩ | ⟨u, hu, ends⟩
  · cases hu.symm.trans h
    obtain ⟨request, -, -, silent, hi, -⟩ := waits.left
    exact .of_waiting (inv.outside.spent hi waits.verdicts) (inv.buffers.of_bufs waits.bufs) request waits.inPhase silent
      (lenBound_of_cmac hbun hwf waits.len)
  · cases hu.symm.trans h
    obtain ⟨hi, ho⟩ := ends.inputs_outstanding
    exact .of_idle (inv.outside.spent hi ends.verdicts_drop) (ends.buffersWf inv.buffers) (ends.idle inv.outside) ho
      (lenBound_of_cmac hbun hwf ends.len_cases)

/-! ## Every step keeps the invariant -/

theorem step_command_keeps_inv {s t : State} {c : Command} {rest : List Input} (inv : s.Inv) (ho : s.outstanding = none)
    (hin : s.inputs = .command c :: rest) (h : step s = .next t) : t.Inv := by
  rw [step_of_command ho hin] at h
  cases hd : decode c.word with
  | error e =>
    rw [hd] at h
    cases h
    exact (takeIllegal_effect s).keeps_inv inv ho
  | ok i =>
    rw [hd] at h
    by_cases hi : i = .cmac
    · subst hi
      exact execCmac_keeps_inv inv hin h
    · exact (plainEffect_of_exec hi h).keeps_inv inv ho

theorem State.OutsideWf.tail {s t : State} (h : s.OutsideWf) {x : Input} (hin : s.inputs = x :: t.inputs)
    (hv : t.verdicts = s.verdicts) : t.OutsideWf :=
  ⟨fun y hy => h.inputs y (hin ▸ List.mem_cons_of_mem x hy), hv ▸ h.verdicts⟩

theorem reset_keeps_inv {s : State} {rest : List Input} (inv : s.Inv) (hin : s.inputs = .reset :: rest) :
    State.Inv { s.applyReset with inputs := rest } :=
  .of_idle (inv.outside.tail hin rfl) (inv.buffers.of_bufs rfl)
    ⟨rfl, rfl, .inl ⟨rfl, rfl, rfl, rfl⟩, Csrs.codesFit_zero⟩ rfl
    (show Csrs.zero.len.toNat < 2 ^ 48 by decide)

theorem buffer_keeps_inv {s : State} {ref : Nat} {b : OutBuf} {rest : List Input} (inv : s.Inv) (ho : s.outstanding = none)
    (hin : s.inputs = .buffer ref b :: rest) : State.Inv { s with bufs := putBuf s.bufs ref b, inputs := rest } := by
  have hb : b.wf := inv.outside.inputs (.buffer ref b) (hin ▸ List.mem_cons_self)
  obtain ⟨phase, noCursor, planned, codes⟩ := inv.idle ho
  exact .of_idle (inv.outside.tail hin rfl) (inv.buffers.put hb rfl) ⟨phase, noCursor, planned, codes⟩ ho inv.lenBound

theorem attach_keeps_inv {s : State} {p : Provider} {rest : List Input} (inv : s.Inv) (ho : s.outstanding = none)
    (hin : s.inputs = .attach p :: rest) : State.Inv { s with provider := p, inputs := rest } := by
  obtain ⟨phase, noCursor, planned, codes⟩ := inv.idle ho
  exact .of_idle (inv.outside.tail hin rfl) (inv.buffers.of_bufs rfl) ⟨phase, noCursor, planned, codes⟩ ho inv.lenBound

/-- An engine that waits takes a reset only. -/
theorem step_waiting_inputs {s t : State} {port : Port} (ho : s.outstanding = some port) (h : step s = .next t) :
    ∃ rest, s.inputs = .reset :: rest := by
  by_contra hno
  rw [step_of_wait ho fun rest hin => hno ⟨rest, hin⟩] at h
  cases h

/-- Settles O55: by what the step takes; a command by `PlainEffect`, or by the two ways of CMAC, to wait or to end. -/
theorem stepKeepsTheInvariant : Obligations.StepKeepsTheInvariant := by
  intro s t inv h
  cases ho : s.outstanding with
  | some port =>
    obtain ⟨rest, hin⟩ := step_waiting_inputs ho h
    cases (step_of_reset hin).symm.trans h
    exact reset_keeps_inv inv hin
  | none =>
    rcases hin : s.inputs with _ | ⟨c | ⟨ref, b⟩ | p | _, rest⟩
    · cases (step_of_nothing ho hin).symm.trans h
      exact inv
    · exact step_command_keeps_inv inv ho hin h
    · cases (step_of_buffer ho hin).symm.trans h
      exact buffer_keeps_inv inv ho hin
    · cases (step_of_attach ho hin).symm.trans h
      exact attach_keeps_inv inv ho hin
    · cases (step_of_reset hin).symm.trans h
      exact reset_keeps_inv inv hin

/-- Settles O54: nothing is presented, the one buffer is empty, and every CSR is zero. -/
theorem invariantHoldsAtReset : Obligations.InvariantHoldsAtReset :=
  .of_idle ⟨nofun, nofun⟩ ⟨by decide, by decide⟩ ⟨rfl, rfl, .inl ⟨rfl, rfl, rfl, rfl⟩, Csrs.codesFit_zero⟩ rfl (by decide)

end Sys2Proof.Machine
end

section
/-! PROOF. Which command writes what (spec/10_state.md R22, R30, R33, R42, spec/20_memory.md R61), and what a reset leaves
(spec/10_state.md R45, spec/70_reset_and_hazards.md R230). -/

namespace Sys2Proof.Machine

/-! ## The output buffers -/

theorem CmacEnd.bufferSame {s t : State} (h : CmacEnd s t) {ref : Nat} (hne : ¬(t.csr.status = .ok ∧ ref = s.bundle.out)) :
    BufferSame s t ref := by
  cases h <;> rename t.bufs = _ => bufs
  case success exit _ _ _ _ _ =>
    have href : ref ≠ s.bundle.out := fun h => hne ⟨exit.ended.1, h⟩
    have : t.buf ref = s.buf ref := by simp [State.buf, bufs, href]
    simp [BufferSame, this]
  all_goals exact BuffersSame.of_bufs bufs ref

/-- Settles O50: every other command, and a CMAC that waits, leaves the list of buffers alone; a CMAC that ends changes it
with `OK` only. -/
theorem onlySuccessfulCmacWritesOutput : Obligations.OnlySuccessfulCmacWritesOutput := by
  intro i s t ref h changed
  by_cases hi : i = .cmac
  · subst hi
    rcases execCmac_cases s with ⟨u, port, hu, waits⟩ | ⟨u, hu, ends⟩
    · cases hu.symm.trans h
      exact absurd (BuffersSame.of_bufs waits.bufs ref) changed
    · cases hu.symm.trans h
      by_contra hne
      exact changed (ends.bufferSame fun ⟨status, out⟩ => hne ⟨rfl, ends.inputs_outstanding.2, status, out⟩)
  · exact absurd (BuffersSame.of_bufs (plainEffect_of_exec hi h).bufs ref) changed

/-! ## The CSRs -/

theorem execCbcm_carry {bd ba : BReg} {c : Bool} {s t : State} (h : execCbcm bd ba c s = .next t) :
    t.csr.carry = s.csr.carry := by
  rcases execCbcm_cases bd ba c s with ⟨-, hu⟩ | ⟨-, -, mac, -, hu⟩ | ⟨-, code, -, hu⟩ | ⟨-, -, hu⟩ <;>
    cases hu.symm.trans h <;> simp

theorem exec_carry {i : Instr} (hi : i.opcode ∉ [Opcode.shlb, .dblb, .gensubk, .cmac, .zeroize]) {s t : State}
    (h : exec i s = .next t) : t.csr.carry = s.csr.carry := by
  cases i with
  | shlb | dblb | gensubk | cmac | zeroize => simp [Instr.opcode] at hi
  | cbcm bd ba c => exact execCbcm_carry h
  | xorb | padb | ldb | rdb | rdcsr => cases h; rfl

theorem exec_readout {i : Instr} (hi : i.opcode ∈ [Opcode.rdb, .rdcsr]) {s t : State} (h : exec i s = .next t) :
    t.csr = s.csr ∧ t.regs = s.regs := by
  cases i with
  | rdb | rdcsr => cases h; exact ⟨rfl, rfl⟩
  | _ => simp [Instr.opcode] at hi

/-- Settles O51: `CARRY` command by command, the driver's CSRs by `PlainEffect`. -/
theorem eachCsrHasItsWriters : Obligations.EachCsrHasItsWriters := by
  refine fun i s t h => ⟨fun changed => ?_, fun changed => ?_, fun hi => exec_readout hi h⟩
  · by_contra hi
    exact changed (exec_carry hi h)
  · by_contra hi
    exact changed (plainEffect_of_exec hi h).driverCsrs

/-! ## Reset -/

theorem State.readCsr_of_csr_zero {s : State} (h : s.csr = Csrs.zero) {n : Fin 16} (hn : n.val ≠ 8) : s.readCsr n = 0 := by
  unfold State.readCsr
  rw [h]
  split
  case h_9 h8 => exact absurd h8 hn
  all_goals rfl

/-- Settles O17: the step takes the reset in every state, and a reset zeroes registers and CSRs. -/
theorem resetLeavesTheStatedValues : Obligations.ResetLeavesTheStatedValues := by
  refine ⟨⟨State.readB_of_regs_zero rfl, fun n hn => State.readCsr_of_csr_zero rfl hn, rfl, rfl, rfl⟩, ?_⟩
  intro s rest hin
  exact ⟨_, step_of_reset hin, State.readB_of_regs_zero rfl, fun n hn => State.readCsr_of_csr_zero rfl hn, rfl, rfl, rfl, rfl,
    rfl, rfl, BuffersSame.of_bufs rfl, rfl⟩

/-! ## Register 0 -/

/-- Settles O19: a write to `B[0]` is no write (`State.writeB_z`), so each command ends in the state it would end in without
one. -/
theorem registerZeroIsHardwired : Obligations.RegisterZeroIsHardwired := by
  refine fun s => ⟨rfl, fun _ => rfl, ?_, fun ba ch hb hv => ?_⟩
  · rintro i (⟨ba, bb, rfl⟩ | ⟨ba, rfl⟩ | ⟨ba, rfl⟩ | ⟨ba, v, rfl⟩ | rfl) <;>
      exact ⟨_, rfl, fun _ _ => rfl, rfl, rfl, rfl, rfl, rfl, rfl⟩
  · rcases execCbcm_cases .z ba ch s with ⟨hw, -⟩ | ⟨-, -, mac, -, hu⟩ | ⟨-, code, hf, -⟩ | ⟨-, hq, -⟩
    · exact absurd hb hw
    · refine ⟨_, hu, fun r hr => ?_, by simp, by simp [EndedWith]⟩
      have hcv : ¬(ch = true ∧ r = .cv) := by
        rintro ⟨rfl, rfl⟩
        simp at hr
      simp [hcv]
    · simp [hv] at hf
    · simp [hv] at hq

end Sys2Proof.Machine
end

section
/-! PROOF. Two runs of CMAC side by side: what stands in each step when its request is answered, fails or falls silent, the
relation between two walks, and what it gives for whole commands. -/

namespace Sys2Proof.Machine

/-! ## The steps with a request, by what becomes of it -/

theorem segDesc_of_silent {s : State} (h : s.sourceAnswers.head? = some 0) (i : Nat) (g : Segment) :
    segDesc i g s = .noAnswer s.awaitSegment := by
  rcases segDesc_cases i g s with ⟨-, hd⟩ | ⟨hne, -⟩
  · exact hd
  · exact absurd h hne

theorem segDesc_of_answer {s : State} (h : s.sourceAnswers.head? ≠ some 0) (i : Nat) (g : Segment) :
    segDesc i g s = .answered (g.sign, g.len) (s.afterDesc i g) := by
  rcases segDesc_cases i g s with ⟨h0, -⟩ | ⟨-, hd⟩
  · exact absurd h0 h
  · exact hd

theorem segPull_of_silent {s : State} (h : s.sourceAnswers.head? = some 0) : segPull s = .noAnswer s.awaitSegment := by
  rcases segPull_cases s with ⟨-, hp⟩ | ⟨hne, -⟩
  · exact hp
  · exact absurd h hne

theorem segPull_of_answer {s : State} (h : s.sourceAnswers.head? ≠ some 0) :
    segPull s = .answered s.nextChunk s.afterPull := by
  rcases segPull_cases s with ⟨h0, -⟩ | ⟨-, hp⟩
  · exact absurd h0 h
  · exact hp

theorem cmacS1_of_wrong {s : State} (h : s.wrongBlockSize = true) : cmacS1 s = .exit .eBlksz 0 (s.enterPhase .s1) :=
  if_pos h

theorem cmacS1_of_right {s : State} (h : s.wrongBlockSize = false) : cmacS1 s = .go (s.enterPhase .s1) :=
  if_neg (by rw [State.enterPhase_wrongBlockSize, h]; decide)

/-- The answer to the request of step 3. -/
def State.subkeyMac (s : State) : Block := s.provider.cbcMac s.bundle.key zeroBlock none

theorem cmacS3_of_answers {s : State} (h : s.nextVerdict = .answers) :
    cmacS3 s = .go (((s.enterPhase .s3).recordCall s.bundle.key zeroBlock none (.ok s.subkeyMac)).setSubkeys s.subkeyMac) := by
  rw [cmacS3, cipherCall_answers (s := s.enterPhase .s3) h]
  rfl

theorem cmacS3_of_fails {s : State} {code : ErrCode} (h : s.nextVerdict = .fails code) :
    cmacS3 s = .exit .eProvider code ((s.enterPhase .s3).recordCall s.bundle.key zeroBlock none (.err code)) := by
  rw [cmacS3, cipherCall_fails (s := s.enterPhase .s3) h]
  rfl

theorem cmacS3_of_silent {s : State} (h : s.nextVerdict = .silent) : cmacS3 s = .stuck (s.enterPhase .s3).awaitCipher := by
  rw [cmacS3, cipherCall_silent (s := s.enterPhase .s3) h]

theorem chainBlock_of_answers {s : State} (h : s.nextVerdict = .answers) :
    chainBlock s =
      .go ((s.recordCall s.bundle.key (s.readB .m) (some (s.readB .cv)) (.ok s.chained)).writeB .cv s.chained) := by
  rw [chainBlock, cipherCall_answers h]
  rfl

theorem chainBlock_of_fails {s : State} {code : ErrCode} (h : s.nextVerdict = .fails code) :
    chainBlock s = .exit .eProvider code (s.recordCall s.bundle.key (s.readB .m) (some (s.readB .cv)) (.err code)) := by
  rw [chainBlock, cipherCall_fails h]

theorem chainBlock_of_silent {s : State} (h : s.nextVerdict = .silent) : chainBlock s = .stuck s.awaitCipher := by
  rw [chainBlock, cipherCall_silent h]

theorem pullAndChain_of_silent {s : State} (h : s.sourceAnswers.head? = some 0) : pullAndChain s = .stuck s.awaitSegment := by
  rw [pullAndChain, segPull_of_silent h]

theorem pullAndChain_of_answer {s : State} (h : s.sourceAnswers.head? ≠ some 0) : pullAndChain s = chainBlock s.pulled := by
  rw [pullAndChain, segPull_of_answer h]
  rfl

theorem cmacS7_of_silent {s : State} (h : s.sourceAnswers.head? = some 0) :
    cmacS7 s = .stuck (s.enterPhase .s7).awaitSegment := by
  rw [cmacS7, segPull_of_silent (s := s.enterPhase .s7) h]

theorem cmacS7_of_answer {s : State} (h : s.sourceAnswers.head? ≠ some 0) :
    cmacS7 s = .go ((s.enterPhase .s7).afterPull.writeB .m
      (maskFinal (s.enterPhase .s7).afterPull (blockOf (s.enterPhase .s7).nextChunk))) := by
  rw [cmacS7, segPull_of_answer (s := s.enterPhase .s7) h]

theorem cmacS9_of_small {s : State} (h : (s.buf s.bundle.out).cap.toNat < 16) :
    cmacS9 s = .exit .eOutcap 0 (s.enterPhase .s9) :=
  if_pos h

theorem cmacS9_of_room {s : State} (h : ¬(s.buf s.bundle.out).cap.toNat < 16) :
    cmacS9 s = .go ((s.enterPhase .s9).writeTag s.bundle.out (s.readB .cv)) :=
  if_neg h

/-! ## Two walks side by side -/

/-- Two walks go the same way: both go on, both leave with the same codes, or both wait, in related states. -/
inductive Walk.Related (onGo onExit onStuck : State → State → Prop) : Walk → Walk → Prop where
  | go {s s' : State} (h : onGo s s') : Related onGo onExit onStuck (.go s) (.go s')
  | exit {s s' : State} (code : Code) (pcode : ErrCode) (h : onExit s s') :
      Related onGo onExit onStuck (.exit code pcode s) (.exit code pcode s')
  | stuck {s s' : State} (h : onStuck s s') : Related onGo onExit onStuck (.stuck s) (.stuck s')

variable {onGo onGo' onExit onStuck : State → State → Prop}

theorem Walk.Related.andThen {w w' : Walk} {f f' : State → Walk} (h : Related onGo onExit onStuck w w')
    (hf : ∀ s s', onGo s s' → Related onGo' onExit onStuck (f s) (f' s')) :
    Related onGo' onExit onStuck (w.andThen f) (w'.andThen f') := by
  cases h with
  | go h => exact hf _ _ h
  | exit code pcode h => exact .exit code pcode h
  | stuck h => exact .stuck h

/-- Walks from one and the same state. -/
theorem Walk.Related.refl (hExit : ∀ s, onExit s s) (hStuck : ∀ s, onStuck s s) (w : Walk) :
    Related Eq onExit onStuck w w := by
  cases w with
  | go s => exact .go rfl
  | exit code pcode s => exact .exit code pcode (hExit s)
  | stuck s => exact .stuck (hStuck s)

/-- Two CMAC commands whose steps go the same way end, or are left waiting, in related states. -/
theorem execCmac_related {s s' : State} {R : State → State → Prop}
    (h : Walk.Related onGo onExit onStuck (cmacSteps (cmacEntry s)) (cmacSteps (cmacEntry s')))
    (hGo : ∀ u u', onGo u u' → R (cmacExit .ok 0 u) (cmacExit .ok 0 u'))
    (hExit : ∀ code pcode u u', onExit u u' → R (cmacExit code pcode u) (cmacExit code pcode u'))
    (hStuck : ∀ u u', onStuck u u' → R u.leaveWaiting u'.leaveWaiting) :
    ∃ t t', execCmac s = .next t ∧ execCmac s' = .next t' ∧ R t t' := by
  generalize hw : cmacSteps (cmacEntry s) = w at h
  generalize hw' : cmacSteps (cmacEntry s') = w' at h
  cases h with
  | go h => exact ⟨_, _, execCmac_go hw, execCmac_go hw', hGo _ _ h⟩
  | exit code pcode h => exact ⟨_, _, execCmac_exit hw, execCmac_exit hw', hExit code pcode _ _ h⟩
  | stuck h => exact ⟨_, _, execCmac_stuck hw, execCmac_stuck hw', hStuck _ _ h⟩

end Sys2Proof.Machine
end

section
/-! PROOF. No command's result depends on `CARRY` (spec/10_state.md R33). -/

namespace Sys2Proof.Machine

/-- `t` is `s` with some value of `CARRY`. -/
def ApartInCarry (s t : State) : Prop := ∃ b, t = s.setCarry b

theorem ApartInCarry.refl (s : State) : ApartInCarry s s := ⟨s.csr.carry, rfl⟩

theorem ApartInCarry.setCarry_eq {s t : State} (h : ApartInCarry s t) : t = s.setCarry t.csr.carry := by
  obtain ⟨b, rfl⟩ := h
  rfl

/-! ## CMAC -/

theorem cmacS1_setCarry (b : Bool) (s : State) :
    Walk.Related ApartInCarry ApartInCarry ApartInCarry (cmacS1 s) (cmacS1 (s.setCarry b)) := by
  cases hw : s.wrongBlockSize with
  | true =>
    rw [cmacS1_of_wrong hw, cmacS1_of_wrong (s := s.setCarry b) hw]
    exact .exit _ _ ⟨b, rfl⟩
  | false =>
    rw [cmacS1_of_right hw, cmacS1_of_right (s := s.setCarry b) hw]
    exact .go ⟨b, rfl⟩

theorem sumLengths_setCarry (b : Bool) (gs : List Segment) (i total : Nat) (s : State) :
    Walk.Related ApartInCarry ApartInCarry ApartInCarry (sumLengths gs i total s) (sumLengths gs i total (s.setCarry b)) := by
  induction gs generalizing i total s with
  | nil => exact .go ⟨b, rfl⟩
  | cons g rest ih =>
    rw [sumLengths, sumLengths]
    by_cases h0 : s.sourceAnswers.head? = some 0
    · rw [segDesc_of_silent h0, segDesc_of_silent (s := s.setCarry b) h0]
      exact .stuck ⟨b, rfl⟩
    · rw [segDesc_of_answer h0, segDesc_of_answer (s := s.setCarry b) h0]
      exact ih (i + 1) _ (s.afterDesc i g)

/-- Step 3 writes `CARRY` without reading it: from there on the two runs are one. -/
theorem cmacS3_setCarry (b : Bool) (s : State) :
    Walk.Related Eq ApartInCarry ApartInCarry (cmacS3 s) (cmacS3 (s.setCarry b)) := by
  cases hv : s.nextVerdict with
  | answers =>
    rw [cmacS3_of_answers hv, cmacS3_of_answers (s := s.setCarry b) hv]
    exact .go rfl
  | fails code =>
    rw [cmacS3_of_fails hv, cmacS3_of_fails (s := s.setCarry b) hv]
    exact .exit _ _ ⟨b, rfl⟩
  | silent =>
    rw [cmacS3_of_silent hv, cmacS3_of_silent (s := s.setCarry b) hv]
    exact .stuck ⟨b, rfl⟩

theorem cmacSteps_setCarry (b : Bool) (s : State) :
    Walk.Related Eq ApartInCarry ApartInCarry (cmacSteps s) (cmacSteps (s.setCarry b)) := by
  have one (f : State → Walk) : ∀ u u', u = u' → Walk.Related Eq ApartInCarry ApartInCarry (f u) (f u') := by
    rintro u _ rfl
    exact .refl ApartInCarry.refl ApartInCarry.refl (f u)
  have s2 : ∀ u u', ApartInCarry u u' → Walk.Related ApartInCarry ApartInCarry ApartInCarry (cmacS2 u) (cmacS2 u') := by
    rintro u _ ⟨b, rfl⟩
    exact sumLengths_setCarry b u.bundle.segl 0 0 (u.enterPhase .s2)
  have s3 : ∀ u u', ApartInCarry u u' → Walk.Related Eq ApartInCarry ApartInCarry (cmacS3 u) (cmacS3 u') := by
    rintro u _ ⟨b, rfl⟩
    exact cmacS3_setCarry b u
  exact ((((((((cmacS1_setCarry b s).andThen s2).andThen s3).andThen (one cmacS4)).andThen (one cmacS5)).andThen
    (one cmacS6)).andThen (one cmacS7)).andThen (one cmacS8)).andThen (one cmacS9)

theorem execCmac_setCarry (b : Bool) (s : State) :
    ∃ t t', execCmac s = .next t ∧ execCmac (s.setCarry b) = .next t' ∧ ApartInCarry t t' := by
  refine execCmac_related (cmacSteps_setCarry b (cmacEntry s)) ?_ ?_ ?_
  · rintro u _ rfl
    exact .refl _
  · rintro code pcode u _ ⟨b, rfl⟩
    exact .refl _
  · rintro u _ ⟨b, rfl⟩
    exact ⟨b, rfl⟩

/-! ## The other commands -/

theorem State.readCsr_setCarry {n : Fin 16} (hn : n ≠ 2) (b : Bool) (s : State) : (s.setCarry b).readCsr n = s.readCsr n := by
  unfold State.readCsr
  split
  case h_3 h2 => exact absurd (Fin.ext h2) hn
  all_goals rfl

/-- The shape CBCM and GENSUBK share: the block-size check, one call, and on an answer the writes `onAnswer`. -/
def oneCall (key : KeyHandle) (blk : Block) (iv : Option Block) (onAnswer : Block → State → State) (s : State) :
    Host.Outcome State Fault Refusal :=
  if s.wrongBlockSize then .next (s.endCommand .eBlksz 0)
  else
    match cipherCall key blk iv s with
    | .noAnswer u => .next u.leaveWaiting
    | .answered (.err code) u => .next (u.endCommand .eProvider code)
    | .answered (.ok mac) u => .next ((onAnswer mac u).endCommand .ok 0)

theorem execCbcm_eq_oneCall (bd ba : BReg) (c : Bool) (s : State) :
    execCbcm bd ba c s = oneCall s.bundle.key (s.readB ba) (chainInput c s) (fun mac u => u.writeChained bd c mac)
      s.openRecord.clearCalls := rfl

theorem execGensubk_eq_oneCall (s : State) :
    execGensubk s = oneCall s.bundle.key zeroBlock none (fun mac u => u.setSubkeys mac) s.openRecord.clearCalls := rfl

theorem oneCall_setCarry {onAnswer : Block → State → State} {b : Bool}
    (hwrites : ∀ mac u, ApartInCarry (onAnswer mac u) (onAnswer mac (u.setCarry b))) (key : KeyHandle) (blk : Block)
    (iv : Option Block) (s : State) :
    ∃ t t', oneCall key blk iv onAnswer s = .next t ∧ oneCall key blk iv onAnswer (s.setCarry b) = .next t' ∧
      ApartInCarry t t' := by
  unfold oneCall
  rw [State.setCarry_wrongBlockSize]
  cases s.wrongBlockSize with
  | true => exact ⟨_, _, rfl, rfl, b, rfl⟩
  | false =>
    cases hv : s.nextVerdict with
    | answers =>
      rw [cipherCall_answers hv, cipherCall_answers (s := s.setCarry b) hv]
      obtain ⟨b', h⟩ := hwrites (s.provider.cbcMac key blk iv) (s.recordCall key blk iv (.ok (s.provider.cbcMac key blk iv)))
      exact ⟨_, _, rfl, rfl, b', congrArg (·.endCommand .ok 0) h⟩
    | fails code =>
      rw [cipherCall_fails hv, cipherCall_fails (s := s.setCarry b) hv]
      exact ⟨_, _, rfl, rfl, b, rfl⟩
    | silent =>
      rw [cipherCall_silent hv, cipherCall_silent (s := s.setCarry b) hv]
      exact ⟨_, _, rfl, rfl, b, rfl⟩

theorem writeChained_setCarry (bd : BReg) (c : Bool) (mac : Block) (u : State) (b : Bool) :
    (u.setCarry b).writeChained bd c mac = (u.writeChained bd c mac).setCarry b := by
  cases c <;> rfl

theorem execCbcm_setCarry (bd ba : BReg) (c b : Bool) (s : State) :
    ∃ t t', execCbcm bd ba c s = .next t ∧ execCbcm bd ba c (s.setCarry b) = .next t' ∧ ApartInCarry t t' := by
  rw [execCbcm_eq_oneCall, execCbcm_eq_oneCall]
  exact oneCall_setCarry (fun mac u => ⟨b, writeChained_setCarry bd c mac u b⟩) s.bundle.key (s.readB ba)
    (chainInput c s) s.openRecord.clearCalls

theorem execGensubk_setCarry (b : Bool) (s : State) :
    ∃ t t', execGensubk s = .next t ∧ execGensubk (s.setCarry b) = .next t' ∧ ApartInCarry t t' := by
  rw [execGensubk_eq_oneCall, execGensubk_eq_oneCall]
  exact oneCall_setCarry (fun mac u => .refl _) s.bundle.key zeroBlock none s.openRecord.clearCalls

/-- Settles O52: every command but CMAC writes `CARRY` without reading it or leaves it; CMAC writes it in step 3 and at its
exit. -/
theorem carryIsAnOutputOnly : Obligations.CarryIsAnOutputOnly := by
  intro i s b hi
  suffices h : ∃ t t', exec i s = .next t ∧ exec i (s.setCarry b) = .next t' ∧ ApartInCarry t t' by
    obtain ⟨t, t', ht, ht', apart⟩ := h
    exact ⟨t, t', ht, ht', apart.setCarry_eq⟩
  cases i with
  | xorb | padb | ldb | rdb => exact ⟨_, _, rfl, rfl, b, rfl⟩
  | shlb | dblb | zeroize => exact ⟨_, _, rfl, rfl, .refl _⟩
  | rdcsr n =>
    refine ⟨_, _, rfl, rfl, b, ?_⟩
    rw [State.readCsr_setCarry fun h => hi (h ▸ rfl)]
    rfl
  | cbcm bd ba c => exact execCbcm_setCarry bd ba c b s
  | gensubk => exact execGensubk_setCarry b s
  | cmac => exact execCmac_setCarry b s

end Sys2Proof.Machine
end

section
/-! PROOF. What CMAC leaves readable does not depend on the key, the message bytes, the cipher or the history
(spec/10_state.md R46). -/

namespace Sys2Proof.Machine

/-- What a CMAC command's course depends on, the same in both states: the flags and lengths of the segments, the block size,
the capacity, what becomes of the requests, and the driver's CSRs. -/
structure SamePublic (s s' : State) : Prop where
  shape : s'.bundle.segl.map (fun g => (g.sign, g.len)) = s.bundle.segl.map (fun g => (g.sign, g.len))
  blksz : s'.provider.blksz = s.provider.blksz
  cap : (s'.buf s'.bundle.out).cap = (s.buf s.bundle.out).cap
  verdicts : s'.verdicts = s.verdicts
  source : s'.sourceAnswers = s.sourceAnswers
  len : s'.csr.len = s.csr.len
  nblk : s'.csr.nblk = s.csr.nblk
  rem : s'.csr.rem = s.csr.rem
  fpad : s'.csr.fpad = s.csr.fpad
  idx : s'.csr.idx = s.csr.idx
  calls : s'.csr.calls = s.csr.calls

/-- Both states have a request outstanding, on the same port. -/
def SamePort (s s' : State) : Prop := ∃ port, s.outstanding = some port ∧ s'.outstanding = some port

/-- Two walks that look the same from outside. -/
abbrev Walk.SamePublic : Walk → Walk → Prop := Walk.Related Machine.SamePublic Machine.SamePublic SamePort

/-- Stretches with as many pulls and calls keep it, whatever they write to registers and `CARRY`. -/
theorem SamePublic.advance {s s' u u' : State} {pulls calls : Nat} (h : SamePublic s s') (hu : Advanced s u pulls calls)
    (hu' : Advanced s' u' pulls calls) (hsource : u'.sourceAnswers = u.sourceAnswers) : SamePublic u u' where
  shape := by rw [hu.bundle, hu'.bundle, h.shape]
  blksz := by rw [hu.provider, hu'.provider, h.blksz]
  cap := by rw [hu.bundle, hu'.bundle, hu.buf, hu'.buf, h.cap]
  verdicts := by rw [hu.verdicts, hu'.verdicts, h.verdicts]
  source := hsource
  len := by rw [hu.len, hu'.len, h.len]
  nblk := by rw [hu.nblk, hu'.nblk, h.nblk]
  rem := by rw [hu.rem, hu'.rem, h.rem]
  fpad := by rw [hu.fpad, hu'.fpad, h.fpad]
  idx := by rw [hu.idx, hu'.idx, h.idx]
  calls := by rw [hu.calls, hu'.calls, h.calls]

theorem SamePublic.enterPhase {s s' : State} (h : SamePublic s s') (p : Phase) :
    SamePublic (s.enterPhase p) (s'.enterPhase p) :=
  h.advance (.enterPhase s p) (.enterPhase s' p) h.source

theorem SamePublic.writeB {s s' : State} (h : SamePublic s s') (r : BReg) (v v' : Block) :
    SamePublic (s.writeB r v) (s'.writeB r v') :=
  h.advance (.writeB s r v) (.writeB s' r v') h.source

theorem SamePublic.setSubkeys {s s' : State} (h : SamePublic s s') (mac mac' : Block) :
    SamePublic (s.setSubkeys mac) (s'.setSubkeys mac') :=
  h.advance (.setSubkeys s mac) (.setSubkeys s' mac') h.source

theorem SamePublic.recordCall {s s' : State} (h : SamePublic s s') {key key' : KeyHandle} {blk blk' : Block}
    {iv iv' : Option Block} {a a' : CipherAnswer} :
    SamePublic (s.recordCall key blk iv a) (s'.recordCall key' blk' iv' a') :=
  h.advance (.recordCall s key blk iv a) (.recordCall s' key' blk' iv' a') h.source

theorem SamePublic.afterDesc {s s' : State} (h : SamePublic s s') (i : Nat) (g g' : Segment) :
    SamePublic (s.afterDesc i g) (s'.afterDesc i g') :=
  h.advance (.afterDesc s i g) (.afterDesc s' i g') (congrArg (List.modifyHead (· - 1)) h.source)

theorem SamePublic.afterPull {s s' : State} (h : SamePublic s s') : SamePublic s.afterPull s'.afterPull :=
  h.advance (.afterPull s) (.afterPull s') (congrArg (List.modifyHead (· - 1)) h.source)

theorem SamePublic.pulled {s s' : State} (h : SamePublic s s') : SamePublic s.pulled s'.pulled :=
  h.afterPull.writeB _ _ _

theorem SamePublic.nextVerdict {s s' : State} (h : SamePublic s s') : s'.nextVerdict = s.nextVerdict := by
  rw [State.nextVerdict, State.nextVerdict, h.verdicts]

theorem SamePublic.wrongBlockSize {s s' : State} (h : SamePublic s s') : s'.wrongBlockSize = s.wrongBlockSize := by
  rw [State.wrongBlockSize, State.wrongBlockSize, h.blksz]

/-! ## The steps -/

theorem cmacS1_samePublic {s s' : State} (h : SamePublic s s') : (cmacS1 s).SamePublic (cmacS1 s') := by
  have hw' := h.wrongBlockSize
  cases hw : s.wrongBlockSize with
  | true =>
    rw [cmacS1_of_wrong hw, cmacS1_of_wrong (hw'.trans hw)]
    exact .exit _ _ (h.enterPhase .s1)
  | false =>
    rw [cmacS1_of_right hw, cmacS1_of_right (hw'.trans hw)]
    exact .go (h.enterPhase .s1)

theorem sumLengths_samePublic {gs gs' : List Segment} {s s' : State} (i total : Nat) (h : SamePublic s s')
    (hshape : gs'.map (fun g => (g.sign, g.len)) = gs.map (fun g => (g.sign, g.len))) :
    (sumLengths gs i total s).SamePublic (sumLengths gs' i total s') := by
  induction gs generalizing gs' i total s s' with
  | nil =>
    obtain rfl : gs' = [] := by simpa using hshape
    exact .go { h with len := rfl }
  | cons g rest ih =>
    obtain ⟨g', rest', rfl, hg, hrest⟩ := List.map_eq_cons_iff.mp hshape
    obtain ⟨hsign, hlen⟩ := Prod.mk.inj hg
    rw [sumLengths, sumLengths]
    by_cases h0 : s.sourceAnswers.head? = some 0
    · rw [segDesc_of_silent h0, segDesc_of_silent (h.source ▸ h0)]
      exact .stuck ⟨.segment, rfl, rfl⟩
    · rw [segDesc_of_answer h0, segDesc_of_answer (h.source ▸ h0), hsign, hlen]
      exact ih (i + 1) _ (h.afterDesc i g g') hrest

theorem cmacS2_samePublic {s s' : State} (h : SamePublic s s') : (cmacS2 s).SamePublic (cmacS2 s') :=
  sumLengths_samePublic 0 0 (h.enterPhase .s2) h.shape

theorem cmacS3_samePublic {s s' : State} (h : SamePublic s s') : (cmacS3 s).SamePublic (cmacS3 s') := by
  have hv' := h.nextVerdict
  cases hv : s.nextVerdict with
  | answers =>
    rw [cmacS3_of_answers hv, cmacS3_of_answers (hv'.trans hv)]
    exact .go ((h.enterPhase .s3).recordCall.setSubkeys _ _)
  | fails code =>
    rw [cmacS3_of_fails hv, cmacS3_of_fails (hv'.trans hv)]
    exact .exit _ _ (h.enterPhase .s3).recordCall
  | silent =>
    rw [cmacS3_of_silent hv, cmacS3_of_silent (hv'.trans hv)]
    exact .stuck ⟨.cipher, rfl, rfl⟩

theorem cmacS4_samePublic {s s' : State} (h : SamePublic s s') : (cmacS4 s).SamePublic (cmacS4 s') :=
  .go { h with
    nblk := congrArg (fun l : BitVec 64 => BitVec.ofNat 64 (blockCount l.toNat)) h.len
    fpad := congrArg (fun l : BitVec 64 => needsPadding l.toNat) h.len
    rem := congrArg (fun l : BitVec 64 => BitVec.ofNat 4 (remainder l.toNat)) h.len }

theorem cmacS5_samePublic {s s' : State} (h : SamePublic s s') : (cmacS5 s).SamePublic (cmacS5 s') :=
  .go ((h.enterPhase .s5).writeB .cv _ _)

theorem chainBlock_samePublic {s s' : State} (h : SamePublic s s') : (chainBlock s).SamePublic (chainBlock s') := by
  have hv' := h.nextVerdict
  cases hv : s.nextVerdict with
  | answers =>
    rw [chainBlock_of_answers hv, chainBlock_of_answers (hv'.trans hv)]
    exact .go (h.recordCall.writeB .cv _ _)
  | fails code =>
    rw [chainBlock_of_fails hv, chainBlock_of_fails (hv'.trans hv)]
    exact .exit _ _ h.recordCall
  | silent =>
    rw [chainBlock_of_silent hv, chainBlock_of_silent (hv'.trans hv)]
    exact .stuck ⟨.cipher, rfl, rfl⟩

theorem pullAndChain_samePublic {s s' : State} (h : SamePublic s s') : (pullAndChain s).SamePublic (pullAndChain s') := by
  by_cases h0 : s.sourceAnswers.head? = some 0
  · rw [pullAndChain_of_silent h0, pullAndChain_of_silent (h.source ▸ h0)]
    exact .stuck ⟨.segment, rfl, rfl⟩
  · rw [pullAndChain_of_answer h0, pullAndChain_of_answer (h.source ▸ h0)]
    exact chainBlock_samePublic h.pulled

theorem chainBlocks_samePublic (k : Nat) {s s' : State} (h : SamePublic s s') :
    (chainBlocks k s).SamePublic (chainBlocks k s') := by
  induction k generalizing s s' with
  | zero => exact .go h
  | succ k ih => exact (pullAndChain_samePublic h).andThen fun _ _ => ih

theorem cmacS6_samePublic {s s' : State} (h : SamePublic s s') : (cmacS6 s).SamePublic (cmacS6 s') := by
  rw [cmacS6, cmacS6, h.nblk]
  exact chainBlocks_samePublic _ (h.enterPhase .s6)

theorem cmacS7_samePublic {s s' : State} (h : SamePublic s s') : (cmacS7 s).SamePublic (cmacS7 s') := by
  by_cases h0 : s.sourceAnswers.head? = some 0
  · rw [cmacS7_of_silent h0, cmacS7_of_silent (h.source ▸ h0)]
    exact .stuck ⟨.segment, rfl, rfl⟩
  · rw [cmacS7_of_answer h0, cmacS7_of_answer (h.source ▸ h0)]
    exact .go ((h.enterPhase .s7).afterPull.writeB .m _ _)

theorem cmacS8_samePublic {s s' : State} (h : SamePublic s s') : (cmacS8 s).SamePublic (cmacS8 s') :=
  chainBlock_samePublic (h.enterPhase .s8)

theorem SamePublic.writeTag {s s' : State} (h : SamePublic s s') (tag tag' : Block) :
    SamePublic (s.writeTag s.bundle.out tag) (s'.writeTag s'.bundle.out tag') :=
  { h with cap := by simpa using h.cap }

theorem cmacS9_samePublic {s s' : State} (h : SamePublic s s') : (cmacS9 s).SamePublic (cmacS9 s') := by
  by_cases hcap : (s.buf s.bundle.out).cap.toNat < 16
  · rw [cmacS9_of_small hcap, cmacS9_of_small (h.cap ▸ hcap)]
    exact .exit _ _ (h.enterPhase .s9)
  · rw [cmacS9_of_room hcap, cmacS9_of_room (h.cap ▸ hcap)]
    exact .go ((h.enterPhase .s9).writeTag _ _)

theorem cmacSteps_samePublic {s s' : State} (h : SamePublic s s') : (cmacSteps s).SamePublic (cmacSteps s') :=
  ((((((((cmacS1_samePublic h).andThen fun _ _ => cmacS2_samePublic).andThen fun _ _ => cmacS3_samePublic).andThen
    fun _ _ => cmacS4_samePublic).andThen fun _ _ => cmacS5_samePublic).andThen fun _ _ => cmacS6_samePublic).andThen
    fun _ _ => cmacS7_samePublic).andThen fun _ _ => cmacS8_samePublic).andThen fun _ _ => cmacS9_samePublic

/-! ## The whole command -/

/-- The exit writes `STATUS` and `PERR` and clears `CARRY`, the three fields `SamePublic` leaves out. -/
theorem SamePublic.cmacExit_csr {s s' : State} (h : SamePublic s s') (code : Code) (pcode : ErrCode) :
    (cmacExit code pcode s').csr = (cmacExit code pcode s).csr := by
  simp [cmacExit, h.len, h.nblk, h.rem, h.fpad, h.idx, h.calls]

/-- Settles O49: the two runs go the same way through every step, and the exit leaves nothing else to read. -/
theorem cmacCsrsRevealNoSecret : Obligations.CmacCsrsRevealNoSecret := by
  intro s s' c c' rest rest' hin hin' hshape hblksz hcap hverdicts hsource
  rw [← State.bundle_of_inputs hin, ← State.bundle_of_inputs hin'] at hshape hcap
  have entry : SamePublic (cmacEntry s) (cmacEntry s') :=
    ⟨hshape, hblksz, hcap, hverdicts, hsource, rfl, rfl, rfl, rfl, rfl, rfl⟩
  refine execCmac_related (R := fun t t' => t'.outstanding = t.outstanding ∧
    (t.outstanding = none → t'.csr = t.csr ∧ t'.resp = t.resp ∧ t'.regs = t.regs)) (cmacSteps_samePublic entry) ?_ ?_ ?_
  · exact fun u u' h => ⟨rfl, fun _ => ⟨h.cmacExit_csr .ok 0, rfl, rfl⟩⟩
  · exact fun code pcode u u' h => ⟨rfl, fun _ => ⟨h.cmacExit_csr code pcode, rfl, rfl⟩⟩
  · rintro u u' ⟨port, hport, hport'⟩
    exact ⟨hport'.trans hport.symm, fun hnone => absurd (hport.symm.trans hnone) (by simp)⟩

end Sys2Proof.Machine
end

section
/-! PROOF. The two ports of the memory rules: what a pull of the segment source answers (spec/20_memory.md R56), and the
running IV of a call on the cipher port (spec/20_memory.md R59). -/

namespace Sys2Proof.Machine

/-! ## The segment port -/

/-- The cursor's new place is capped at the stream's end (R56); the rest of the stream does not see the cap. -/
theorem chunkAt_append_rest (stream : List Byte) (pos : Nat) :
    chunkAt stream pos ++ stream.drop (min (pos + 16) stream.length) = stream.drop pos := by
  rw [← List.drop_eq_drop_min, ← List.drop_drop, chunkAt, List.take_append_drop]

theorem length_chunkAt (stream : List Byte) (pos : Nat) : (chunkAt stream pos).length = min 16 (stream.length - pos) := by
  rw [chunkAt, List.length_take, List.length_drop]

/-- Settles O38: the pull is answered, with the chunk at the cursor (`segPull_of_answer`), and that chunk is the front of what
was left. -/
theorem segPullYieldsTheStreamInOrder : Obligations.SegPullYieldsTheStreamInOrder := by
  intro s pos hcursor hlasts
  have hchunk : s.nextChunk = chunkAt s.stream pos := by rw [State.nextChunk, hcursor, Option.getD_some]
  have hnext : s.afterPull.cursor = some (min (pos + 16) s.stream.length) := by
    rw [State.afterPull, hcursor, Option.getD_some]
  have hpull : segPull s = .answered (chunkAt s.stream pos) s.afterPull :=
    hchunk ▸ segPull_of_answer (State.sourceLasts_ne hlasts)
  exact ⟨_, _, _, hpull, hnext, rfl, rfl, fun _ => ⟨chunkAt_append_rest _ _, length_chunkAt _ _⟩,
    rfl, BuffersSame.of_bufs rfl, rfl, rfl, rfl⟩

/-! ## The cipher port -/

/-- Settles O28: by the IV; the one of zeros is XORed away (`Provider.cbcMac_zero_iv`). -/
theorem providerXorsTheRunningIv : Obligations.ProviderXorsTheRunningIv :=
  fun p key blk _ => ⟨rfl, rfl, p.cbcMac_zero_iv key blk⟩

end Sys2Proof.Machine
end

section
/-! PROOF. The encoding (spec/30_encoding.md R81 to R93): a word is its seven fields, so the decoder and the encoder are each
other's inverse, and the decoder accepts the rows of R85 and nothing else. -/

namespace Sys2Proof

/-! ## A word by its fields (R81) -/

theorem append_eq_append_iff {n m : Nat} {x x' : BitVec n} {y y' : BitVec m} : x ++ y = x' ++ y' ↔ x = x' ∧ y = y' := by
  refine ⟨fun h => ⟨?_, ?_⟩, fun ⟨hx, hy⟩ => by rw [hx, hy]⟩
  · simpa only [BitVec.extractLsb'_append_eq_left] using congrArg (BitVec.extractLsb' m n) h
  · simpa only [BitVec.extractLsb'_append_eq_right] using congrArg (BitVec.extractLsb' 0 m) h

/-- Laying fields out as in R81 gives a word exactly when they are that word's fields. -/
theorem packWord_eq_iff {o : Opcode} {bd ba bb imm4 : BitVec 4} {c : BitVec 1} {w : Word} :
    packWord o bd ba bb imm4 c = w ↔ opcodeByte o = opcField w ∧ bd = bdField w ∧ ba = baField w ∧ bb = bbField w ∧
      imm4 = imm4Field w ∧ 0 = rsvField w ∧ c = cField w := by
  have fields : opcodeByte o ++ bd ++ ba ++ bb ++ imm4 ++ (0 : BitVec 7) ++ c =
        opcField w ++ bdField w ++ baField w ++ bbField w ++ imm4Field w ++ rsvField w ++ cField w ↔ _ :=
    append_eq_append_iff
  rw [fields_append] at fields
  rw [packWord, fields]
  simp only [append_eq_append_iff, and_assoc]

/-! ## The decoder against the encoder -/

theorem mustBeZero_ok_iff_zero_eq {n : Nat} (f : Field) (b : BitVec n) (u : Unit) : mustBeZero f b = .ok u ↔ 0 = b :=
  (mustBeZero_ok_iff f b u).trans eq_comm

theorem toFin_eq_iff (b : BitVec 4) (n : Fin 16) : @Eq (Fin 16) b.toFin n ↔ BitVec.ofFin n = b := by
  constructor <;> rintro rfl <;> rfl

theorem beq_one_eq_iff (b : BitVec 1) (c : Bool) : (b == 1#1) = c ↔ BitVec.ofBool c = b := by
  revert b c
  decide

/-- The decoder reads a command from a word exactly when the encoder gives that word: both ask the same of its seven fields,
PADB and RDCSR in another order. -/
theorem decode_eq_ok_iff (w : Word) (i : Instr) : decode w = .ok i ↔ encode i = w := by
  rw [decode_ok_iff]
  cases i <;>
    simp [Instr.opcode, encode, packWord_eq_iff, decodeFields, immAndTailZero, except_bind_ok, readReg_ok_iff,
      mustBeZero_ok_iff_zero_eq, toFin_eq_iff, beq_one_eq_iff, pure, Except.pure]
  case padb | rdcsr => tauto

theorem decode_encode (i : Instr) : decode (encode i) = .ok i := (decode_eq_ok_iff _ _).mpr rfl

/-- Settles O9: the decoder accepts no word but the encoder's. -/
theorem encodeOfDecodeIsTheWord : Obligations.EncodeOfDecodeIsTheWord := fun w i => (decode_eq_ok_iff w i).mp

theorem decodeBytes_bytesOfWord (w : Word) (rest : List Byte) :
    decodeBytes (bytesOfWord w ++ rest) = (decode w).map (·, rest) := by
  simp only [bytesOfWord, List.cons_append, List.nil_append, decodeBytes, wordOfBytes_bytes]
  cases decode w <;> rfl

/-- Settles O8: the word by `decode_encode`, its stored bytes by the word they make up. -/
theorem decodeOfEncodeIsTheCommand : Obligations.DecodeOfEncodeIsTheCommand := fun i =>
  ⟨decode_encode i, fun rest => by rw [decodeBytes_bytesOfWord, decode_encode]; rfl⟩

/-! ## The operands (R86) -/

theorem imm4Field_toNat (w : Word) : (imm4Field w).toNat = w.toNat / 256 % 16 := by
  simp [imm4Field, Nat.shiftRight_eq_div_pow]

theorem ofBool_eq_cField {c : Bool} {w : Word} (h : BitVec.ofBool c = cField w) : c = true ↔ w.toNat % 2 = 1 := by
  have hbit : c.toNat = w.toNat % 2 := by simpa [cField] using congrArg BitVec.toNat h
  rw [← hbit]
  cases c <;> simp

/-- Settles O11: the word is the encoder's, so its fields are the ones the encoder laid out. -/
theorem operandsAreTheFields : Obligations.OperandsAreTheFields := by
  intro w i h
  rw [decode_eq_ok_iff] at h
  cases i with
  | zeroize | gensubk | cmac => exact h.symm
  | xorb bd ba bb =>
    obtain ⟨-, hbd, hba, hbb, -⟩ := packWord_eq_iff.mp h
    exact ⟨hbd, hba, hbb⟩
  | shlb bd ba | dblb bd ba =>
    obtain ⟨-, hbd, hba, -⟩ := packWord_eq_iff.mp h
    exact ⟨hbd, hba⟩
  | padb bd ba imm4 =>
    obtain ⟨-, hbd, hba, -, himm4, -⟩ := packWord_eq_iff.mp h
    exact ⟨hbd, hba, imm4Field_toNat w ▸ congrArg BitVec.toNat himm4⟩
  | ldb bd =>
    obtain ⟨-, hbd, -⟩ := packWord_eq_iff.mp h
    exact hbd
  | rdb ba =>
    obtain ⟨-, -, hba, -⟩ := packWord_eq_iff.mp h
    exact hba
  | rdcsr imm4 =>
    obtain ⟨-, -, -, -, himm4, -⟩ := packWord_eq_iff.mp h
    exact imm4Field_toNat w ▸ congrArg BitVec.toNat himm4
  | cbcm bd ba c =>
    obtain ⟨-, hbd, hba, -, -, -, hc⟩ := packWord_eq_iff.mp h
    exact ⟨hbd, hba, ofBool_eq_cField hc⟩

/-! ## The rows of R85 -/

theorem encode_inRow (i : Instr) : encode i &&& rowMask i.opcode = rowMatch i.opcode := by
  cases i with
  | xorb bd ba bb => exact Laws.EncodeInRow.xorb bd ba bb
  | shlb bd ba => exact Laws.EncodeInRow.shlb bd ba
  | dblb bd ba => exact Laws.EncodeInRow.dblb bd ba
  | padb bd ba imm4 => exact Laws.EncodeInRow.padb bd ba imm4
  | ldb bd => exact Laws.EncodeInRow.ldb bd
  | rdb ba => exact Laws.EncodeInRow.rdb ba
  | rdcsr imm4 => exact Laws.EncodeInRow.rdcsr imm4
  | zeroize => exact Laws.EncodeInRow.zeroize
  | cbcm bd ba c => exact Laws.EncodeInRow.cbcm bd ba c
  | gensubk => exact Laws.EncodeInRow.gensubk
  | cmac => exact Laws.EncodeInRow.cmac

/-- What a row asks of one field of its words. -/
theorem field_of_inRow {w : Word} {o : Opcode} (h : w &&& rowMask o = rowMatch o) (start len : Nat) :
    w.extractLsb' start len &&& (rowMask o).extractLsb' start len = (rowMatch o).extractLsb' start len := by
  rw [← BitVec.extractLsb'_and, h]

/-- A field that the mask covers whole is the match value's. -/
theorem eq_of_and_allOnes {n : Nat} {b v : BitVec n} (h : b &&& BitVec.allOnes n = v) : v = b := by
  rw [← h, BitVec.and_allOnes]

/-- The register of a register field. -/
def regOfField (b : BitVec 4) : BReg := regOfBits (b.extractLsb' 0 3)

/-- A field of which the mask covers bit 3 alone is a register's number (R86). -/
theorem regField_regOfField {b : BitVec 4} (h : b &&& 8 = 0) : regField (regOfField b) = b := by
  revert b
  decide

/-- Every word of a row is the encoding of a command of that row, whose operands are the fields that the mask does not
cover. -/
theorem exists_encode_of_inRow {w : Word} {o : Opcode} (h : w &&& rowMask o = rowMatch o) :
    ∃ i, encode i = w ∧ i.opcode = o := by
  have opc := field_of_inRow h 24 8
  have bd := field_of_inRow h 20 4
  have ba := field_of_inRow h 16 4
  have bb := field_of_inRow h 12 4
  have imm4 := field_of_inRow h 8 4
  have rsv := field_of_inRow h 1 7
  have c := field_of_inRow h 0 1
  have fixed {n : Nat} {b v : BitVec n} := @eq_of_and_allOnes n b v
  have reg {b : BitVec 4} := @regField_regOfField b
  cases o with
  | xorb =>
    exact ⟨.xorb (regOfField (bdField w)) (regOfField (baField w)) (regOfField (bbField w)),
      packWord_eq_iff.mpr ⟨fixed opc, reg bd, reg ba, reg bb, fixed imm4, fixed rsv, fixed c⟩, rfl⟩
  | shlb =>
    exact ⟨.shlb (regOfField (bdField w)) (regOfField (baField w)),
      packWord_eq_iff.mpr ⟨fixed opc, reg bd, reg ba, fixed bb, fixed imm4, fixed rsv, fixed c⟩, rfl⟩
  | dblb =>
    exact ⟨.dblb (regOfField (bdField w)) (regOfField (baField w)),
      packWord_eq_iff.mpr ⟨fixed opc, reg bd, reg ba, fixed bb, fixed imm4, fixed rsv, fixed c⟩, rfl⟩
  | padb =>
    exact ⟨.padb (regOfField (bdField w)) (regOfField (baField w)) (imm4Field w).toFin,
      packWord_eq_iff.mpr ⟨fixed opc, reg bd, reg ba, fixed bb, rfl, fixed rsv, fixed c⟩, rfl⟩
  | ldb =>
    exact ⟨.ldb (regOfField (bdField w)),
      packWord_eq_iff.mpr ⟨fixed opc, reg bd, fixed ba, fixed bb, fixed imm4, fixed rsv, fixed c⟩, rfl⟩
  | rdb =>
    exact ⟨.rdb (regOfField (baField w)),
      packWord_eq_iff.mpr ⟨fixed opc, fixed bd, reg ba, fixed bb, fixed imm4, fixed rsv, fixed c⟩, rfl⟩
  | rdcsr =>
    exact ⟨.rdcsr (imm4Field w).toFin,
      packWord_eq_iff.mpr ⟨fixed opc, fixed bd, fixed ba, fixed bb, rfl, fixed rsv, fixed c⟩, rfl⟩
  | zeroize =>
    exact ⟨.zeroize,
      packWord_eq_iff.mpr ⟨fixed opc, fixed bd, fixed ba, fixed bb, fixed imm4, fixed rsv, fixed c⟩, rfl⟩
  | cbcm =>
    exact ⟨.cbcm (regOfField (bdField w)) (regOfField (baField w)) (cField w == 1),
      packWord_eq_iff.mpr ⟨fixed opc, reg bd, reg ba, fixed bb, fixed imm4, fixed rsv, (beq_one_eq_iff _ _).mp rfl⟩, rfl⟩
  | gensubk =>
    exact ⟨.gensubk,
      packWord_eq_iff.mpr ⟨fixed opc, fixed bd, fixed ba, fixed bb, fixed imm4, fixed rsv, fixed c⟩, rfl⟩
  | cmac =>
    exact ⟨.cmac,
      packWord_eq_iff.mpr ⟨fixed opc, fixed bd, fixed ba, fixed bb, fixed imm4, fixed rsv, fixed c⟩, rfl⟩

theorem decodes_iff_inRow (w : Word) (o : Opcode) :
    (∃ i, decode w = .ok i ∧ i.opcode = o) ↔ w &&& rowMask o = rowMatch o := by
  simp only [decode_eq_ok_iff]
  constructor
  · rintro ⟨i, rfl, rfl⟩
    exact encode_inRow i
  · exact exists_encode_of_inRow

/-- Settles O10: a row's words are the encodings of its commands; a word in two rows would decode to two commands. -/
theorem decodeIsMaskAndMatch : Obligations.DecodeIsMaskAndMatch := by
  refine ⟨decodes_iff_inRow, fun w o o' h h' => ?_⟩
  obtain ⟨i, hi, rfl⟩ := (decodes_iff_inRow w o).mpr h
  obtain ⟨i', hi', rfl⟩ := (decodes_iff_inRow w o').mpr h'
  cases hi.symm.trans hi'
  rfl

/-! ## Worked encodings (R93) -/

/-- Settles O12: the decoder run on each word. -/
theorem workedEncodingsDecode : Obligations.WorkedEncodingsDecode := by
  unfold Obligations.WorkedEncodingsDecode
  decide

end Sys2Proof
end

section
/-! PROOF. A command from the command port to its response (spec/30_encoding.md R83, R91, R92; spec/10_state.md R31). -/

namespace Sys2Proof.Machine

/-! ## The step -/

/-- Settles O14: by what the step does with a presented command (`step_of_command`). -/
theorem stepExecutesTheDecodedCommand : Obligations.StepExecutesTheDecodedCommand := by
  intro s c rest i ho hin hd
  rw [step_of_command ho hin, hd]

/-! ## The pseudo-instructions -/

/-- XORB in every state (R104): what it writes, what it leaves, how it ends. -/
theorem exec_xorb (bd ba bb : BReg) (s : State) : ∃ t, exec (.xorb bd ba bb) s = .next t ∧
    (bd ≠ .z → t.readB bd = xorBlock (s.readB ba) (s.readB bb)) ∧ RegsSameExcept s t [bd] ∧ EndedWith s t .ok 0 ∧
    t.csr.calls = 0 := by
  refine ⟨_, rfl, fun hbd => by simp [hbd], fun r hr => ?_, ⟨rfl, rfl, rfl, rfl, rfl⟩, rfl⟩
  have hne : r ≠ bd := by simpa using hr
  simp [hne]

theorem encode_xorb_z (bd ba : BReg) : encode (.xorb bd ba .z) =
    0x10000000 ||| (regField bd).setWidth 32 <<< 20 ||| (regField ba).setWidth 32 <<< 16 := by
  cases bd <;> cases ba <;> rfl

/-- Settles O13: MOVB and CLRB are XORB (`exec_xorb`) with one source and with both sources `B[0]`; NOP is a readout of
`B[0]`. -/
theorem pseudoInstructionEffects : Obligations.PseudoInstructionEffects := by
  refine ⟨encode_xorb_z, fun bd ba s hbd => ?_, fun bd s => ?_, decode_encode (.rdb .z), fun s => ?_⟩
  · obtain ⟨t, ht, hval, rest⟩ := exec_xorb bd ba .z s
    exact ⟨t, ht, (hval hbd).trans (xorBlock_zero _), rest⟩
  · obtain ⟨t, ht, hval, rest⟩ := exec_xorb bd .z .z s
    refine ⟨t, ht, ?_, rest⟩
    by_cases hbd : bd = .z
    · rw [hbd, State.readB_z]
    · exact (hval hbd).trans (xorBlock_zero _)
  · exact ⟨_, rfl, rfl, rfl, BuffersSame.of_bufs rfl, ⟨rfl, rfl, rfl, rfl, rfl⟩, rfl⟩

/-! ## One response for each command that ends -/

/-- The response repeats `STATUS` and `PERR` and carries `zero(16)` (R31, R83). -/
def RepeatsStatus (t : State) : Prop :=
  t.resp = some { code := t.csr.status, perrv := t.csr.perr, rdata := zeroBlock }

/-- What a command that has ended leaves at the command port and in the sequencer (R40, R43, R69, R83). -/
structure Answered (s t : State) : Prop where
  inputs : t.inputs = afterCommand s.inputs
  phase : s.phase = .idle → t.phase = .idle
  cursor : s.cursor = none → t.cursor = none
  resp : ∃ r, t.resp = some r

theorem PlainEffect.answered {s t : State} (h : PlainEffect s t) (ended : t.outstanding = none) : Answered s t := by
  have inputs := h.inputs
  cases h with
  | readout _ after => subst after; exact ⟨inputs, id, id, _, rfl⟩
  | ended u code pcode calls body _ after =>
    subst after
    exact ⟨inputs, body.phase.trans, body.cursor.trans, _, rfl⟩
  | waiting u body request after =>
    subst after
    cases request.symm.trans ended

theorem CmacEnd.exit {s t : State} (h : CmacEnd s t) : ∃ code pcode, CmacExit s t code pcode := by
  cases h <;> exact ⟨_, _, by assumption⟩

theorem CmacEnd.answered {s t : State} (h : CmacEnd s t) : Answered s t := by
  obtain ⟨code, pcode, exit⟩ := h.exit
  obtain ⟨-, -, resp, inputs, -⟩ := exit.ended
  exact ⟨inputs, fun _ => exit.phase, fun _ => exit.cursor, _, resp⟩

theorem CmacEnd.repeatsStatus {s t : State} (h : CmacEnd s t) : RepeatsStatus t := by
  obtain ⟨code, pcode, exit⟩ := h.exit
  obtain ⟨status, perr, resp, -⟩ := exit.ended
  rw [RepeatsStatus, status, perr, resp]

/-- A CMAC that does not wait has ended. -/
theorem cmacEnd_of_exec {s t : State} (h : exec .cmac s = .next t) (ended : t.outstanding = none) : CmacEnd s t := by
  rcases execCmac_cases s with ⟨u, port, hu, waits⟩ | ⟨u, hu, ends⟩
  · cases hu.symm.trans h
    cases waits.left.1.symm.trans ended
  · cases hu.symm.trans h
    exact ends

theorem exec_answered {i : Instr} {s t : State} (h : exec i s = .next t) (ended : t.outstanding = none) : Answered s t := by
  by_cases hi : i = .cmac
  · subst hi
    exact (cmacEnd_of_exec h ended).answered
  · exact (plainEffect_of_exec hi h).answered ended

theorem oneCall_repeatsStatus {key : KeyHandle} {blk : Block} {iv : Option Block} {onAnswer : Block → State → State}
    {s t : State} (h : oneCall key blk iv onAnswer s = .next t) (ended : t.outstanding = none) : RepeatsStatus t := by
  unfold oneCall at h
  split at h
  · cases h
    rfl
  · rcases cipherCall_cases key blk iv s with ⟨-, hcall⟩ | ⟨code, -, hcall⟩ | ⟨-, hcall⟩ <;>
      rw [hcall] at h <;> cases h
    · rfl
    · rfl
    · cases ended

/-- Every command but the two readouts ends through `State.endCommand`. -/
theorem exec_repeatsStatus {i : Instr} (hi : i.opcode ∉ [Opcode.rdb, .rdcsr]) {s t : State} (h : exec i s = .next t)
    (ended : t.outstanding = none) : RepeatsStatus t := by
  cases i with
  | xorb | shlb | dblb | padb | ldb | zeroize => cases h; rfl
  | rdb | rdcsr => simp [Instr.opcode] at hi
  | cbcm bd ba c => exact oneCall_repeatsStatus ((execCbcm_eq_oneCall bd ba c s).symm.trans h) ended
  | gensubk => exact oneCall_repeatsStatus ((execGensubk_eq_oneCall s).symm.trans h) ended
  | cmac => exact (cmacEnd_of_exec h ended).repeatsStatus

/-- Settles O15: an illegal word and every command but CMAC by `PlainEffect`, CMAC by `CmacEnd`. -/
theorem everyCommandIsAnsweredOnce : Obligations.EveryCommandIsAnsweredOnce := by
  intro s t c rest ho hin h ended
  suffices Answered s t ∧
      ((∀ ba, decode c.word ≠ .ok (.rdb ba)) → (∀ n, decode c.word ≠ .ok (.rdcsr n)) → RepeatsStatus t) by
    obtain ⟨⟨inputs, phase, cursor, r, resp⟩, repeats⟩ := this
    rw [hin, afterCommand_command] at inputs
    exact ⟨inputs, phase, cursor, r, resp, fun hrdb hrdcsr => Option.some.inj (resp.symm.trans (repeats hrdb hrdcsr))⟩
  cases hd : decode c.word with
  | error e =>
    cases (step_of_illegal ho hin hd).symm.trans h
    exact ⟨(takeIllegal_effect s).answered rfl, fun _ _ => rfl⟩
  | ok i =>
    rw [stepExecutesTheDecodedCommand s c rest i ho hin hd] at h
    refine ⟨exec_answered h ended, fun hrdb hrdcsr => exec_repeatsStatus ?_ h ended⟩
    cases i with
    | rdb ba => exact absurd rfl (hrdb ba)
    | rdcsr n => exact absurd rfl (hrdcsr n)
    | _ => simp [Instr.opcode]

end Sys2Proof.Machine
end

section
/-! PROOF. The pure functions on blocks, byte by byte, bit by bit and as integers (spec/40_block_primitives.md R100 to R103),
and their laws (R109). -/

namespace Sys2Proof.Machine

/-! ## xor_block (R100) -/

theorem byteOf_xorBlock (a b : Block) (i : Nat) : byteOf (xorBlock a b) i = byteOf a i ^^^ byteOf b i :=
  BitVec.extractLsb'_xor

theorem toNat_xorBlock (a b : Block) : (xorBlock a b).toNat = a.toNat ^^^ b.toNat := BitVec.toNat_xor a b

theorem msbOf_xorBlock (a b : Block) : msbOf (xorBlock a b) = (msbOf a ^^ msbOf b) := BitVec.msb_xor

theorem xorBlock_comm (a b : Block) : xorBlock a b = xorBlock b a := BitVec.xor_comm a b

theorem xorBlock_assoc (a b c : Block) : xorBlock (xorBlock a b) c = xorBlock a (xorBlock b c) := BitVec.xor_assoc a b c

@[simp] theorem xorBlock_self (a : Block) : xorBlock a a = zeroBlock := BitVec.xor_self

@[simp] theorem zero_xorBlock (a : Block) : xorBlock zeroBlock a = a := by rw [xorBlock_comm, xorBlock_zero]

theorem xorBlock_xorBlock_cancel_left (a b : Block) : xorBlock a (xorBlock a b) = b := by
  rw [← xorBlock_assoc, xorBlock_self, zero_xorBlock]

/-- The two middle terms of a sum of four change places. -/
theorem xorBlock_xorBlock_xorBlock_comm (a b c d : Block) :
    xorBlock (xorBlock a b) (xorBlock c d) = xorBlock (xorBlock a c) (xorBlock b d) := by
  rw [xorBlock_assoc, ← xorBlock_assoc b, xorBlock_comm b c, xorBlock_assoc c, ← xorBlock_assoc]

/-- Settles O2: exclusive or commutes with taking a byte and with the integer value. -/
theorem xorBlockIsBytewiseAndIntegerXor : Obligations.XorBlockIsBytewiseAndIntegerXor := fun a b =>
  ⟨fun i _ => byteOf_xorBlock a b i, toNat_xorBlock a b⟩

/-! ## The most significant bit (R13) -/

theorem msbOf_eq_true_iff (x : Block) : msbOf x = true ↔ 2 ^ 127 ≤ x.toNat := by
  simp [msbOf, BitVec.msb_eq_decide]

theorem msbOf_eq_false_iff (x : Block) : msbOf x = false ↔ x.toNat < 2 ^ 127 := by
  rw [← Bool.not_eq_true, msbOf_eq_true_iff, Nat.not_le]

theorem toNat_msbOf (x : Block) : (msbOf x).toNat = x.toNat / 2 ^ 127 := by
  have hx := x.isLt
  cases h : msbOf x with
  | false => rw [Nat.div_eq_of_lt ((msbOf_eq_false_iff x).mp h), Bool.toNat_false]
  | true =>
    have := (msbOf_eq_true_iff x).mp h
    rw [Bool.toNat_true]
    omega

theorem msbOf_eq_true_iff_byteOf_zero (x : Block) : msbOf x = true ↔ byteOf x 0 >>> 7 = 1 := by
  have hx := x.isLt
  rw [msbOf_eq_true_iff, ← BitVec.toNat_inj, BitVec.toNat_ushiftRight, byteOf, BitVec.extractLsb'_toNat,
    Nat.shiftRight_eq_div_pow, Nat.shiftRight_eq_div_pow, show (1 : Byte).toNat = 1 by rfl]
  omega

/-! ## shl_block (R101) -/

/-- Bit `j` of byte `i` is bit `120 - 8i + j` of the block (R13, R51). -/
theorem getLsbD_byteOf (x : Block) (i : Nat) {j : Nat} (hj : j < 8) :
    (byteOf x i).getLsbD j = x.getLsbD (120 - 8 * i + j) := by
  simp [byteOf, hj]

theorem toNat_shlBlock (x : Block) : (shlBlock x).1.toNat = 2 * x.toNat % 2 ^ 128 := by
  simp [shlBlock, BitVec.toNat_shiftLeft, Nat.shiftLeft_eq, Nat.mul_comm]

theorem getLsbD_shlBlock_zero (x : Block) : (shlBlock x).1.getLsbD 0 = false := by simp [shlBlock]

theorem getLsbD_shlBlock_succ (x : Block) {j : Nat} (hj : j < 127) : (shlBlock x).1.getLsbD (j + 1) = x.getLsbD j := by
  rw [shlBlock, BitVec.getLsbD_shiftLeft, Nat.add_sub_cancel, decide_eq_true (show j + 1 < 128 by omega)]
  simp

theorem getLsbD_byteOf_shlBlock_succ (x : Block) {i j : Nat} (hi : i < 16) (hj : j < 7) :
    (byteOf (shlBlock x).1 i).getLsbD (j + 1) = (byteOf x i).getLsbD j := by
  rw [getLsbD_byteOf _ _ (by omega), getLsbD_byteOf _ _ (by omega), ← Nat.add_assoc, getLsbD_shlBlock_succ x (by omega)]

/-- A byte is `x` shifted up by one with the top bit of `b` below it, if its bits are. -/
theorem eq_shiftLeft_or_of_bits {y x b : Byte} (h0 : y.getLsbD 0 = b.getLsbD 7)
    (hsucc : ∀ j < 7, y.getLsbD (j + 1) = x.getLsbD j) : y = (x <<< 1) ||| (b >>> 7) := by
  apply BitVec.eq_of_getLsbD_eq
  intro j hj
  cases j with
  | zero => simpa using h0
  | succ k =>
    have hb : b.getLsbD (7 + (k + 1)) = false := BitVec.getLsbD_of_ge _ _ (by omega)
    rw [hsucc k (by omega), BitVec.getLsbD_or, BitVec.getLsbD_shiftLeft, BitVec.getLsbD_ushiftRight, hb]
    simp [hj]

/-- The bit that leaves the top of byte `i + 1` enters the bottom of byte `i`. -/
theorem byteOf_shlBlock (x : Block) {i : Nat} (hi : i < 15) :
    byteOf (shlBlock x).1 i = (byteOf x i <<< 1) ||| (byteOf x (i + 1) >>> 7) := by
  refine eq_shiftLeft_or_of_bits ?_ fun j hj => getLsbD_byteOf_shlBlock_succ x (by omega) hj
  rw [getLsbD_byteOf _ _ (by decide), getLsbD_byteOf _ _ (by decide),
    show 120 - 8 * i + 0 = 120 - 8 * (i + 1) + 7 + 1 by omega, getLsbD_shlBlock_succ x (by omega)]

/-- A zero enters the bottom of byte 15. -/
theorem byteOf_shlBlock_last (x : Block) : byteOf (shlBlock x).1 15 = byteOf x 15 <<< 1 := by
  have hbottom : (byteOf (shlBlock x).1 15).getLsbD 0 = (0 : Byte).getLsbD 7 := by
    rw [getLsbD_byteOf _ _ (by decide), getLsbD_shlBlock_zero]
    rfl
  rw [eq_shiftLeft_or_of_bits hbottom fun j hj => getLsbD_byteOf_shlBlock_succ x (by decide) hj]
  simp

/-- Settles O3: the bytes of the shift by the bits that move, its carry as the top bit of byte 0, and its integer value. -/
theorem shiftCarriesAcrossBytes : Obligations.ShiftCarriesAcrossBytes := fun x =>
  ⟨fun _ hi => byteOf_shlBlock x hi, byteOf_shlBlock_last x, msbOf_eq_true_iff_byteOf_zero x, toNat_shlBlock x,
    toNat_msbOf x⟩

/-! ## double_block (R102) -/

theorem doubleBlock_of_msb_false {x : Block} (h : msbOf x = false) : doubleBlock x = (shlBlock x).1 := by
  simp [doubleBlock, shlBlock, h]

theorem doubleBlock_of_msb_true {x : Block} (h : msbOf x = true) : doubleBlock x = xorBlock (shlBlock x).1 rb := by
  simp [doubleBlock, shlBlock, h]

/-- The doubling as one sum: the shift and what the top bit of `x` puts in place of `2^128`. -/
theorem doubleBlock_eq_xorBlock (x : Block) :
    doubleBlock x = xorBlock (shlBlock x).1 (if msbOf x then rb else zeroBlock) := by
  cases h : msbOf x with
  | false => simp [doubleBlock_of_msb_false h]
  | true => simp [doubleBlock_of_msb_true h]

theorem toNat_doubleBlock (x : Block) :
    (doubleBlock x).toNat = (2 * x.toNat % 2 ^ 128) ^^^ (if 2 ^ 127 ≤ x.toNat then 0x87 else 0) := by
  rw [doubleBlock_eq_xorBlock, toNat_xorBlock, toNat_shlBlock, apply_ite BitVec.toNat]
  simp only [msbOf_eq_true_iff]
  rfl

/-- `RB` is 0x87 in byte 15 and 0 in every other byte (R8). -/
theorem byteOf_rb : ∀ i < 16, byteOf rb i = if i = 15 then 0x87 else 0#8 := by decide

/-- Settles O4: the two cases of the doubling, with `RB` read byte by byte. -/
theorem doubleTestsTheOriginalTopBit : Obligations.DoubleTestsTheOriginalTopBit := by
  refine fun x => ⟨fun hx => doubleBlock_of_msb_false ((msbOf_eq_false_iff x).mpr hx), fun hx => ?_⟩
  rw [doubleBlock_of_msb_true ((msbOf_eq_true_iff x).mpr hx)]
  refine ⟨fun i hi => ?_, ?_⟩
  · rw [byteOf_xorBlock, byteOf_rb i (by omega), if_neg (by omega), BitVec.xor_zero]
  · rw [byteOf_xorBlock, byteOf_rb 15 (by decide), if_pos rfl]

/-! ## pad_block (R103) -/

theorem byteOf_padBlock (last : Block) (v : Fin 16) {i : Nat} (hi : i < 16) :
    byteOf (padBlock last v) i = if i < v.val then byteOf last i else if i = v.val then 0x80 else 0x00 := by
  have hlen : ((bytesOf last).take v).length = v := by simp
  rw [padBlock, byteOf_blockOf _ _ hi]
  rcases Nat.lt_trichotomy i v with h | h | h
  · rw [if_pos h, List.getD_append _ _ _ _ (by omega), ← bytesOf_getD last i hi 0, List.getD, List.getElem?_take_of_lt h]
    rfl
  · rw [if_neg (by omega), if_pos h, List.getD_append_right _ _ _ _ (by omega), hlen, h, Nat.sub_self]
    rfl
  · rw [if_neg (by omega), if_neg (by omega), List.getD_eq_default _ _ (by rw [List.length_append, hlen]; exact h)]

/-- Settles O5: the taken bytes, the marker and the zero fill by where `i` stands to `v`. -/
theorem padBlockBytes : Obligations.PadBlockBytes := fun last v _ hi => byteOf_padBlock last v hi

/-! ## The laws (R109) -/

theorem shlBlock_xorBlock (a b : Block) : (shlBlock (xorBlock a b)).1 = xorBlock (shlBlock a).1 (shlBlock b).1 :=
  BitVec.shiftLeft_xor_distrib a b 1

theorem doubleBlock_xorBlock (a b : Block) : doubleBlock (xorBlock a b) = xorBlock (doubleBlock a) (doubleBlock b) := by
  simp only [doubleBlock_eq_xorBlock, shlBlock_xorBlock, msbOf_xorBlock]
  rw [xorBlock_xorBlock_xorBlock_comm (shlBlock a).1]
  cases msbOf a <;> cases msbOf b <;> simp

theorem xorBlock_shlBlock_doubleBlock {x : Block} (h : msbOf x = true) : xorBlock (shlBlock x).1 (doubleBlock x) = rb := by
  rw [doubleBlock_of_msb_true h, xorBlock_xorBlock_cancel_left]

/-- A doubling with the top bit set is odd: the shift leaves bit 0 empty and `RB` fills it. -/
theorem getLsbD_doubleBlock_zero {x : Block} (h : msbOf x = true) : (doubleBlock x).getLsbD 0 = true := by
  rw [doubleBlock_of_msb_true h, xorBlock, BitVec.getLsbD_xor, getLsbD_shlBlock_zero]
  rfl

theorem eq_zero_of_doubleBlock_eq_zero {x : Block} (hx : doubleBlock x = zeroBlock) : x = zeroBlock := by
  cases h : msbOf x with
  | false =>
    have hlt := (msbOf_eq_false_iff x).mp h
    have hshift := congrArg BitVec.toNat ((doubleBlock_of_msb_false h).symm.trans hx)
    rw [toNat_shlBlock, Nat.mod_eq_of_lt (by omega)] at hshift
    exact BitVec.eq_of_toNat_eq (Nat.eq_of_mul_eq_mul_left (by decide) hshift)
  | true =>
    have hodd := getLsbD_doubleBlock_zero h
    rw [hx] at hodd
    exact absurd hodd (by decide)

theorem padBlock_congr {a b : Block} {v : Fin 16} (h : ∀ i < v.val, byteOf a i = byteOf b i) : padBlock a v = padBlock b v :=
  block_ext fun i hi => by
    rw [byteOf_padBlock a v hi, byteOf_padBlock b v hi]
    exact ite_congr rfl (h i) fun _ => rfl

theorem byteOf_padBlock_marker (a : Block) (v : Fin 16) : byteOf (padBlock a v) v = 0x80 := by
  rw [byteOf_padBlock a v v.isLt, if_neg (Nat.lt_irrefl _), if_pos rfl]

theorem byteOf_zeroBlock (i : Nat) : byteOf zeroBlock i = 0 := BitVec.extractLsb'_zero

theorem padBlock_ne_zero (a : Block) (v : Fin 16) : padBlock a v ≠ zeroBlock := fun h => by
  have hmarker := byteOf_padBlock_marker a v
  rw [h, byteOf_zeroBlock] at hmarker
  exact absurd hmarker (by decide)

/-- Settles O7: the laws one by one. -/
theorem blockLaws : Obligations.BlockLaws :=
  ⟨fun a b c => ⟨xorBlock_comm a b, xorBlock_assoc a b c, xorBlock_self a, xorBlock_zero a⟩,
    fun a b => ⟨shlBlock_xorBlock a b, doubleBlock_xorBlock a b⟩,
    fun _ => ⟨xorBlock_shlBlock_doubleBlock, fun h => (doubleBlock_of_msb_false h).symm⟩,
    fun _ => eq_zero_of_doubleBlock_eq_zero,
    fun _ _ _ => padBlock_congr,
    fun a v => ⟨padBlock_ne_zero a v, byteOf_padBlock_marker a v⟩⟩

end Sys2Proof.Machine
end

section
/-! PROOF. Blocks as polynomials over GF(2) (spec/40_block_primitives.md R108): exclusive or is addition, and the doubling is
multiplication by `t` with `t^128` replaced by the polynomial of `RB`. -/

namespace Sys2Proof.Machine

open Polynomial

/-- A block read as a polynomial: bit `b` is the coefficient of `t^b` (R108). -/
noncomputable def blockPoly (x : Block) : (ZMod 2)[X] := ∑ b ∈ Finset.range 128, if x.getLsbD b then X ^ b else 0

/-- `t^7 + t^2 + t + 1`, what stands for `t^128` in the field. -/
noncomputable def reductionPoly : (ZMod 2)[X] := X ^ 7 + X ^ 2 + X + 1

/-- The modulus of the field (R108). -/
noncomputable def fieldPoly : (ZMod 2)[X] := X ^ 128 + reductionPoly

theorem fieldPoly_eq : fieldPoly = X ^ 128 + X ^ 7 + X ^ 2 + X + 1 := by
  unfold fieldPoly reductionPoly
  simp only [← add_assoc]

theorem blockPoly_rb : blockPoly rb = reductionPoly := by
  have hbits : (Finset.range 128).filter (fun b => rb.getLsbD b = true) = {7, 2, 1, 0} := by decide
  rw [blockPoly, ← Finset.sum_filter, hbits]
  simp [reductionPoly, add_assoc]

theorem degree_blockPoly_lt (x : Block) : (blockPoly x).degree < (128 : ℕ) := by
  rw [← mem_degreeLT]
  refine Submodule.sum_mem _ fun b hb => ?_
  split
  · rw [mem_degreeLT, degree_X_pow]
    exact_mod_cast Finset.mem_range.mp hb
  · exact Submodule.zero_mem _

theorem degree_reductionPoly_lt : reductionPoly.degree < (128 : ℕ) := blockPoly_rb ▸ degree_blockPoly_lt rb

theorem fieldPoly_monic : fieldPoly.Monic := by
  unfold fieldPoly
  exact monic_X_pow_add degree_reductionPoly_lt

theorem degree_fieldPoly : fieldPoly.degree = (128 : ℕ) := by
  have hlt : reductionPoly.degree < (X ^ 128 : (ZMod 2)[X]).degree := by
    rw [degree_X_pow]
    exact degree_reductionPoly_lt
  unfold fieldPoly
  rw [degree_add_eq_left_of_degree_lt hlt, degree_X_pow]

theorem blockPoly_xorBlock (a b : Block) : blockPoly (xorBlock a b) = blockPoly a + blockPoly b := by
  simp only [blockPoly, ← Finset.sum_add_distrib]
  refine Finset.sum_congr rfl fun i _ => ?_
  rw [xorBlock, BitVec.getLsbD_xor]
  cases a.getLsbD i <;> cases b.getLsbD i <;> simp [CharTwo.add_self_eq_zero]

/-- The shift multiplies by `t` and loses `t^128` where the top bit was 1. -/
theorem X_mul_blockPoly (x : Block) : X * blockPoly x = blockPoly (shlBlock x).1 + if msbOf x then X ^ 128 else 0 := by
  have hshift : blockPoly (shlBlock x).1 = X * ∑ b ∈ Finset.range 127, if x.getLsbD b then X ^ b else 0 := by
    rw [blockPoly, Finset.sum_range_succ', getLsbD_shlBlock_zero, if_neg Bool.false_ne_true, add_zero, Finset.mul_sum]
    refine Finset.sum_congr rfl fun b hb => ?_
    rw [getLsbD_shlBlock_succ x (Finset.mem_range.mp hb), mul_ite, mul_zero, pow_succ']
  rw [hshift, blockPoly, Finset.sum_range_succ, mul_add, mul_ite, mul_zero, ← pow_succ', msbOf, BitVec.msb_eq_getLsbD_last]

/-- The doubling is the remainder of `t * x`, and the quotient is the top bit. -/
theorem blockPoly_doubleBlock_add (x : Block) :
    blockPoly (doubleBlock x) + fieldPoly * (if msbOf x then 1 else 0) = X * blockPoly x := by
  rw [X_mul_blockPoly]
  cases h : msbOf x with
  | false => simp [doubleBlock_of_msb_false h]
  | true =>
    have hchar : reductionPoly + reductionPoly = 0 := CharTwo.add_self_eq_zero _
    rw [doubleBlock_of_msb_true h, blockPoly_xorBlock, blockPoly_rb, if_pos rfl, if_pos rfl]
    unfold fieldPoly
    linear_combination hchar

theorem blockPoly_doubleBlock (x : Block) : blockPoly (doubleBlock x) = (X * blockPoly x) %ₘ fieldPoly := by
  have hlt : (blockPoly (doubleBlock x)).degree < fieldPoly.degree := by
    rw [degree_fieldPoly]
    exact degree_blockPoly_lt _
  rw [← blockPoly_doubleBlock_add, add_modByMonic, self_mul_modByMonic fieldPoly_monic, add_zero,
    (modByMonic_eq_self_iff fieldPoly_monic).mpr hlt]

/-- Settles O6: `t * x` is the doubling and a multiple of the monic modulus, and the doubling has lower degree. -/
theorem doublingMultipliesInTheField : Obligations.DoublingMultipliesInTheField := by
  intro poly hpoly
  obtain rfl : poly = blockPoly := funext hpoly
  refine ⟨fun x => ?_, blockPoly_xorBlock⟩
  rw [blockPoly_doubleBlock, fieldPoly_eq]

end Sys2Proof.Machine
end

section
/-! PROOF. XORB, SHLB, DBLB and PADB in every state (spec/40_block_primitives.md R104 to R107, R110). -/

namespace Sys2Proof.Machine

/-- What the block primitives have in common (R110): from `s` the command ends in `t` without an error, `v` is in `B[bd]`
and `c` in `CARRY`, and nothing else has changed. -/
structure WritesBlock (s t : State) (bd : BReg) (v : Block) (c : Bool) : Prop where
  value : bd ≠ .z → t.readB bd = v
  carry : t.csr.carry = c
  regs : RegsSameExcept s t [bd]
  ended : EndedWith s t .ok 0
  calls : t.csr.calls = 0
  driver : DriverCsrsSame s t
  bufs : BuffersSame s t
  ports : PortsSame s t
  events : t.events = []

theorem writesBlock_endCommand (s : State) (bd : BReg) (v : Block) (c : Bool) :
    WritesBlock s (((s.openRecord.clearCalls.writeB bd v).setCarry c).endCommand .ok 0) bd v c where
  value hbd := by simp [hbd]
  carry := rfl
  regs r hr := by
    have hne : r ≠ bd := by simpa using hr
    simp [hne]
  ended := ⟨rfl, rfl, rfl, rfl, rfl⟩
  calls := rfl
  driver := ⟨rfl, rfl, rfl, rfl, rfl⟩
  bufs := .of_bufs rfl
  ports := ⟨rfl, rfl, rfl, rfl, rfl⟩
  events := rfl

theorem exec_xorb_writesBlock (bd ba bb : BReg) (s : State) : ∃ t, exec (.xorb bd ba bb) s = .next t ∧
    WritesBlock s t bd (xorBlock (s.readB ba) (s.readB bb)) s.csr.carry :=
  ⟨_, rfl, writesBlock_endCommand s bd _ s.csr.carry⟩

theorem exec_shlb_writesBlock (bd ba : BReg) (s : State) : ∃ t, exec (.shlb bd ba) s = .next t ∧
    WritesBlock s t bd (shlBlock (s.readB ba)).1 (msbOf (s.readB ba)) :=
  ⟨_, rfl, writesBlock_endCommand s bd _ _⟩

theorem exec_dblb_writesBlock (bd ba : BReg) (s : State) : ∃ t, exec (.dblb bd ba) s = .next t ∧
    WritesBlock s t bd (doubleBlock (s.readB ba)) (msbOf (s.readB ba)) :=
  ⟨_, rfl, writesBlock_endCommand s bd _ _⟩

theorem exec_padb_writesBlock (bd ba : BReg) (v : Fin 16) (s : State) : ∃ t, exec (.padb bd ba v) s = .next t ∧
    WritesBlock s t bd (padBlock (s.readB ba) v) s.csr.carry :=
  ⟨_, rfl, writesBlock_endCommand s bd _ s.csr.carry⟩

/-- Settles O20: XORB writes `xor_block`, read byte by byte, and keeps `CARRY`. -/
theorem xorbResultAndFrame : Obligations.XorbResultAndFrame := by
  intro bd ba bb s
  obtain ⟨t, ht, w⟩ := exec_xorb_writesBlock bd ba bb s
  refine ⟨t, ht, fun hbd i _ => ?_, w.regs, w.ended, w.calls, w.carry, w.driver, w.bufs, w.ports, w.events⟩
  rw [w.value hbd, byteOf_xorBlock]

/-- Settles O21: SHLB writes the shift as an integer, and the top bit to `CARRY`. -/
theorem shlbResultAndFrame : Obligations.ShlbResultAndFrame := by
  intro bd ba s
  obtain ⟨t, ht, w⟩ := exec_shlb_writesBlock bd ba s
  refine ⟨t, ht, fun hbd => ?_, ?_, w.regs, w.ended, w.calls, w.driver, w.bufs, w.ports, w.events⟩
  · rw [w.value hbd, toNat_shlBlock]
  · rw [w.carry, toNat_msbOf]

/-- Settles O22: DBLB writes the doubling of the old source as an integer, and the source's top bit to `CARRY`. -/
theorem dblbResultAndFrame : Obligations.DblbResultAndFrame := by
  intro bd ba s
  obtain ⟨t, ht, w⟩ := exec_dblb_writesBlock bd ba s
  refine ⟨t, ht, fun hbd => ?_, ?_, w.regs, w.ended, w.calls, w.driver, w.bufs, w.ports, w.events⟩
  · rw [w.value hbd, toNat_doubleBlock]
  · rw [w.carry, toNat_msbOf]

/-- Settles O23: PADB writes `pad_block`, read byte by byte, and keeps `CARRY`. -/
theorem padbResultAndFrame : Obligations.PadbResultAndFrame := by
  intro bd ba v s
  obtain ⟨t, ht, w⟩ := exec_padb_writesBlock bd ba v s
  refine ⟨t, ht, fun hbd i hi => ?_, w.regs, w.ended, w.calls, w.carry, w.driver, w.bufs, w.ports, w.events⟩
  rw [w.value hbd, byteOf_padBlock _ _ hi]

end Sys2Proof.Machine
end

section
/-! PROOF. LDB, RDB, RDCSR and ZEROIZE in every state (spec/41_register_access.md R120 to R123). -/

namespace Sys2Proof.Machine

/-! ## LDB (R120) -/

/-- Byte `i` is bits `[127-8i : 120-8i]`, as an integer (R51). -/
theorem toNat_byteOf (x : Block) (i : Nat) : (byteOf x i).toNat = x.toNat / 2 ^ (120 - 8 * i) % 256 := by
  rw [byteOf, BitVec.extractLsb'_toNat, Nat.shiftRight_eq_div_pow]

theorem exec_ldb_writesBlock (bd : BReg) (s : State) : ∃ t, exec (.ldb bd) s = .next t ∧
    WritesBlock s t bd s.bundle.data s.csr.carry :=
  ⟨_, rfl, writesBlock_endCommand s bd _ s.csr.carry⟩

/-- Settles O24: LDB writes `DATA` of the presented bundle, read byte by byte, and keeps `CARRY`. -/
theorem ldbResultAndFrame : Obligations.LdbResultAndFrame := by
  intro bd s c rest hin
  obtain ⟨t, ht, w⟩ := exec_ldb_writesBlock bd s
  refine ⟨t, ht, fun hbd i _ => ?_, w.regs, w.ended, w.calls, w.carry, w.driver, w.bufs, w.ports, w.events⟩
  rw [w.value hbd, State.bundle_of_inputs hin, toNat_byteOf]

/-! ## The two readouts (R121, R122) -/

/-- What RDB and RDCSR have in common: from `s` the command answers `v` without an error and leaves the port in `t`, and no
register, CSR, buffer or port has changed. -/
structure ReadsOut (s t : State) (v : Block) : Prop where
  resp : t.resp = some { code := .ok, perrv := 0, rdata := v }
  inputs : t.inputs = afterCommand s.inputs
  outstanding : t.outstanding = none
  regs : t.regs = s.regs
  csr : t.csr = s.csr
  bufs : BuffersSame s t
  ports : PortsSame s t
  events : t.events = []

theorem readsOut_respond (s : State) (v : Block) : ReadsOut s (s.openRecord.respond .ok 0 v) v where
  resp := rfl
  inputs := rfl
  outstanding := rfl
  regs := rfl
  csr := rfl
  bufs := .of_bufs rfl
  ports := ⟨rfl, rfl, rfl, rfl, rfl⟩
  events := rfl

theorem exec_rdb_readsOut (ba : BReg) (s : State) : ∃ t, exec (.rdb ba) s = .next t ∧ ReadsOut s t (s.readB ba) :=
  ⟨_, rfl, readsOut_respond s _⟩

theorem exec_rdcsr_readsOut (n : Fin 16) (s : State) : ∃ t, exec (.rdcsr n) s = .next t ∧
    ReadsOut s t ((s.readCsr n).setWidth 128) :=
  ⟨_, rfl, readsOut_respond s _⟩

/-- Settles O25: RDB is a readout of the register. -/
theorem rdbAnswersAndChangesNothing : Obligations.RdbAnswersAndChangesNothing := by
  intro ba s
  obtain ⟨t, ht, r⟩ := exec_rdb_readsOut ba s
  exact ⟨t, ht, r.resp, r.inputs, r.outstanding, r.regs, r.csr, r.bufs, r.ports, r.events⟩

/-- `CARRY` is bit 0 and `FPAD` is bit 1 (R30). -/
theorem toNat_flagsWord (c : Csrs) : (flagsWord c).toNat = c.carry.toNat + 2 * c.fpad.toNat := by
  unfold flagsWord
  cases c.carry <;> cases c.fpad <;> rfl

/-- The numbers 9 to 15 name no CSR (R86). -/
theorem State.readCsr_of_nine_le (s : State) {n : Fin 16} (hn : 9 ≤ n.val) : s.readCsr n = 0 := by
  unfold State.readCsr
  split
  case h_10 => rfl
  all_goals omega

/-- A readout of the CSR numbered `m` is that CSR, zero-extended (R122). -/
theorem toNat_readout (s : State) {n : Fin 16} (m : Fin 16) (h : n.val = m.val) :
    ((s.readCsr n).setWidth 128).toNat = (s.readCsr m).toNat := by
  rw [Fin.ext h, BitVec.toNat_setWidth_of_le (by decide)]

/-- Settles O26: RDCSR is a readout of the CSR, whose value as an integer is read number by number. -/
theorem rdcsrAnswersAndChangesNothing : Obligations.RdcsrAnswersAndChangesNothing := by
  intro n s
  obtain ⟨t, ht, r⟩ := exec_rdcsr_readsOut n s
  have extended {w : Nat} (x : BitVec w) (hw : w ≤ 64) : (x.setWidth 64).toNat = x.toNat := BitVec.toNat_setWidth_of_le hw
  refine ⟨t, _, ht, r.resp, r.inputs, r.outstanding, r.regs, r.csr, r.bufs, r.ports, r.events,
    fun status => ?_, fun perr => ?_, fun flags => ?_, toNat_readout s 3, toNat_readout s 4, fun rem => ?_,
    toNat_readout s 6, toNat_readout s 7, fun blksz => ?_, fun unnamed => ?_⟩
  · rw [toNat_readout s 0 status]
    show ((codeNumber s.csr.status).setWidth 64).toNat = _
    cases s.csr.status <;> rfl
  · exact (toNat_readout s 1 perr).trans (extended s.csr.perr (by decide))
  · exact (toNat_readout s 2 flags).trans (toNat_flagsWord s.csr)
  · exact (toNat_readout s 5 rem).trans (extended s.csr.rem (by decide))
  · exact (toNat_readout s 8 blksz).trans (extended s.provider.blksz (by decide))
  · rw [s.readCsr_of_nine_le unnamed]
    rfl

/-! ## ZEROIZE (R123) -/

/-- Settles O27: ZEROIZE clears the secrets (`State.readB_clearSecrets`) and ends without an error. -/
theorem zeroizeResultAndFrame : Obligations.ZeroizeResultAndFrame := fun s =>
  ⟨_, rfl, s.openRecord.clearCalls.readB_clearSecrets, rfl, ⟨rfl, rfl, rfl, rfl, rfl⟩, rfl, ⟨rfl, rfl, rfl, rfl, rfl⟩,
    BuffersSame.of_bufs rfl, ⟨rfl, rfl, rfl, rfl, rfl⟩, rfl⟩

end Sys2Proof.Machine
end

section
/-! PROOF. CBCM and GENSUBK in every state in which their one call is answered or fails (spec/42_cipher_and_subkeys.md R140,
R141), and GENSUBK as a sequence of primitives (R145). -/

namespace Sys2Proof.Machine

/-! ## The shape CBCM and GENSUBK share, by what becomes of the call -/

section
variable (s : State) (key : KeyHandle) (blk : Block) (iv : Option Block) (onAnswer : Block → State → State)

theorem oneCall_of_wrong (wrong : s.provider.blksz ≠ 16) :
    oneCall key blk iv onAnswer s = .next (s.endCommand .eBlksz 0) :=
  if_pos (s.wrongBlockSize_eq_true.mpr wrong)

theorem oneCall_of_fails (right : s.provider.blksz = 16) {code : ErrCode} (fails : s.nextVerdict = .fails code) :
    oneCall key blk iv onAnswer s = .next ((s.recordCall key blk iv (.err code)).endCommand .eProvider code) := by
  rw [oneCall, s.wrongBlockSize_eq_false.mpr right, cipherCall_fails fails]
  rfl

theorem oneCall_of_answers (right : s.provider.blksz = 16) (answers : s.nextVerdict = .answers) {mac : Block}
    (hmac : mac = s.provider.cbcMac key blk iv) :
    oneCall key blk iv onAnswer s = .next ((onAnswer mac (s.recordCall key blk iv (.ok mac))).endCommand .ok 0) := by
  rw [oneCall, s.wrongBlockSize_eq_false.mpr right, cipherCall_answers answers, ← hmac]
  rfl

end

/-! ## The frame -/

/-- How a command that is not the driver ends with a code, having made `n` calls, and what it leaves unchanged beside the block
registers and `CARRY`. -/
structure EndFrame (s t : State) (code : Code) (pcode : ErrCode) (n : Nat) : Prop where
  ended : EndedWith s t code pcode
  calls : t.csr.calls = BitVec.ofNat 64 n
  driver : DriverCsrsSame s t
  bufs : BuffersSame s t
  provider : t.provider = s.provider
  verdicts : t.verdicts = s.verdicts.drop n
  phase : t.phase = s.phase
  cursor : t.cursor = s.cursor

theorem PlainBody.endFrame {s u : State} {n : Nat} (h : PlainBody s u n) (code : Code) (pcode : ErrCode) :
    EndFrame s (u.endCommand code pcode) code pcode n where
  ended := ⟨rfl, rfl, rfl, congrArg afterCommand h.advanced.inputs, rfl⟩
  calls := h.advanced.calls.trans (BitVec.zero_add _)
  driver := h.driverCsrs
  bufs := .of_bufs h.advanced.bufs
  provider := h.advanced.provider
  verdicts := h.advanced.verdicts
  phase := h.phase
  cursor := h.cursor

/-! ## The errors (R140, R141, R208) -/

/-- Whatever the writes on an answer, an error comes before them. -/
theorem oneCall_errorsWriteNoRegister (key : KeyHandle) (blk : Block) (iv : Option Block)
    (onAnswer : Block → State → State) (s : State) :
    (s.provider.blksz ≠ 16 → ∃ t, oneCall key blk iv onAnswer s.openRecord.clearCalls = .next t ∧
      EndedWith s t .eBlksz 0 ∧ t.csr.calls = 0 ∧ RegsSameExcept s t [] ∧ t.csr.carry = s.csr.carry ∧
      DriverCsrsSame s t ∧ BuffersSame s t ∧ PortsSame s t ∧ t.events = []) ∧
    ∀ code, s.provider.blksz = 16 → s.nextVerdict = .fails code →
      ∃ t, oneCall key blk iv onAnswer s.openRecord.clearCalls = .next t ∧ EndedWith s t .eProvider code ∧
        t.csr.calls = 1 ∧ RegsSameExcept s t [] ∧ t.csr.carry = s.csr.carry ∧ DriverCsrsSame s t ∧ BuffersSame s t ∧
        t.verdicts = s.verdicts.tail := by
  refine ⟨fun wrong => ?_, fun code right fails => ?_⟩
  · have frame := (PlainBody.start s).endFrame .eBlksz 0
    exact ⟨_, oneCall_of_wrong s.openRecord.clearCalls key blk iv onAnswer wrong, frame.ended, frame.calls,
      fun _ _ => rfl, rfl, frame.driver, frame.bufs, ⟨rfl, rfl, rfl, rfl, rfl⟩, rfl⟩
  · have frame := (PlainBody.recordCall s key blk iv (.err code)).endFrame .eProvider code
    exact ⟨_, oneCall_of_fails s.openRecord.clearCalls key blk iv onAnswer right fails, frame.ended, frame.calls,
      fun _ _ => rfl, rfl, frame.driver, frame.bufs, frame.verdicts.trans List.drop_one⟩

/-- Settles O30: CBCM has the shape of one call (`execCbcm_eq_oneCall`). -/
theorem cbcmErrorsWriteNoRegister : Obligations.CbcmErrorsWriteNoRegister := fun bd ba ch s =>
  oneCall_errorsWriteNoRegister s.bundle.key (s.readB ba) (chainInput ch s) (fun mac u => u.writeChained bd ch mac) s

/-- Settles O32: GENSUBK has the shape of one call (`execGensubk_eq_oneCall`). -/
theorem gensubkErrorsWriteNoRegister : Obligations.GensubkErrorsWriteNoRegister := fun s =>
  oneCall_errorsWriteNoRegister s.bundle.key zeroBlock none (fun mac u => u.setSubkeys mac) s

/-! ## The answered call (R140, R141) -/

/-- The provider XORs the running IV of CBCM into the block if `C = 1` (R59). -/
theorem cbcMac_chainInput (p : Provider) (key : KeyHandle) (blk : Block) (c : Bool) (s : State) :
    p.cbcMac key blk (chainInput c s) = p.enc key (if c then xorBlock blk (s.readB .cv) else blk) := by
  cases c <;> rfl

section
variable {s : State} {c : Command} {rest : List Input} (presented : s.inputs = .command c :: rest)
  (right : s.provider.blksz = 16) (answers : s.nextVerdict = .answers)
include presented right answers

theorem exec_cbcm_of_answers (bd ba : BReg) (ch : Bool) {mac : Block}
    (hmac : mac = s.provider.enc c.bundle.key (if ch then xorBlock (s.readB ba) (s.readB .cv) else s.readB ba)) :
    exec (.cbcm bd ba ch) s = .next (((s.openRecord.clearCalls.recordCall c.bundle.key (s.readB ba) (chainInput ch s)
      (.ok mac)).writeChained bd ch mac).endCommand .ok 0) := by
  rw [← cbcMac_chainInput] at hmac
  rw [← State.bundle_of_inputs presented] at hmac ⊢
  exact oneCall_of_answers s.openRecord.clearCalls _ _ _ (fun mac u => u.writeChained bd ch mac) right answers hmac

theorem exec_gensubk_of_answers {mac : Block} (hmac : mac = s.provider.enc c.bundle.key zeroBlock) :
    exec .gensubk s = .next (((s.openRecord.clearCalls.recordCall c.bundle.key zeroBlock none
      (.ok mac)).setSubkeys mac).endCommand .ok 0) := by
  rw [← State.bundle_of_inputs presented] at hmac ⊢
  exact oneCall_of_answers s.openRecord.clearCalls _ _ _ (fun mac u => u.setSubkeys mac) right answers hmac

end

/-- CBCM writes its destination and, if `C = 1`, `CV` (R140). -/
theorem regsSameExcept_writeChained (s : State) (bd : BReg) (c : Bool) (mac : Block) :
    RegsSameExcept s (s.writeChained bd c mac) (bd :: if c then [.cv] else []) := by
  intro r hr
  have hbd : r ≠ bd := List.ne_of_not_mem_cons hr
  have hcv : ¬(c = true ∧ r = .cv) := by
    rintro ⟨rfl, rfl⟩
    simp at hr
  simp [hbd, hcv]

/-- Settles O29: what stands in the registers is read off `State.writeChained`, the rest is the frame of one call. -/
theorem cbcmAnsweredResultAndFrame : Obligations.CbcmAnsweredResultAndFrame := by
  intro bd ba ch s c rest presented right answers
  obtain ⟨mac, hmac⟩ : ∃ mac, mac = s.provider.enc c.bundle.key
    (if ch then xorBlock (s.readB ba) (s.readB .cv) else s.readB ba) := ⟨_, rfl⟩
  have frame := ((PlainBody.recordCall s c.bundle.key (s.readB ba) (chainInput ch s) (.ok mac)).writeChained
    bd ch mac).endFrame .ok 0
  exact ⟨_, mac, exec_cbcm_of_answers presented right answers bd ba ch hmac, hmac, fun hbd => by simp [hbd],
    fun hch => by simp [hch], regsSameExcept_writeChained _ bd ch mac, frame.ended, frame.calls, by simp, frame.driver,
    frame.bufs, frame.provider, frame.verdicts.trans List.drop_one, frame.phase, frame.cursor, by simp [chainInput]⟩

/-- Settles O31: what stands in the registers is read off `State.setSubkeys`, the rest is the frame of one call. -/
theorem gensubkAnsweredResultAndFrame : Obligations.GensubkAnsweredResultAndFrame := by
  intro s c rest presented right answers
  obtain ⟨mac, hmac⟩ : ∃ mac, mac = s.provider.enc c.bundle.key zeroBlock := ⟨_, rfl⟩
  have frame := ((PlainBody.recordCall s c.bundle.key zeroBlock none (.ok mac)).setSubkeys mac).endFrame .ok 0
  refine ⟨_, exec_gensubk_of_answers presented right answers hmac, by simp [hmac], by simp, by simp, toNat_msbOf _,
    fun r hr => ?_, frame.ended, frame.calls, frame.driver, frame.bufs, frame.provider,
    frame.verdicts.trans List.drop_one, frame.phase, frame.cursor, by simp⟩
  simp only [List.mem_cons, List.not_mem_nil, or_false, not_or] at hr
  obtain ⟨hl, hk1, hk2⟩ := hr
  simp [hl, hk1, hk2]

/-! ## GENSUBK as a sequence of primitives (R145) -/

/-- The step carries out a presented command given by its encoding. -/
theorem step_of_encoded {s : State} (idle : s.outstanding = none) (i : Instr) {b : Bundle} {rest : List Input}
    (presented : s.inputs = .command { word := encode i, bundle := b } :: rest) : step s = exec i s :=
  stepExecutesTheDecodedCommand s _ rest i idle presented (decode_encode i)

/-- Settles O33: CBCM makes GENSUBK's call, and XORB, DBLB, DBLB leave the values of `State.setSubkeys`, which keeps the
XOR with zero; `rest` is written as what GENSUBK leaves presented. -/
theorem gensubkEqualsThePrimitiveSequence : Obligations.GensubkEqualsThePrimitiveSequence := by
  intro s u b b1 b2 b3 rest idle right answers presented hu
  obtain rfl : rest = afterCommand s.inputs := by rw [presented, afterCommand_command]
  have gensubk := (step_of_encoded idle .gensubk presented).trans (exec_gensubk_of_answers presented right answers rfl)
  have idle' : u.outstanding = none := by rw [hu, idle]
  have right' : u.provider.blksz = 16 := by rw [hu, right]
  have answers' : u.nextVerdict = .answers := by rw [hu]; exact answers
  have presented' := congrArg State.inputs hu
  have cbcm := (step_of_encoded idle' (.cbcm .l .z false) presented').trans
    (exec_cbcm_of_answers presented' right' answers' .l .z false rfl)
  subst hu
  exact ⟨_, _, _, _, _, gensubk, cbcm, step_of_encoded rfl (.xorb .l .l .z) rfl, step_of_encoded rfl (.dblb .k1 .l) rfl,
    step_of_encoded rfl (.dblb .k2 .k1) rfl, rfl, rfl, rfl, rfl, rfl⟩

end Sys2Proof.Machine
end

section
/-! PROOF. CMAC by the way it ends: the plan of step 4, the block-size error, the exit and the number of calls
(spec/43_mac_driver.md R162, R165, R171, R175). -/

namespace Sys2Proof.Machine

/-! ## The plan of step 4 (R165) -/

/-- Settles O37: by the three cases in which step 4 plans: an empty message, whole blocks, a short last block. -/
theorem finalBlockPlanIsConsistent : Obligations.FinalBlockPlanIsConsistent := by
  intro length
  by_cases empty : length = 0
  · simp [blockCount, needsPadding, remainder, empty]
  · by_cases whole : length % 16 = 0
    · simp only [blockCount, needsPadding, empty, whole, if_false, if_true]
      refine ⟨by omega, by simp [empty], ?_, by omega⟩
      rw [if_neg Bool.false_ne_true]
      omega
    · simp only [blockCount, needsPadding, remainder, ceil16, empty, whole, if_false, if_true]
      exact ⟨by omega, by simp, by omega, by simp⟩

/-! ## The block size (R162) and the exit (R171) -/

/-- Settles O41: step 1 leaves for the exit before any port is used (`cmacSteps_cases`). -/
theorem cmacBlockSizeMismatchTouchesNoPort : Obligations.CmacBlockSizeMismatchTouchesNoPort := by
  intro s wrong
  rcases cmacSteps_cases s with ⟨-, steps⟩ | ⟨right, -⟩ | ⟨right, -⟩
  · exact ⟨_, execCmac_exit steps, ⟨rfl, rfl, rfl, rfl, rfl⟩, rfl, rfl, rfl, rfl, rfl, rfl, rfl, BuffersSame.of_bufs rfl,
      rfl, rfl, State.readB_of_regs_zero rfl, rfl⟩
  · exact absurd (s.wrongBlockSize_eq_false.mp right) wrong
  · exact absurd (s.wrongBlockSize_eq_false.mp right) wrong

/-- Settles O44: every way in which CMAC ends goes through the exit (`CmacEnd.exit`). -/
theorem cmacClearsSecretsOnEveryExit : Obligations.CmacClearsSecretsOnEveryExit := by
  intro s t h ended
  obtain ⟨code, pcode, exit⟩ := (cmacEnd_of_exec h ended).exit
  have answer := exit.ended
  obtain ⟨rfl, rfl, -⟩ := exit.ended
  exact ⟨State.readB_of_regs_zero exit.regs, exit.carry, exit.phase, exit.cursor, answer⟩

/-! ## The number of calls (R175) -/

/-- Within the limits of R11, `LEN` does not wrap. -/
theorem CmacLen.toNat_eq {s t : State} {c : Command} {rest : List Input} (h : CmacLen s t)
    (presented : s.inputs = .command c :: rest) (hwf : c.wf) :
    t.csr.len.toNat = (signedStream c.bundle.segl).length := by
  have := signedStream_length_lt hwf
  rw [h, State.bundle_of_inputs presented, BitVec.toNat_ofNat]
  omega

/-- Settles O45: by the ways in which CMAC ends (`CmacEnd`); within the limits of R11 no count wraps. -/
theorem cmacCallCount : Obligations.CmacCallCount := by
  intro s t c rest presented hwf h ended
  have hn := (blockCount_spec (signedStream c.bundle.segl).length).1
  cases cmacEnd_of_exec h ended with
  | blksz _ exit _ _ _ _ _ calls _ verdicts =>
    obtain ⟨status, -⟩ := exit.ended
    simp [status, calls, verdicts]
  | subkeys _ code exit _ _ _ _ _ calls _ verdicts =>
    obtain ⟨status, -⟩ := exit.ended
    simp [status, calls, verdicts]
  | block _ code j hj exit len planned _ calls _ verdicts =>
    obtain ⟨status, -⟩ := exit.ended
    have hlt := planned.nblk_lt
    have hcalls : t.csr.calls.toNat = j + 2 := by
      rw [calls, BitVec.toNat_ofNat]
      omega
    rw [planned.nblk_toNat, len.toNat_eq presented hwf] at hj
    have hle : j + 2 ≤ blockCount (signedStream c.bundle.segl).length + 1 := by omega
    simpa [status, hcalls, verdicts] using hle
  | outcap _ _ exit _ planned _ calls _ verdicts =>
    obtain ⟨status, -⟩ := exit.ended
    simp [status, planned.calls_toNat calls, verdicts]
  | success _ _ tag exit _ planned _ calls _ verdicts =>
    obtain ⟨status, -⟩ := exit.ended
    simp [status, planned.calls_toNat calls, verdicts]

end Sys2Proof.Machine
end

section
/-! PROOF. A CMAC whose requests are all answered: the tag, what stands in the state and at the ports when it has been computed,
and the whole command with a buffer that has room (spec/43_mac_driver.md R168 to R173). -/

namespace Sys2Proof.Machine

/-! ## The final block (R168) -/

/-- The mask of step 7 is that of the closed form, where step 4 planned for the length of the stream. -/
theorem maskFinal_eq_finalBlock {s : State} {enc : Block → Block} {stream : List Byte} (planned : PlannedFor s stream.length)
    (hk1 : s.readB .k1 = doubleBlock (enc zeroBlock)) (hk2 : s.readB .k2 = doubleBlock (doubleBlock (enc zeroBlock))) :
    maskFinal s (streamBlock stream (blockCount stream.length - 1)) = finalBlock enc stream := by
  obtain ⟨-, -, hrem, hpad⟩ := planned
  have hv : s.csr.rem.toFin = ⟨stream.length % 16, Nat.mod_lt _ (by decide)⟩ := Fin.ext hrem
  have complete := (finalBlockPlanIsConsistent stream.length).2.1
  by_cases h : stream.length ≠ 0 ∧ stream.length % 16 = 0
  · rw [maskFinal, finalBlock, if_pos h, hpad, complete.mpr h, hk1]
    rfl
  · rw [maskFinal, finalBlock, if_neg h, hpad, eq_true_of_ne_false (mt complete.mp h), hv, hk2]
    rfl

/-! ## Steps 7 and 8, answered -/

/-- Before the last block, everything ready for it: the last pull and the last call give the tag (R168, R169, R173). -/
theorem finalSteps_answered {s : State} {enc : Block → Block} {stream : List Byte} {n : Nat}
    (hn : n = blockCount stream.length) (h : AtBlock enc stream (n - 1) s) (planned : PlannedFor s stream.length)
    (hk1 : s.readB .k1 = doubleBlock (enc zeroBlock)) (hk2 : s.readB .k2 = doubleBlock (doubleBlock (enc zeroBlock)))
    (hsource : s.sourceAnswers.head? ≠ some 0) (hcall : s.nextVerdict = .answers) :
    ∃ t, (cmacS7 s).andThen finishSteps = cmacS9 t ∧ Advanced s t 1 1 ∧ t.readB .cv = closedTag enc stream ∧
      t.events = s.events ++ [.segPull (chunkAt stream (16 * (n - 1))),
        .cipher s.bundle.key (finalBlock enc stream) (some (chainValue enc stream (n - 1))) (.ok (closedTag enc stream))] := by
  subst hn
  have hchunk : (s.enterPhase .s7).nextChunk = chunkAt stream (16 * (blockCount stream.length - 1)) := by
    rw [State.nextChunk, State.enterPhase_cursor, h.cursor, Option.getD_some]
    exact congrArg (chunkAt · _) h.stream
  have hmask := maskFinal_eq_finalBlock (s := (s.enterPhase .s7).afterPull) planned hk1 hk2
  have h7 := cmacS7_of_answer hsource
  rw [hchunk, ← streamBlock, hmask] at h7
  obtain ⟨u, hu⟩ : ∃ u, u = ((s.enterPhase .s7).afterPull.writeB .m (finalBlock enc stream)).enterPhase .s8 := ⟨_, rfl⟩
  have hadv : Advanced s u 1 0 := hu ▸ (((Advanced.enterPhase s .s7).trans (.afterPull _)).trans
    (.writeB _ .m (finalBlock enc stream))).trans (.enterPhase _ .s8)
  have hm : u.readB .m = finalBlock enc stream := by rw [hu]; rfl
  have hcv : u.readB .cv = chainValue enc stream (blockCount stream.length - 1) := by rw [hu]; exact h.cv
  have htag : u.chained = closedTag enc stream := by
    rw [State.chained, hm, hcv, hadv.bundle, hadv.provider, closedTag, h.enc]
    rfl
  have hevents : u.events = s.events ++ [.segPull (chunkAt stream (16 * (blockCount stream.length - 1)))] := by
    rw [hu, ← hchunk]
    rfl
  have h8 := chainBlock_of_answers (s := u) (by rw [hu]; exact hcall)
  rw [hm, hcv, htag, hadv.bundle] at h8
  refine ⟨_, ?_, (hadv.trans (.recordCall u s.bundle.key (finalBlock enc stream)
    (some (chainValue enc stream (blockCount stream.length - 1))) (.ok (closedTag enc stream)))).trans
    (.writeB _ .cv (closedTag enc stream)), rfl, ?_⟩
  · rw [h7, Walk.go_andThen, finishSteps, cmacS8, ← hu, h8, Walk.go_andThen]
  · rw [State.writeB_events, State.recordCall_events, hevents, List.append_assoc]
    rfl

/-! ## From the entry to the tag -/

theorem State.callsAnswer_mono {s : State} {k m : Nat} (h : s.callsAnswer m) (hle : k ≤ m) : s.callsAnswer k :=
  fun v hv => h v (List.take_subset_take_left _ hle hv)

theorem State.callsAnswer_drop {s t : State} {j k : Nat} (h : s.callsAnswer (j + k))
    (ht : t.verdicts = s.verdicts.drop j) : t.callsAnswer k := fun v hv => by
  rw [ht, List.take_drop] at hv
  exact h v (List.mem_of_mem_drop hv)

theorem State.sourceLasts_mono {s : State} {k m : Nat} (h : s.sourceLasts m) (hle : k ≤ m) : s.sourceLasts k :=
  fun j hj => hle.trans (h j hj)

theorem State.sourceLasts_sub {s t : State} {j k : Nat} (h : s.sourceLasts (j + k))
    (ht : t.sourceAnswers = s.sourceAnswers.modifyHead (· - j)) : t.sourceLasts k := by
  intro m hm
  rw [ht, List.head?_modifyHead] at hm
  obtain ⟨q, hq, rfl⟩ := Option.map_eq_some_iff.mp hm
  have := h q hq
  omega

section
variable {s : State} {c : Command} {rest : List Input} {n : Nat} {enc : Block → Block} {stream : List Byte}
  (presented : s.inputs = .command c :: rest) (hwf : c.wf) (hstream : stream = signedStream c.bundle.segl)
  (henc : enc = s.provider.enc c.bundle.key) (hn : n = blockCount stream.length) (right : s.provider.blksz = 16)
  (calls : s.callsAnswer (n + 1)) (lasts : s.sourceLasts (c.bundle.segl.length + n))
include presented hwf hstream henc hn right calls lasts

/-- CMAC up to step 9, every request answered: `CV` holds the tag, and every port event but the output write has happened. -/
theorem cmac_reaches_tag :
    ∃ t, cmacSteps (cmacEntry s) = cmacS9 t ∧ t.bundle = c.bundle ∧ t.bufs = s.bufs ∧ t.readB .cv = closedTag enc stream ∧
      t.events = eventsBeforePull c.bundle enc (n - 1) ++ [.segPull (chunkAt stream (16 * (n - 1))),
        .cipher c.bundle.key (finalBlock enc stream) (some (chainValue enc stream (n - 1))) (.ok (closedTag enc stream))] := by
  subst hstream henc
  have hpos : 1 ≤ n := hn ▸ (blockCount_spec _).1
  obtain ⟨u, hu, hat, hadv, -, hk1, hk2, planned, -, -, hbundle, hverdicts, hsource, hevents⟩ :=
    cmac_reaches_block s c rest n (n - 1) presented hwf hn (by omega) right
      (State.callsAnswer_mono calls (by omega)) (State.sourceLasts_mono lasts (by omega))
  have hcall : u.nextVerdict = .answers :=
    State.callsAnswer_next (k := 0) (State.callsAnswer_drop (State.callsAnswer_mono calls (by omega)) hverdicts)
  have hask : u.sourceAnswers.head? ≠ some 0 :=
    State.sourceLasts_ne (k := 0) (State.sourceLasts_sub (State.sourceLasts_mono lasts (by omega)) hsource)
  obtain ⟨t, ht, hadv', htag, hevents'⟩ := finalSteps_answered hn hat planned hk1 hk2 hask hcall
  refine ⟨t, ?_, hadv'.bundle.trans hbundle, hadv'.bufs.trans hadv.bufs, htag, ?_⟩
  · rw [hu, Nat.sub_self, chainBlocks, Walk.go_andThen, ht]
  · rw [hevents', hevents, hbundle]

/-- The whole command, where the buffer has room for the tag: what it writes, what has passed at the ports, that it ends. -/
theorem exec_cmac_of_answers (room : 16 ≤ (s.buf c.bundle.out).cap.toNat) :
    ∃ t, exec .cmac s = .next t ∧ t.csr.status = .ok ∧ t.outstanding = none ∧
      t.bufs = putBuf s.bufs c.bundle.out ((s.buf c.bundle.out).withTag (closedTag enc stream)) ∧
      t.events = successEvents c.bundle enc := by
  obtain ⟨u, hu, hbundle, hbufs, htag, hevents⟩ := cmac_reaches_tag presented hwf hstream henc hn right calls lasts
  have hbuf : u.buf c.bundle.out = s.buf c.bundle.out := by rw [State.buf, hbufs, State.buf]
  have h9 := cmacS9_of_room (s := u) (by rw [hbundle, hbuf]; omega)
  rw [hbundle, htag] at h9
  refine ⟨_, execCmac_go (hu.trans h9), rfl, rfl, ?_, ?_⟩
  · rw [← hbuf, ← hbufs]
    rfl
  · subst hstream hn
    show u.events ++ [.memWrite c.bundle.out 0 (bytesOf _)] = _
    rw [hevents, successEvents, List.append_assoc]
    rfl

end

/-! ## The statements -/

/-- Settles O40: the events of `exec_cmac_of_answers`. -/
theorem cmacPortEventsInOrder : Obligations.CmacPortEventsInOrder := by
  intro s c rest presented hwf right room calls lasts
  obtain ⟨t, ht, -, -, -, hevents⟩ := exec_cmac_of_answers presented hwf rfl rfl rfl right calls lasts room
  exact ⟨t, ht, hevents⟩

/-- A CMAC that ends with `OK` has ended in the last way of `CmacEnd`. -/
theorem CmacEnd.of_ok {s t : State} (h : CmacEnd s t) (ok : t.csr.status = .ok) :
    CmacExit s t .ok 0 ∧ CmacLen s t ∧ CmacPlanned t ∧ t.csr.idx = t.csr.nblk ∧ t.csr.calls = t.csr.nblk + 1 := by
  cases h with
  | success _ _ tag exit len planned idx calls => exact ⟨exit, len, planned, idx, calls⟩
  | blksz _ exit => exact absurd (exit.ended.1.symm.trans ok) (by decide)
  | subkeys _ code exit => exact absurd (exit.ended.1.symm.trans ok) (by decide)
  | block _ code j _ exit => exact absurd (exit.ended.1.symm.trans ok) (by decide)
  | outcap _ _ exit => exact absurd (exit.ended.1.symm.trans ok) (by decide)

/-- Settles O39: the buffers by `exec_cmac_of_answers`, all that stands in the engine by `CmacEnd.of_ok`. -/
theorem cmacWritesTheClosedFormTag : Obligations.CmacWritesTheClosedFormTag := by
  rintro s c rest n length presented hwf buffers rfl rfl right room calls lasts
  obtain ⟨t, ht, ok, ended, hbufs, -⟩ := exec_cmac_of_answers presented hwf rfl rfl rfl right calls lasts room
  obtain ⟨exit, hlen, planned, hidx, hcalls⟩ := (cmacEnd_of_exec ht ended).of_ok ok
  have hbuf (ref : Nat) : t.buf ref = if ref = c.bundle.out then (s.buf c.bundle.out).withTag
      (closedTag (s.provider.enc c.bundle.key) (signedStream c.bundle.segl)) else s.buf ref := by
    rw [State.buf, hbufs, findBuf_putBuf]
    rfl
  have len := hlen.toNat_eq presented hwf
  have nblk := planned.nblk_toNat
  have rem : t.csr.rem.toNat = t.csr.len.toNat % 16 := by
    rw [planned.rem, BitVec.toNat_ofNat, remainder]
    omega
  have call := planned.calls_toNat hcalls
  rw [len] at nblk rem
  rw [nblk] at call
  refine ⟨t, ht, exit.ended, fun a => ?_, ?_, ?_, fun ref hne => ?_, len, nblk, len ▸ planned.fpad, rem, hidx ▸ nblk,
    call, State.readB_of_regs_zero exit.regs, exit.carry, exit.phase, exit.cursor, exit.provider⟩
  · rw [hbuf, if_pos rfl, OutBuf.read_withTag (buffers.buf _)]
  · rw [hbuf, if_pos rfl, OutBuf.withTag_len]
  · rw [hbuf, if_pos rfl, OutBuf.withTag_cap]
  · simp [BufferSame, hbuf, hne]

end Sys2Proof.Machine
end

section
/-! PROOF. Two runs of CMAC that go the same course: what a run does not depend on (spec/43_mac_driver.md R176,
spec/70_reset_and_hazards.md R231, R238). -/

namespace Sys2Proof.Machine

/-! ## States from which CMAC goes the same course -/

/-- What a CMAC command's course depends on is the same in both states: the key, the output reference, the signed stream, the
provider and what becomes of the requests, the buffers, the driver's CSRs, the port events that `keep` keeps, and the registers
`rs`. Where `held` holds, so is all else that a command left waiting shows: every register, `STATUS`, `PERR` and `CARRY`. -/
structure SameCourse (keep : Event → Bool) (held : Prop) (rs : List BReg) (s s' : State) : Prop where
  key : s'.bundle.key = s.bundle.key
  out : s'.bundle.out = s.bundle.out
  stream : s'.stream = s.stream
  descs : s'.bundle.segl = s.bundle.segl ∨ (s.sourceAnswers = [] ∧ ∀ i sign len, keep (.segDesc i sign len) = false)
  after : afterCommand s'.inputs = afterCommand s.inputs
  provider : s'.provider = s.provider
  bufs : s'.bufs = s.bufs
  verdicts : s'.verdicts = s.verdicts
  source : s'.sourceAnswers = s.sourceAnswers
  phase : s'.phase = s.phase
  cursor : s'.cursor = s.cursor
  len : s'.csr.len = s.csr.len
  nblk : s'.csr.nblk = s.csr.nblk
  rem : s'.csr.rem = s.csr.rem
  fpad : s'.csr.fpad = s.csr.fpad
  idx : s'.csr.idx = s.csr.idx
  calls : s'.csr.calls = s.csr.calls
  events : s'.events.filter keep = s.events.filter keep
  regs : ∀ r, held ∨ r ∈ rs → s'.readB r = s.readB r
  status : held → s'.csr.status = s.csr.status
  perr : held → s'.csr.perr = s.csr.perr
  carry : held → s'.csr.carry = s.csr.carry

variable {keep : Event → Bool} {held : Prop} {rs rs' : List BReg} {s s' u u' : State}

theorem SameCourse.mono (h : SameCourse keep held rs s s') (hsub : rs' ⊆ rs) : SameCourse keep held rs' s s' :=
  { h with regs := fun r hr => h.regs r (hr.imp_right (hsub ·)) }

/-- Stretches with as many pulls and calls keep it, if what `Advanced` leaves open stays the same. -/
theorem SameCourse.advance {pulls calls : Nat} (h : SameCourse keep held rs s s') (hu : Advanced s u pulls calls)
    (hu' : Advanced s' u' pulls calls) (source : u'.sourceAnswers = u.sourceAnswers) (phase : u'.phase = u.phase)
    (cursor : u'.cursor = u.cursor) (events : u'.events.filter keep = u.events.filter keep)
    (regs : ∀ r, held ∨ r ∈ rs' → u'.readB r = u.readB r) (carry : held → u'.csr.carry = u.csr.carry) :
    SameCourse keep held rs' u u' where
  key := by rw [hu.bundle, hu'.bundle, h.key]
  out := by rw [hu.bundle, hu'.bundle, h.out]
  stream := by rw [State.stream, State.stream, hu.bundle, hu'.bundle]; exact h.stream
  descs := by rw [hu.bundle, hu'.bundle]; exact h.descs.imp_right (And.imp_left hu.source)
  after := by rw [hu.inputs, hu'.inputs, h.after]
  provider := by rw [hu.provider, hu'.provider, h.provider]
  bufs := by rw [hu.bufs, hu'.bufs, h.bufs]
  verdicts := by rw [hu.verdicts, hu'.verdicts, h.verdicts]
  source := source
  phase := phase
  cursor := cursor
  len := by rw [hu.len, hu'.len, h.len]
  nblk := by rw [hu.nblk, hu'.nblk, h.nblk]
  rem := by rw [hu.rem, hu'.rem, h.rem]
  fpad := by rw [hu.fpad, hu'.fpad, h.fpad]
  idx := by rw [hu.idx, hu'.idx, h.idx]
  calls := by rw [hu.calls, hu'.calls, h.calls]
  events := events
  regs := regs
  status := fun held => by rw [hu.status, hu'.status, h.status held]
  perr := fun held => by rw [hu.perr, hu'.perr, h.perr held]
  carry := carry

/-! ## The operations of the driver -/

/-- One and the same event recorded after events that agree in what is kept. -/
theorem filter_append_congr {es es' : List Event} (h : es'.filter keep = es.filter keep) (e : Event) :
    (es' ++ [e]).filter keep = (es ++ [e]).filter keep := by
  rw [List.filter_append, List.filter_append, h]

theorem SameCourse.enterPhase (h : SameCourse keep held rs s s') (p : Phase) :
    SameCourse keep held rs (s.enterPhase p) (s'.enterPhase p) :=
  h.advance (.enterPhase s p) (.enterPhase s' p) h.source rfl h.cursor h.events h.regs h.carry

/-- A register written with the same value is the same from there on. -/
theorem SameCourse.writeB (h : SameCourse keep held rs s s') (r : BReg) {v v' : Block} (hv : v' = v) :
    SameCourse keep held (r :: rs) (s.writeB r v) (s'.writeB r v') := by
  subst hv
  refine h.advance (.writeB s r v') (.writeB s' r v') h.source h.phase h.cursor h.events (fun q hq => ?_) h.carry
  rw [State.readB_writeB, State.readB_writeB]
  by_cases written : q = r ∧ r ≠ .z
  · rw [if_pos written, if_pos written]
  · rw [if_neg written, if_neg written]
    by_cases hz : q = .z
    · rw [hz, State.readB_z, State.readB_z]
    · have hqr : q ≠ r := by
        rintro rfl
        exact written ⟨rfl, hz⟩
      exact h.regs q (hq.imp_right (List.mem_of_ne_of_mem hqr))

theorem SameCourse.recordCall (h : SameCourse keep held rs s s') {key key' : KeyHandle} {blk blk' : Block}
    {iv iv' : Option Block} {a a' : CipherAnswer} (hkey : key' = key) (hblk : blk' = blk) (hiv : iv' = iv) (ha : a' = a) :
    SameCourse keep held rs (s.recordCall key blk iv a) (s'.recordCall key' blk' iv' a') := by
  subst hkey hblk hiv ha
  exact h.advance (.recordCall s key' blk' iv' a') (.recordCall s' key' blk' iv' a') h.source h.phase h.cursor
    (filter_append_congr h.events _) h.regs h.carry

theorem SameCourse.setSubkeys (h : SameCourse keep held rs s s') {mac mac' : Block} (hmac : mac' = mac) :
    SameCourse keep held [.k1, .k2] (s.setSubkeys mac) (s'.setSubkeys mac') := by
  subst hmac
  refine h.advance (.setSubkeys s mac') (.setSubkeys s' mac') h.source h.phase h.cursor h.events (fun r hr => ?_) fun _ => rfl
  simp only [State.readB_setSubkeys]
  by_cases hk1 : r = .k1
  · simp [hk1]
  · by_cases hk2 : r = .k2
    · simp [hk2]
    · rw [h.regs r (.inl (by simpa [hk1, hk2] using hr))]

theorem SameCourse.afterDesc (h : SameCourse keep held rs s s') (i : Nat) (g : Segment) :
    SameCourse keep held rs (s.afterDesc i g) (s'.afterDesc i g) :=
  h.advance (.afterDesc s i g) (.afterDesc s' i g) (congrArg (List.modifyHead (· - 1)) h.source) h.phase h.cursor
    (filter_append_congr h.events _) h.regs h.carry

theorem SameCourse.nextChunk (h : SameCourse keep held rs s s') : s'.nextChunk = s.nextChunk := by
  rw [State.nextChunk, State.nextChunk, h.stream, h.cursor]

theorem SameCourse.afterPull (h : SameCourse keep held rs s s') : SameCourse keep held rs s.afterPull s'.afterPull := by
  refine h.advance (.afterPull s) (.afterPull s') (congrArg (List.modifyHead (· - 1)) h.source) h.phase ?_ ?_ h.regs h.carry
  · simp only [State.afterPull, h.cursor, h.stream]
  · simp only [State.afterPull, h.nextChunk]
    exact filter_append_congr h.events _

theorem SameCourse.pulled (h : SameCourse keep held rs s s') : SameCourse keep held (.m :: rs) s.pulled s'.pulled :=
  h.afterPull.writeB .m (congrArg blockOf h.nextChunk)

theorem SameCourse.nextVerdict (h : SameCourse keep held rs s s') : s'.nextVerdict = s.nextVerdict := by
  rw [State.nextVerdict, State.nextVerdict, h.verdicts]

theorem SameCourse.wrongBlockSize (h : SameCourse keep held rs s s') : s'.wrongBlockSize = s.wrongBlockSize := by
  rw [State.wrongBlockSize, State.wrongBlockSize, h.provider]

/-! ## Waiting -/

/-- Both wait on the same port. -/
structure SameWait (keep : Event → Bool) (held : Prop) (s s' : State) : Prop where
  course : SameCourse keep held [] s s'
  port : ∃ port, s.outstanding = some port ∧ s'.outstanding = some port

theorem SameCourse.awaitCipher (h : SameCourse keep held rs s s') : SameWait keep held s.awaitCipher s'.awaitCipher :=
  ⟨h.advance (.awaitCipher s) (.awaitCipher s') h.source h.phase h.cursor h.events
    (h.mono (List.nil_subset _)).regs h.carry, .cipher, rfl, rfl⟩

theorem SameCourse.awaitSegment (h : SameCourse keep held rs s s') : SameWait keep held s.awaitSegment s'.awaitSegment :=
  ⟨h.advance (.awaitSegment s) (.awaitSegment s') (congrArg List.tail h.source) h.phase h.cursor h.events
    (h.mono (List.nil_subset _)).regs h.carry, .segment, rfl, rfl⟩

/-- Two walks that go the same course, as far as the registers `rs` where they go on. -/
abbrev Walk.SameCourse (keep : Event → Bool) (held : Prop) (rs : List BReg) : Walk → Walk → Prop :=
  Walk.Related (Machine.SameCourse keep held rs) (Machine.SameCourse keep held []) (SameWait keep held)

/-! ## The steps -/

theorem cmacS1_sameCourse (h : SameCourse keep held [] (s.enterPhase .s1) (s'.enterPhase .s1)) :
    (cmacS1 s).SameCourse keep held [] (cmacS1 s') := by
  have hw' : s'.wrongBlockSize = s.wrongBlockSize := h.wrongBlockSize
  cases hw : s.wrongBlockSize with
  | true =>
    rw [cmacS1_of_wrong hw, cmacS1_of_wrong (hw'.trans hw)]
    exact .exit _ _ h
  | false =>
    rw [cmacS1_of_right hw, cmacS1_of_right (hw'.trans hw)]
    exact .go h

theorem sumLengths_sameCourse (gs : List Segment) (i total : Nat) (h : SameCourse keep held [] s s') :
    (sumLengths gs i total s).SameCourse keep held [] (sumLengths gs i total s') := by
  induction gs generalizing i total s s' with
  | nil => exact .go { h with len := rfl }
  | cons g rest ih =>
    rw [sumLengths, sumLengths]
    by_cases h0 : s.sourceAnswers.head? = some 0
    · rw [segDesc_of_silent h0, segDesc_of_silent (h.source ▸ h0)]
      exact .stuck h.awaitSegment
    · rw [segDesc_of_answer h0, segDesc_of_answer (h.source ▸ h0)]
      exact ih (i + 1) _ (h.afterDesc i g)

/-- A source that never falls silent: every descriptor is read. -/
theorem sumLengths_of_lasting (hsource : s.sourceAnswers = []) (gs : List Segment) : sumLengths gs 0 0 s =
    .go { s with
      csr := { s.csr with len := BitVec.ofNat 64 (signedStream gs).length }
      events := s.events ++ descEvents 0 gs } := by
  rcases sumLengths_cases gs 0 0 s with ⟨m, hm, -⟩ | ⟨-, hgo⟩
  · simp [hsource] at hm
  · rw [hgo, Nat.zero_add, hsource, List.modifyHead_nil, ← hsource]

theorem filter_descEvents (hdrop : ∀ i sign len, keep (.segDesc i sign len) = false) (i : Nat) (gs : List Segment) :
    (descEvents i gs).filter keep = [] := by
  induction gs generalizing i with
  | nil => rfl
  | cons g rest ih => rw [descEvents, List.filter_cons_of_neg (by simp [hdrop]), ih]

/-- Step 2 reads the same descriptors; or others, all of them and unseen, with the same sum. -/
theorem cmacS2_sameCourse (h : SameCourse keep held [] s s') : (cmacS2 s).SameCourse keep held [] (cmacS2 s') := by
  have h2 := h.enterPhase .s2
  rw [cmacS2, cmacS2]
  rcases h.descs with hsegl | ⟨hsource, hdrop⟩
  · rw [hsegl]
    exact sumLengths_sameCourse _ 0 0 h2
  · rw [sumLengths_of_lasting (s := s.enterPhase .s2) hsource,
      sumLengths_of_lasting (s := s'.enterPhase .s2) (h.source.trans hsource)]
    refine .go { h2 with len := congrArg (fun l : List Byte => BitVec.ofNat 64 l.length) h.stream, events := ?_ }
    simpa only [List.filter_append, filter_descEvents hdrop, List.append_nil] using h2.events

theorem SameCourse.subkeyMac (h : SameCourse keep held rs s s') : s'.subkeyMac = s.subkeyMac := by
  rw [State.subkeyMac, State.subkeyMac, h.provider, h.key]

theorem cmacS3_sameCourse (h : SameCourse keep held [] s s') : (cmacS3 s).SameCourse keep held [.k1, .k2] (cmacS3 s') := by
  have hv' := h.nextVerdict
  have h3 := h.enterPhase .s3
  cases hv : s.nextVerdict with
  | answers =>
    rw [cmacS3_of_answers hv, cmacS3_of_answers (hv'.trans hv)]
    exact .go ((h3.recordCall h.key rfl rfl (congrArg _ h.subkeyMac)).setSubkeys h.subkeyMac)
  | fails code =>
    rw [cmacS3_of_fails hv, cmacS3_of_fails (hv'.trans hv)]
    exact .exit _ _ (h3.recordCall h.key rfl rfl rfl)
  | silent =>
    rw [cmacS3_of_silent hv, cmacS3_of_silent (hv'.trans hv)]
    exact .stuck h3.awaitCipher

theorem cmacS4_sameCourse (h : SameCourse keep held rs s s') : (cmacS4 s).SameCourse keep held rs (cmacS4 s') :=
  .go { h with
    phase := rfl
    nblk := congrArg (fun l : BitVec 64 => BitVec.ofNat 64 (blockCount l.toNat)) h.len
    fpad := congrArg (fun l : BitVec 64 => needsPadding l.toNat) h.len
    rem := congrArg (fun l : BitVec 64 => BitVec.ofNat 4 (remainder l.toNat)) h.len }

theorem cmacS5_sameCourse (h : SameCourse keep held rs s s') : (cmacS5 s).SameCourse keep held (.cv :: rs) (cmacS5 s') :=
  .go ((h.enterPhase .s5).writeB .cv rfl)

theorem chainBlock_sameCourse (h : SameCourse keep held (.m :: .cv :: rs) s s') :
    (chainBlock s).SameCourse keep held (.cv :: rs) (chainBlock s') := by
  have hv' := h.nextVerdict
  have hm := h.regs .m (.inr (by simp))
  have hcv := h.regs .cv (.inr (by simp))
  have hmac : s'.chained = s.chained := by rw [State.chained, State.chained, h.provider, h.key, hm, hcv]
  cases hv : s.nextVerdict with
  | answers =>
    rw [chainBlock_of_answers hv, chainBlock_of_answers (hv'.trans hv)]
    exact .go (((h.recordCall h.key hm (congrArg some hcv) (congrArg _ hmac)).writeB .cv hmac).mono
      (List.cons_subset_cons _ fun _ hr => List.mem_cons_of_mem _ (List.mem_cons_of_mem _ hr)))
  | fails code =>
    rw [chainBlock_of_fails hv, chainBlock_of_fails (hv'.trans hv)]
    exact .exit _ _ ((h.recordCall h.key hm (congrArg some hcv) rfl).mono (List.nil_subset _))
  | silent =>
    rw [chainBlock_of_silent hv, chainBlock_of_silent (hv'.trans hv)]
    exact .stuck h.awaitCipher

theorem pullAndChain_sameCourse (h : SameCourse keep held (.cv :: rs) s s') :
    (pullAndChain s).SameCourse keep held (.cv :: rs) (pullAndChain s') := by
  by_cases h0 : s.sourceAnswers.head? = some 0
  · rw [pullAndChain_of_silent h0, pullAndChain_of_silent (h.source ▸ h0)]
    exact .stuck h.awaitSegment
  · rw [pullAndChain_of_answer h0, pullAndChain_of_answer (h.source ▸ h0)]
    exact chainBlock_sameCourse h.pulled

theorem chainBlocks_sameCourse (k : Nat) (h : SameCourse keep held (.cv :: rs) s s') :
    (chainBlocks k s).SameCourse keep held (.cv :: rs) (chainBlocks k s') := by
  induction k generalizing s s' with
  | zero => exact .go h
  | succ k ih => exact (pullAndChain_sameCourse h).andThen fun _ _ => ih

theorem cmacS6_sameCourse (h : SameCourse keep held (.cv :: rs) s s') :
    (cmacS6 s).SameCourse keep held (.cv :: rs) (cmacS6 s') := by
  rw [cmacS6, cmacS6, h.nblk]
  exact chainBlocks_sameCourse _ (h.enterPhase .s6)

theorem SameCourse.maskFinal (h : SameCourse keep held [.cv, .k1, .k2] s s') (last : Block) :
    maskFinal s' last = maskFinal s last := by
  rw [Machine.maskFinal, Machine.maskFinal, h.fpad, h.rem, h.regs .k1 (.inr (by simp)), h.regs .k2 (.inr (by simp))]

theorem cmacS7_sameCourse (h : SameCourse keep held [.cv, .k1, .k2] s s') :
    (cmacS7 s).SameCourse keep held [.m, .cv, .k1, .k2] (cmacS7 s') := by
  have h7 := h.enterPhase .s7
  by_cases h0 : s.sourceAnswers.head? = some 0
  · rw [cmacS7_of_silent h0, cmacS7_of_silent (h.source ▸ h0)]
    exact .stuck h7.awaitSegment
  · rw [cmacS7_of_answer h0, cmacS7_of_answer (h.source ▸ h0), h7.nextChunk, h7.afterPull.maskFinal]
    exact .go (h7.afterPull.writeB .m rfl)

theorem cmacS8_sameCourse (h : SameCourse keep held (.m :: .cv :: rs) s s') :
    (cmacS8 s).SameCourse keep held (.cv :: rs) (cmacS8 s') :=
  chainBlock_sameCourse (h.enterPhase .s8)

theorem SameCourse.buf (h : SameCourse keep held rs s s') (ref : Nat) : s'.buf ref = s.buf ref := by
  rw [State.buf, State.buf, h.bufs]

theorem SameCourse.writeTag (h : SameCourse keep held rs s s') (ref : Nat) (tag : Block) :
    SameCourse keep held rs (s.writeTag ref tag) (s'.writeTag ref tag) :=
  { h with
    bufs := by rw [State.writeTag_bufs, State.writeTag_bufs, h.bufs, h.buf]
    events := filter_append_congr h.events _ }

theorem cmacS9_sameCourse (h : SameCourse keep held (.cv :: rs) s s') : (cmacS9 s).SameCourse keep held [] (cmacS9 s') := by
  have h9 := (h.enterPhase .s9).mono (List.nil_subset _)
  have hbuf : s'.buf s'.bundle.out = s.buf s.bundle.out := by rw [h.out, h.buf]
  by_cases hcap : (s.buf s.bundle.out).cap.toNat < 16
  · rw [cmacS9_of_small hcap, cmacS9_of_small (hbuf ▸ hcap)]
    exact .exit _ _ h9
  · rw [cmacS9_of_room hcap, cmacS9_of_room (hbuf ▸ hcap), h.out, h.regs .cv (.inr (by simp))]
    exact .go (h9.writeTag _ _)

theorem cmacSteps_sameCourse (h : SameCourse keep held [] (s.enterPhase .s1) (s'.enterPhase .s1)) :
    (cmacSteps s).SameCourse keep held [] (cmacSteps s') :=
  ((((((((cmacS1_sameCourse h).andThen fun _ _ => cmacS2_sameCourse).andThen fun _ _ => cmacS3_sameCourse).andThen
    fun _ _ => cmacS4_sameCourse).andThen fun _ _ => cmacS5_sameCourse).andThen fun _ _ => cmacS6_sameCourse).andThen
    fun _ _ => cmacS7_sameCourse).andThen fun _ _ => cmacS8_sameCourse).andThen fun _ _ => cmacS9_sameCourse

/-! ## The whole command -/

theorem State.regs_eq_of_readB (h : ∀ r, s'.readB r = s.readB r) : s'.regs = s.regs := by
  rw [show s.regs = ⟨s.readB .l, s.readB .k1, s.readB .k2, s.readB .cv, s.readB .m, s.readB .t0, s.readB .t1⟩ from rfl,
    ← h, ← h, ← h, ← h, ← h, ← h, ← h]
  rfl

/-- Two states that differ in nothing but the port events. -/
theorem State.eq_but_events (regs : s'.regs = s.regs) (csr : s'.csr = s.csr) (phase : s'.phase = s.phase)
    (cursor : s'.cursor = s.cursor) (outstanding : s'.outstanding = s.outstanding) (bufs : s'.bufs = s.bufs)
    (provider : s'.provider = s.provider) (verdicts : s'.verdicts = s.verdicts)
    (source : s'.sourceAnswers = s.sourceAnswers) (inputs : s'.inputs = s.inputs) (resp : s'.resp = s.resp) :
    s' = { s with events := s'.events } := by
  rw [← regs, ← csr, ← phase, ← cursor, ← outstanding, ← bufs, ← provider, ← verdicts, ← source, ← inputs, ← resp]

theorem SameCourse.csr_eq (h : SameCourse keep held rs s s') (holds : held) : s'.csr = s.csr := by
  rw [show s.csr = ⟨s.csr.status, s.csr.perr, s.csr.carry, s.csr.fpad, s.csr.len, s.csr.nblk, s.csr.rem, s.csr.idx,
    s.csr.calls⟩ from rfl, ← h.status holds, ← h.perr holds, ← h.carry holds, ← h.fpad, ← h.len, ← h.nblk, ← h.rem, ← h.idx,
    ← h.calls]

theorem SameCourse.cmacExit_eq (h : SameCourse keep held rs s s') (code : Code) (pcode : ErrCode) :
    cmacExit code pcode s' = { cmacExit code pcode s with events := (cmacExit code pcode s').events } := by
  have csr : (cmacExit code pcode s').csr = (cmacExit code pcode s).csr := by
    simp [cmacExit, h.len, h.nblk, h.rem, h.fpad, h.idx, h.calls]
  exact State.eq_but_events rfl csr rfl rfl rfl h.bufs h.provider h.verdicts h.source h.after rfl

theorem SameWait.leaveWaiting_eq (h : SameWait keep held s s') (holds : held) :
    s'.leaveWaiting = { s.leaveWaiting with events := s'.leaveWaiting.events } := by
  obtain ⟨course, port, hport, hport'⟩ := h
  exact State.eq_but_events (State.regs_eq_of_readB fun r => course.regs r (.inl holds)) (course.csr_eq holds) course.phase
    course.cursor (hport'.trans hport.symm) course.bufs course.provider course.verdicts course.source course.after rfl

/-- What two CMAC commands of the same course leave: both end or both wait, and, where they end or `held` holds, in states that
differ in nothing but port events that `keep` drops. -/
structure SameResult (keep : Event → Bool) (held : Prop) (t t' : State) : Prop where
  outstanding : t'.outstanding = t.outstanding
  events : t'.events.filter keep = t.events.filter keep
  rest : held ∨ t.outstanding = none → t' = { t with events := t'.events }

theorem SameCourse.cmacExit (h : SameCourse keep held rs s s') (code : Code) (pcode : ErrCode) :
    SameResult keep held (cmacExit code pcode s) (cmacExit code pcode s') :=
  ⟨rfl, h.events, fun _ => h.cmacExit_eq code pcode⟩

theorem SameWait.leaveWaiting (h : SameWait keep held s s') : SameResult keep held s.leaveWaiting s'.leaveWaiting := by
  obtain ⟨port, hport, hport'⟩ := h.port
  refine ⟨hport'.trans hport.symm, h.course.events, fun holds => h.leaveWaiting_eq (holds.resolve_right fun ended => ?_)⟩
  cases hport.symm.trans ended

theorem execCmac_sameCourse (h : SameCourse keep held [] ((cmacEntry s).enterPhase .s1) ((cmacEntry s').enterPhase .s1)) :
    ∃ t t', exec .cmac s = .next t ∧ exec .cmac s' = .next t' ∧ SameResult keep held t t' :=
  execCmac_related (cmacSteps_sameCourse h) (fun _ _ h => h.cmacExit .ok 0) (fun code pcode _ _ h => h.cmacExit code pcode)
    fun _ _ h => h.leaveWaiting

/-- With all port events kept, the states are the same. -/
theorem SameResult.eq (h : SameResult (fun _ => true) held s s') (holds : held ∨ s.outstanding = none) : s' = s := by
  have events : s'.events = s.events := by simpa using h.events
  have rest := h.rest holds
  rw [events] at rest
  exact rest

/-! ## What CMAC depends on (R176) -/

/-- The entry and step 1 write all that the course depends on beside what stands at the ports. -/
theorem sameCourse_entry (key : s'.bundle.key = s.bundle.key) (out : s'.bundle.out = s.bundle.out)
    (stream : signedStream s'.bundle.segl = signedStream s.bundle.segl)
    (descs : s'.bundle.segl = s.bundle.segl ∨ (s.sourceAnswers = [] ∧ ∀ i sign len, keep (.segDesc i sign len) = false))
    (after : afterCommand s'.inputs = afterCommand s.inputs) (provider : s'.provider = s.provider) (bufs : s'.bufs = s.bufs)
    (verdicts : s'.verdicts = s.verdicts) (source : s'.sourceAnswers = s.sourceAnswers)
    (regs : held → ∀ r, s'.readB r = s.readB r) (csr : held → s'.csr = s.csr) :
    SameCourse keep held [] ((cmacEntry s).enterPhase .s1) ((cmacEntry s').enterPhase .s1) where
  key := key
  out := out
  stream := stream
  descs := descs
  after := after
  provider := provider
  bufs := bufs
  verdicts := verdicts
  source := source
  phase := rfl
  cursor := rfl
  len := rfl
  nblk := rfl
  rem := rfl
  fpad := rfl
  idx := rfl
  calls := rfl
  events := rfl
  regs := fun r hr => regs (hr.resolve_right List.not_mem_nil) r
  status := fun holds => (congrArg Csrs.status (csr holds) :)
  perr := fun holds => (congrArg Csrs.perr (csr holds) :)
  carry := fun holds => (congrArg Csrs.carry (csr holds) :)

/-- Settles O48: nothing is held; what the course depends on is in the hypotheses (`sameCourse_entry`). -/
theorem cmacIsIndependentOfHistory : Obligations.CmacIsIndependentOfHistory := by
  intro s s' inputs provider verdicts source bufs
  have bundle : s'.bundle = s.bundle := by rw [State.bundle, inputs, State.bundle]
  obtain ⟨t, t', ht, ht', same⟩ := execCmac_sameCourse (sameCourse_entry (keep := fun _ => true) (held := False)
    (congrArg Bundle.key bundle) (congrArg Bundle.out bundle) (congrArg (fun b : Bundle => signedStream b.segl) bundle)
    (.inl (congrArg Bundle.segl bundle)) (congrArg afterCommand inputs) provider bufs verdicts source False.elim False.elim)
  exact ⟨t, t', ht, ht', same.outstanding, fun ended => same.eq (.inr ended)⟩

/-- One state, two commands with the same key, output reference and signed stream: all is held. -/
theorem sameCourse_of_bundles {c c' : Command} {rest : List Input} (presented : s.inputs = .command c :: rest)
    (key : c'.bundle.key = c.bundle.key) (out : c'.bundle.out = c.bundle.out)
    (stream : signedStream c'.bundle.segl = signedStream c.bundle.segl)
    (descs : c'.bundle.segl = c.bundle.segl ∨ (s.sourceAnswers = [] ∧ ∀ i sign len, keep (.segDesc i sign len) = false)) :
    SameCourse keep True [] ((cmacEntry s).enterPhase .s1)
      ((cmacEntry { s with inputs := .command c' :: rest }).enterPhase .s1) := by
  have after : rest = afterCommand s.inputs := by rw [presented, afterCommand_command]
  rw [← State.bundle_of_inputs presented] at key out stream descs
  exact sameCourse_entry key out stream descs after rfl rfl rfl rfl (fun _ _ => rfl) fun _ => rfl

/-- Settles O46: the two runs go the same course; only the descriptor events are not kept. -/
theorem cmacDependsOnlyOnTheSignedStream : Obligations.CmacDependsOnlyOnTheSignedStream := by
  rintro s c rest gs presented stream source _ rfl
  obtain ⟨t, t', ht, ht', same⟩ := execCmac_sameCourse (sameCourse_of_bundles
    (keep := fun e => match e with | .segDesc _ _ _ => false | _ => true)
    (c' := { c with bundle := { c.bundle with segl := gs } }) presented rfl rfl stream (.inr ⟨source, fun _ _ _ => rfl⟩))
  exact ⟨t, t', ht, ht', same.rest (.inl trivial), same.events⟩

/-! ## `USAGE` (R176 (d)) -/

/-- `s` with a command presented. -/
def State.present (s : State) (c : Command) (rest : List Input) : State := { s with inputs := .command c :: rest }

theorem State.present_self {c : Command} {rest : List Input} (presented : s.inputs = .command c :: rest) :
    s.present c rest = s := by
  rw [State.present, ← presented]

theorem State.writeChained_present (bd : BReg) (c : Bool) (mac : Block) (d : Command) (rest : List Input) :
    (s.present d rest).writeChained bd c mac = (s.writeChained bd c mac).present d rest := by
  cases c <;> rfl

theorem State.setSubkeys_present (mac : Block) (d : Command) (rest : List Input) :
    (s.present d rest).setSubkeys mac = (s.setSubkeys mac).present d rest := by
  simp only [State.setSubkeys, State.writeB, State.setCarry, State.present]

theorem oneCall_of_silent {key : KeyHandle} {blk : Block} {iv : Option Block} {onAnswer : Block → State → State}
    (right : s.provider.blksz = 16) (silent : s.nextVerdict = .silent) :
    oneCall key blk iv onAnswer s = .next s.awaitCipher.leaveWaiting := by
  rw [oneCall, s.wrongBlockSize_eq_false.mpr right, cipherCall_silent silent]
  rfl

/-- A command of one call reads nothing of the presented command but what it is given. -/
theorem oneCall_present {onAnswer : Block → State → State} {rest : List Input}
    (hwrites : ∀ mac u d, onAnswer mac (u.present d rest) = (onAnswer mac u).present d rest)
    (key : KeyHandle) (blk : Block) (iv : Option Block) (s : State) (c c' : Command) :
    oneCall key blk iv onAnswer (s.present c' rest) = oneCall key blk iv onAnswer (s.present c rest) := by
  by_cases right : s.provider.blksz = 16
  · cases hv : s.nextVerdict with
    | answers =>
      have writes (d : Command) (mac : Block) : onAnswer mac ((s.present d rest).recordCall key blk iv (.ok mac)) =
          (onAnswer mac (s.recordCall key blk iv (.ok mac))).present d rest := hwrites mac (s.recordCall key blk iv (.ok mac)) d
      rw [oneCall_of_answers (s.present c' rest) key blk iv onAnswer right hv rfl,
        oneCall_of_answers (s.present c rest) key blk iv onAnswer right hv rfl, writes, writes]
      rfl
    | fails code =>
      rw [oneCall_of_fails (s.present c' rest) key blk iv onAnswer right hv,
        oneCall_of_fails (s.present c rest) key blk iv onAnswer right hv]
      rfl
    | silent =>
      rw [oneCall_of_silent (s := s.present c' rest) right hv, oneCall_of_silent (s := s.present c rest) right hv]
      rfl
  · rw [oneCall_of_wrong (s.present c' rest) key blk iv onAnswer right,
      oneCall_of_wrong (s.present c rest) key blk iv onAnswer right]
    rfl

/-- Settles O47: no command reads `USAGE`; CMAC goes the same course, CBCM and GENSUBK make the same call
(`oneCall_present`), the others have no call. -/
theorem usageAffectsNothing : Obligations.UsageAffectsNothing := by
  intro i s c rest usage presented
  suffices h : exec i (s.present { c with bundle := { c.bundle with usage := usage } } rest) = exec i (s.present c rest) by
    rwa [State.present_self presented] at h
  cases i with
  | xorb | shlb | dblb | padb | ldb | rdb | rdcsr | zeroize => rfl
  | cbcm bd ba ch =>
    exact oneCall_present (onAnswer := fun mac u => u.writeChained bd ch mac)
      (fun mac u d => u.writeChained_present bd ch mac d rest) c.bundle.key (s.readB ba) (chainInput ch s)
      s.openRecord.clearCalls c _
  | gensubk =>
    exact oneCall_present (onAnswer := fun mac u => u.setSubkeys mac) (fun mac u d => u.setSubkeys_present mac d rest)
      c.bundle.key zeroBlock none s.openRecord.clearCalls c _
  | cmac =>
    obtain ⟨t, t', ht, ht', same⟩ := execCmac_sameCourse (sameCourse_of_bundles (keep := fun _ => true)
      (c' := { c with bundle := { c.bundle with usage := usage } }) presented rfl rfl rfl (.inl rfl))
    rw [State.present_self presented, ht, ← same.eq (.inl trivial)]
    exact ht'

end Sys2Proof.Machine
end

section
/-! PROOF. The command port where no command runs: an illegal word (spec/60_exceptions.md R204), and an engine that is idle
(spec/60_exceptions.md R216). -/

namespace Sys2Proof.Machine

/-! ## The illegal word (R204) -/

/-- A word that lies in no row of R85 does not decode. -/
theorem decode_error_of_noRow {w : Word} (h : ∀ o, w &&& rowMask o ≠ rowMatch o) : ∃ e, decode w = .error e := by
  cases hd : decode w with
  | error e => exact ⟨e, rfl⟩
  | ok i => exact absurd ((decodes_iff_inRow w i.opcode).mp ⟨i, hd, rfl⟩) (h i.opcode)

/-- Settles O16: the word does not decode, so the step is `takeIllegal`, whose every field is read off. -/
theorem illegalWordOnlyReports : Obligations.IllegalWordOnlyReports := by
  intro s c rest idle presented noRow
  obtain ⟨e, hd⟩ := decode_error_of_noRow noRow
  exact ⟨_, step_of_illegal idle presented hd, ⟨rfl, rfl, rfl, rfl, rfl⟩, rfl, rfl, fun _ _ => rfl, rfl,
    ⟨rfl, rfl, rfl, rfl, rfl⟩, .of_bufs rfl, ⟨rfl, rfl, rfl, rfl, rfl⟩, rfl⟩

/-! ## No command (R216) -/

/-- Settles O18: by what the step takes; the buffer handed over is found under its reference and under no other
(`findBuf_putBuf`). -/
theorem betweenCommandsTheEngineKeepsItsState : Obligations.BetweenCommandsTheEngineKeepsItsState := by
  refine ⟨fun s idle nothing => step_of_nothing idle nothing, fun s ref b rest idle presented => ?_,
    fun s p rest idle presented => step_of_attach idle presented⟩
  refine ⟨_, step_of_buffer idle presented, rfl, ?_, fun q hq => ?_⟩
  · simp [State.buf]
  · simp [BufferSame, State.buf, hq]

end Sys2Proof.Machine
end

section
/-! PROOF. CMAC ended by an error after its entry: a call that fails, and a buffer too small (spec/60_exceptions.md R202, R203,
R208, R209). -/

namespace Sys2Proof.Machine

/-! ## The call that fails (R202, R208, R209) -/

theorem State.nextVerdict_of_head {s : State} {v : Verdict} (h : s.verdicts.head? = some v) : s.nextVerdict = v := by
  obtain ⟨later, hs⟩ := List.head?_eq_some_iff.mp h
  rw [State.nextVerdict, hs]

/-- With `k` blocks of the loop left, the next pull is answered and the call after it fails: in step 6, or, where none is left,
in steps 7 and 8. -/
theorem blockSteps_of_fails {s : State} {code : ErrCode} (k : Nat) (asked : s.sourceAnswers.head? ≠ some 0)
    (fails : s.nextVerdict = .fails code) :
    ∃ t, ((chainBlocks k s).andThen cmacS7).andThen finishSteps = .exit .eProvider code t ∧ Advanced s t 1 1 := by
  cases k with
  | zero =>
    obtain ⟨m, hm⟩ : ∃ m, m = maskFinal (s.enterPhase .s7).afterPull (blockOf (s.enterPhase .s7).nextChunk) := ⟨_, rfl⟩
    obtain ⟨u, hu⟩ : ∃ u, u = ((s.enterPhase .s7).afterPull.writeB .m m).enterPhase .s8 := ⟨_, rfl⟩
    have hadv : Advanced s u 1 0 := hu ▸ (((Advanced.enterPhase s .s7).trans (.afterPull _)).trans
      (.writeB _ .m m)).trans (.enterPhase _ .s8)
    have h8 := chainBlock_of_fails (s := u) (code := code) (by rw [hu]; exact fails)
    refine ⟨_, ?_, hadv.trans (.recordCall u u.bundle.key (u.readB .m) (some (u.readB .cv)) (.err code))⟩
    rw [chainBlocks, Walk.go_andThen, cmacS7_of_answer asked, ← hm, Walk.go_andThen, finishSteps, cmacS8, ← hu, h8,
      Walk.exit_andThen]
  | succ k =>
    refine ⟨_, ?_, (Advanced.pulled s).trans (.recordCall s.pulled s.pulled.bundle.key (s.pulled.readB .m)
      (some (s.pulled.readB .cv)) (.err code))⟩
    rw [chainBlocks, pullAndChain_of_answer asked, chainBlock_of_fails (s := s.pulled) fails]
    rfl

/-- How CMAC stands when it leaves for the exit from its call `j + 1` (R174): what it counted, and the CSRs as the steps before
that call left them. -/
structure AtFailedCall (s t : State) (length j : Nat) : Prop where
  calls : t.csr.calls.toNat = j + 1
  idx : t.csr.idx.toNat = j
  len : t.csr.len.toNat = length
  unplanned : j = 0 → t.csr.nblk = 0 ∧ t.csr.rem = 0 ∧ t.csr.fpad = false
  planned : 1 ≤ j → t.csr.nblk.toNat = blockCount length ∧ t.csr.rem.toNat = length % 16 ∧
    t.csr.fpad = needsPadding length
  bufs : t.bufs = s.bufs
  inputs : t.inputs = s.inputs
  provider : t.provider = s.provider

section
variable {s : State} {c : Command} {rest : List Input} {code : ErrCode} (presented : s.inputs = .command c :: rest)
  (hwf : c.wf) (right : s.provider.blksz = 16)
include presented hwf right

/-- The call of step 3 fails. -/
theorem cmacSteps_of_subkeys_fail (fails : s.verdicts.head? = some (.fails code))
    (lasts : s.sourceLasts c.bundle.segl.length) :
    ∃ t, cmacSteps (cmacEntry s) = .exit .eProvider code t ∧
      AtFailedCall s t (signedStream c.bundle.segl).length 0 := by
  have hfails := State.nextVerdict_of_head fails
  rcases cmacSteps_cases s with ⟨wrong, -⟩ | ⟨-, m, hm, hlt, -⟩ | ⟨-, -, ⟨silent, -⟩ | ⟨code', failed, steps⟩ | ⟨answers, -⟩⟩
  · exact absurd right (s.wrongBlockSize_eq_true.mp wrong)
  · rw [State.bundle_of_inputs presented] at hlt
    exact absurd (lasts m hm) (by omega)
  · exact absurd (hfails.symm.trans silent) nofun
  · cases hfails.symm.trans failed
    exact ⟨_, steps, rfl, rfl, CmacLen.toNat_eq (s := s) rfl presented hwf, fun _ => ⟨rfl, rfl, rfl⟩, nofun, rfl, rfl, rfl⟩
  · exact absurd (hfails.symm.trans answers) nofun

/-- The call for block `k + 1` of the message fails. -/
theorem cmacSteps_of_block_fails {k : Nat} (hk : k + 1 ≤ blockCount (signedStream c.bundle.segl).length)
    (calls : s.callsAnswer (k + 1)) (fails : (s.verdicts.drop (k + 1)).head? = some (.fails code))
    (lasts : s.sourceLasts (c.bundle.segl.length + (k + 1))) :
    ∃ t, cmacSteps (cmacEntry s) = .exit .eProvider code t ∧
      AtFailedCall s t (signedStream c.bundle.segl).length (k + 1) := by
  obtain ⟨u, hu, -, hadv, -, -, -, ⟨len, nblk, rem, fpad⟩, idx, hcalls, -, hverdicts, hsource, -⟩ :=
    cmac_reaches_block s c rest _ k presented hwf rfl hk right calls (State.sourceLasts_mono lasts (by omega))
  have asked : u.sourceAnswers.head? ≠ some 0 := State.sourceLasts_ne (k := 0) (State.sourceLasts_sub lasts hsource)
  obtain ⟨t, ht, hadv'⟩ := blockSteps_of_fails (blockCount (signedStream c.bundle.segl).length - 1 - k) asked
    (State.nextVerdict_of_head (hverdicts ▸ fails))
  have hbound : k < 2 ^ 48 := by
    have := (blockCount_spec (signedStream c.bundle.segl).length).2.1
    have := signedStream_length_lt hwf
    omega
  refine ⟨t, hu.trans ht, ?_, ?_, hadv'.len ▸ len, nofun, fun _ => ⟨hadv'.nblk ▸ nblk, hadv'.rem ▸ rem, hadv'.fpad ▸ fpad⟩,
    hadv'.bufs.trans hadv.bufs, hadv'.inputs.trans hadv.inputs, hadv'.provider.trans hadv.provider⟩
  · rw [hadv'.calls, BitVec.toNat_add, hcalls, BitVec.toNat_ofNat]
    omega
  · rw [hadv'.idx, BitVec.toNat_add, idx, BitVec.toNat_ofNat]
    omega

end

/-- Settles O42: the call that fails is that of step 3 or that of a block; the exit (`cmacExit_exit`) keeps what the steps
before it counted and wrote. -/
theorem cmacEndsAtTheFailedCall : Obligations.CmacEndsAtTheFailedCall := by
  rintro s c rest n length j code presented hwf rfl rfl hj right calls fails lasts
  suffices ∃ t, cmacSteps (cmacEntry s) = .exit .eProvider code t ∧
      AtFailedCall s t (signedStream c.bundle.segl).length j by
    obtain ⟨t, steps, h⟩ := this
    have exit := cmacExit_exit h.inputs h.provider .eProvider code
    exact ⟨_, execCmac_exit steps, exit.ended, h.calls, h.idx, h.len, h.unplanned, h.planned, .of_bufs h.bufs,
      State.readB_of_regs_zero exit.regs, exit.carry⟩
  cases j with
  | zero => exact cmacSteps_of_subkeys_fail presented hwf right fails lasts
  | succ k => exact cmacSteps_of_block_fails presented hwf right hj calls fails lasts

/-! ## The buffer too small (R203) -/

/-- A CMAC that ends with `E_OUTCAP` has ended in the one such way of `CmacEnd`. -/
theorem CmacEnd.of_outcap {s t : State} (h : CmacEnd s t) (outcap : t.csr.status = .eOutcap) :
    CmacExit s t .eOutcap 0 ∧ CmacLen s t ∧ CmacPlanned t ∧ t.csr.idx = t.csr.nblk ∧ t.csr.calls = t.csr.nblk + 1 ∧
      t.bufs = s.bufs := by
  cases h with
  | outcap _ _ exit len planned idx calls bufs => exact ⟨exit, len, planned, idx, calls, bufs⟩
  | blksz _ exit => exact absurd (exit.ended.1.symm.trans outcap) (by decide)
  | subkeys _ code exit => exact absurd (exit.ended.1.symm.trans outcap) (by decide)
  | block _ code j _ exit => exact absurd (exit.ended.1.symm.trans outcap) (by decide)
  | success _ _ tag exit => exact absurd (exit.ended.1.symm.trans outcap) (by decide)

/-- Settles O43: every request is answered up to step 9 (`cmac_reaches_tag`), which finds no room; what stands then is
`CmacEnd.of_outcap`. -/
theorem cmacOutcapViolationWritesNothing : Obligations.CmacOutcapViolationWritesNothing := by
  rintro s c rest n presented hwf rfl right small calls lasts
  obtain ⟨u, hu, hbundle, hbufs, -⟩ := cmac_reaches_tag presented hwf rfl rfl rfl right calls lasts
  have h9 := cmacS9_of_small (s := u) (by rw [State.buf, hbufs, hbundle]; exact small)
  have run := execCmac_exit (hu.trans h9)
  obtain ⟨exit, hlen, planned, hidx, hcalls, bufs⟩ := (cmacEnd_of_exec run rfl).of_outcap rfl
  have nblk := planned.nblk_toNat
  have call := planned.calls_toNat hcalls
  rw [hlen.toNat_eq presented hwf] at nblk
  rw [nblk] at call
  exact ⟨_, run, exit.ended, call, hidx ▸ nblk, nblk, .of_bufs bufs, State.readB_of_regs_zero exit.regs, exit.carry⟩

end Sys2Proof.Machine
end

section
/-! PROOF. The codes each command can end with (spec/60_exceptions.md R200, R205; spec/10_state.md R32). -/

namespace Sys2Proof.Machine

/-- The table of R200: the codes with which a command that decodes can end. -/
def resultCodes : Opcode → List Code
  | .cbcm | .gensubk => [.ok, .eBlksz, .eProvider]
  | .cmac => [.ok, .eBlksz, .eProvider, .eOutcap]
  | _ => [.ok]

theorem resultCodes_of_noCall : ∀ o ∈ [Opcode.xorb, .shlb, .dblb, .padb, .ldb, .rdb, .rdcsr, .zeroize],
    resultCodes o = [.ok] := by decide

theorem resultCodes_of_oneCall : ∀ o ∈ [Opcode.cbcm, .gensubk], resultCodes o = [.ok, .eBlksz, .eProvider] := by decide

/-- The response carries one of `codes`, and an error value with `E_PROVIDER` only (R32). -/
def RespondsWithin (codes : List Code) (t : State) : Prop :=
  ∃ r, t.resp = some r ∧ r.code ∈ codes ∧ (r.code ≠ .eProvider → r.perrv = 0)

/-- Each code of a command that makes one call: its block size, its provider, or no error. -/
theorem oneCall_respondsWithin {key : KeyHandle} {blk : Block} {iv : Option Block} {onAnswer : Block → State → State}
    {s t : State} (h : oneCall key blk iv onAnswer s = .next t) (ended : t.outstanding = none) :
    RespondsWithin [.ok, .eBlksz, .eProvider] t := by
  by_cases right : s.provider.blksz = 16
  · cases hv : s.nextVerdict with
    | answers =>
      cases (oneCall_of_answers s key blk iv onAnswer right hv rfl).symm.trans h
      exact ⟨_, rfl, by decide, fun _ => rfl⟩
    | fails code =>
      cases (oneCall_of_fails s key blk iv onAnswer right hv).symm.trans h
      exact ⟨_, rfl, by simp, fun hne => absurd rfl hne⟩
    | silent =>
      cases (oneCall_of_silent right hv).symm.trans h
      cases ended
  · cases (oneCall_of_wrong s key blk iv onAnswer right).symm.trans h
    exact ⟨_, rfl, by decide, fun _ => rfl⟩

theorem CmacExit.respondsWithin {s t : State} {code : Code} {pcode : ErrCode} {codes : List Code}
    (h : CmacExit s t code pcode) (hcode : code ∈ codes) (hpcode : code ≠ .eProvider → pcode = 0) :
    RespondsWithin codes t := by
  obtain ⟨-, -, resp, -⟩ := h.ended
  exact ⟨_, resp, hcode, hpcode⟩

theorem CmacEnd.respondsWithin {s t : State} (h : CmacEnd s t) :
    RespondsWithin [.ok, .eBlksz, .eProvider, .eOutcap] t := by
  cases h with
  | blksz _ exit => exact exit.respondsWithin (by decide) fun _ => rfl
  | subkeys _ code exit => exact exit.respondsWithin (by decide) fun hne => absurd rfl hne
  | block _ code j _ exit => exact exit.respondsWithin (by decide) fun hne => absurd rfl hne
  | outcap _ _ exit => exact exit.respondsWithin (by decide) fun _ => rfl
  | success _ _ tag exit => exact exit.respondsWithin (by decide) fun _ => rfl

/-- Every command that ends responds as R200's table says. -/
theorem exec_respondsWithin {i : Instr} {s t : State} (h : exec i s = .next t) (ended : t.outstanding = none) :
    RespondsWithin (resultCodes i.opcode) t := by
  cases i with
  | xorb | shlb | dblb | padb | ldb | rdb | rdcsr | zeroize =>
    cases h
    exact ⟨_, rfl, List.mem_singleton.mpr rfl, fun _ => rfl⟩
  | cbcm bd ba c => exact oneCall_respondsWithin ((execCbcm_eq_oneCall bd ba c s).symm.trans h) ended
  | gensubk => exact oneCall_respondsWithin ((execGensubk_eq_oneCall s).symm.trans h) ended
  | cmac => exact (cmacEnd_of_exec h ended).respondsWithin

/-- Settles O53: the table of R200 (`exec_respondsWithin`), read off for each opcode. -/
theorem codesEachCommandCanEndWith : Obligations.CodesEachCommandCanEndWith := by
  intro i s t h ended
  obtain ⟨r, resp, code, perrv⟩ := exec_respondsWithin h ended
  refine ⟨r, resp, fun hi => ?_, fun hi => ?_, fun hi => ?_, perrv⟩
  · rw [resultCodes_of_noCall _ hi] at code
    exact List.mem_singleton.mp code
  · rw [resultCodes_of_oneCall _ hi] at code
    exact code
  · subst hi
    exact code

end Sys2Proof.Machine
end

section
/-! PROOF. What ends a wait, and that nothing but a silence begins one (spec/93_implementation_defined.md U16;
spec/70_reset_and_hazards.md R230, R240, R241; spec/43_mac_driver.md R174). -/

namespace Sys2Proof.Machine

/-! ## What ends a wait (U16) -/

/-- Settles O35: an engine that waits takes a reset (`step_of_reset`) and nothing else (`step_of_wait`). -/
theorem onlyResetEndsAWait : Obligations.OnlyResetEndsAWait := by
  refine fun s port waits => ⟨fun rest next => ?_, step_of_wait waits⟩
  exact ⟨_, step_of_reset next, rfl, rfl, rfl, State.readB_of_regs_zero rfl, rfl, rfl, .of_bufs rfl, rfl⟩

/-! ## Commands whose requests are answered (R241) -/

/-- A command of one call ends when that call is answered, with `ok` or with an error. -/
theorem oneCall_ends {s : State} (heard : s.nextVerdict ≠ .silent) (key : KeyHandle) (blk : Block) (iv : Option Block)
    (onAnswer : Block → State → State) : ∃ t, oneCall key blk iv onAnswer s = .next t ∧ t.outstanding = none := by
  by_cases right : s.provider.blksz = 16
  · cases verdict : s.nextVerdict with
    | answers => exact ⟨_, oneCall_of_answers s key blk iv onAnswer right verdict rfl, rfl⟩
    | fails code => exact ⟨_, oneCall_of_fails s key blk iv onAnswer right verdict, rfl⟩
    | silent => exact absurd verdict heard
  · exact ⟨_, oneCall_of_wrong s key blk iv onAnswer right, rfl⟩

/-- CMAC ends where no silence lies ahead: one that waits has met a silence (`CmacWaits`). -/
theorem execCmac_ends {s : State} (quiet : ¬ s.silenceAhead) : ∃ t, execCmac s = .next t ∧ t.outstanding = none := by
  rcases execCmac_cases s with ⟨t, port, -, waits⟩ | ⟨t, run, ends⟩
  · exact absurd waits.silence quiet
  · obtain ⟨code, pcode, exit⟩ := ends.exit
    obtain ⟨-, -, -, -, ended⟩ := exit.ended
    exact ⟨t, run, ended⟩

theorem exec_ends {s : State} (quiet : ¬ s.silenceAhead) (i : Instr) :
    ∃ t, exec i s = .next t ∧ t.outstanding = none := by
  have heard : s.openRecord.clearCalls.nextVerdict ≠ .silent := fun silent => quiet (.inl (State.silent_mem silent))
  cases i with
  | xorb | shlb | dblb | padb | ldb | rdb | rdcsr | zeroize => exact ⟨_, rfl, rfl⟩
  | cbcm bd ba c => exact oneCall_ends heard s.bundle.key (s.readB ba) (chainInput c s) fun mac u => u.writeChained bd c mac
  | gensubk => exact oneCall_ends heard s.bundle.key zeroBlock none fun mac u => u.setSubkeys mac
  | cmac => exact execCmac_ends quiet

/-- Settles O36: every command ends (`exec_ends`), and a command that has ended has its response (`exec_answered`). -/
theorem everyAnsweredCommandEnds : Obligations.EveryAnsweredCommandEnds := by
  intro i s verdicts source
  have quiet : ¬ s.silenceAhead := by
    rintro (silent | falls)
    · exact verdicts _ silent rfl
    · exact falls source
  obtain ⟨t, run, ended⟩ := exec_ends quiet i
  obtain ⟨r, resp⟩ := (exec_answered run ended).resp
  exact ⟨t, r, run, ended, resp⟩

end Sys2Proof.Machine
end

section
/-! PROOF. A command whose request is not answered is left waiting in the phase of that request (spec/93_implementation_defined.md
U16; spec/20_memory.md R58; spec/70_reset_and_hazards.md R241). -/

namespace Sys2Proof.Machine

/-! ## CBCM and GENSUBK -/

/-- A command of one call whose provider is silent has counted that call and written nothing else. -/
theorem oneCall_leftWaiting (key : KeyHandle) (blk : Block) (iv : Option Block) (onAnswer : Block → State → State)
    {s : State} (right : s.provider.blksz = 16) (silent : s.nextVerdict = .silent) :
    ∃ t, oneCall key blk iv onAnswer s.openRecord.clearCalls = .next t ∧ LeftWaiting s t .cipher ∧ t.phase = s.phase ∧
      t.csr.calls = 1 ∧ RegsSameExcept s t [] ∧ t.csr.carry = s.csr.carry ∧ DriverCsrsSame s t ∧ BuffersSame s t ∧
      t.cursor = s.cursor ∧ t.verdicts = s.verdicts.tail ∧ t.sourceAnswers = s.sourceAnswers ∧ t.events = [] :=
  ⟨_, oneCall_of_silent (s := s.openRecord.clearCalls) right silent, ⟨rfl, rfl, rfl, rfl, rfl, rfl⟩, rfl, rfl,
    fun _ _ => rfl, rfl, (PlainBody.awaitCipher s).driverCsrs, .of_bufs rfl, rfl, rfl, rfl, rfl⟩

/-! ## CMAC before the loop -/

/-- The source falls silent among the descriptors. -/
theorem cmacSteps_of_silent_desc {s : State} (right : s.provider.blksz = 16)
    (falls : ¬ s.sourceLasts s.bundle.segl.length) :
    ∃ m, s.sourceAnswers.head? = some m ∧ cmacSteps (cmacEntry s) = .stuck (s.atSilentDesc m) := by
  rcases cmacSteps_cases s with ⟨wrong, -⟩ | ⟨-, m, hm, -, steps⟩ | ⟨-, lasts, -⟩
  · exact absurd right (s.wrongBlockSize_eq_true.mp wrong)
  · exact ⟨m, hm, steps⟩
  · exact absurd lasts falls

/-- The call of step 3 is not answered. -/
theorem cmacSteps_of_silent_subkeys {s : State} (right : s.provider.blksz = 16) (silent : s.nextVerdict = .silent)
    (lasts : s.sourceLasts s.bundle.segl.length) : cmacSteps (cmacEntry s) = .stuck s.atSubkeys.awaitCipher := by
  rcases cmacSteps_cases s with ⟨wrong, -⟩ | ⟨-, m, hm, hlt, -⟩ | ⟨-, -, ⟨-, steps⟩ | ⟨code, fails, -⟩ | ⟨answers, -⟩⟩
  · exact absurd right (s.wrongBlockSize_eq_true.mp wrong)
  · exact absurd (lasts m hm) (by omega)
  · exact steps
  · exact absurd (silent.symm.trans fails) nofun
  · exact absurd (silent.symm.trans answers) nofun

/-! ## CMAC at a block of the message -/

/-- With `k` blocks of the loop left, the next pull is not answered: in step 6, or, where none is left, in step 7. -/
theorem blockSteps_of_silent_source {s : State} (k : Nat) (inLoop : s.phase = .s6)
    (silent : s.sourceAnswers.head? = some 0) :
    ((chainBlocks k s).andThen cmacS7).andThen finishSteps =
      .stuck (s.enterPhase (if 0 < k then .s6 else .s7)).awaitSegment := by
  cases k with
  | zero => rw [chainBlocks, Walk.go_andThen, cmacS7_of_silent silent, Walk.stuck_andThen, if_neg (Nat.lt_irrefl 0)]
  | succ k =>
    rw [chainBlocks, pullAndChain_of_silent silent, if_pos k.succ_pos, ← inLoop]
    rfl

/-- With `k` blocks of the loop left, the next pull is answered and the call after it is not: in step 6, or, where none is left,
in step 8. -/
theorem blockSteps_of_silent_call {s : State} (k : Nat) (inLoop : s.phase = .s6)
    (asked : s.sourceAnswers.head? ≠ some 0) (silent : s.nextVerdict = .silent) :
    ∃ t, ((chainBlocks k s).andThen cmacS7).andThen finishSteps = .stuck t.awaitCipher ∧ Advanced s t 1 0 ∧
      t.phase = (if 0 < k then .s6 else .s8) ∧ t.cursor = s.afterPull.cursor ∧ t.events = s.afterPull.events := by
  cases k with
  | zero =>
    obtain ⟨m, hm⟩ : ∃ m, m = maskFinal (s.enterPhase .s7).afterPull (blockOf (s.enterPhase .s7).nextChunk) := ⟨_, rfl⟩
    refine ⟨((s.enterPhase .s7).afterPull.writeB .m m).enterPhase .s8, ?_, (((Advanced.enterPhase s .s7).trans
      (.afterPull _)).trans (.writeB _ .m m)).trans (.enterPhase _ .s8), rfl, rfl, rfl⟩
    rw [chainBlocks, Walk.go_andThen, cmacS7_of_answer asked, ← hm, Walk.go_andThen, finishSteps, cmacS8,
      chainBlock_of_silent (s := ((s.enterPhase .s7).afterPull.writeB .m m).enterPhase .s8) silent, Walk.stuck_andThen]
  | succ k =>
    refine ⟨s.pulled, ?_, .pulled s, inLoop.trans (if_pos k.succ_pos).symm, rfl, rfl⟩
    rw [chainBlocks, pullAndChain_of_answer asked, chainBlock_of_silent (s := s.pulled) silent]
    rfl

/-- How CMAC is left waiting from step 6 on: the requests it has counted, and the CSRs as step 4 left them. -/
structure WaitsAtBlock (s t : State) (port : Port) (length pulls calls : Nat) : Prop where
  left : LeftWaiting s t port
  counted : t.csr.calls.toNat = calls
  pulled : t.csr.idx.toNat = pulls
  planned : PlannedFor t length
  bufs : BuffersSame s t
  verdicts : t.verdicts = s.verdicts.drop calls

/-- Step 4's plan stands through the loop and after it. -/
theorem PlannedFor.of_advanced {s t : State} {length pulls calls : Nat} (h : PlannedFor s length)
    (hadv : Advanced s t pulls calls) : PlannedFor t length := by
  obtain ⟨len, nblk, rem, fpad⟩ := h
  exact ⟨hadv.len ▸ len, hadv.nblk ▸ nblk, hadv.rem ▸ rem, hadv.fpad ▸ fpad⟩

/-- The loop begins with no pull and one call counted. -/
theorem Advanced.waitsAtBlock {s u : State} {length pulls calls : Nat} {port : Port} (h : Advanced s.atLoop u pulls calls)
    (planned : PlannedFor u length) (waits : u.outstanding = some port) (hpulls : pulls < 2 ^ 63) (hcalls : calls < 2 ^ 63) :
    WaitsAtBlock s u.leaveWaiting port length pulls (calls + 1) where
  left := ⟨waits, h.status, h.perr, rfl, congrArg afterCommand h.inputs, h.provider⟩
  counted := by
    have start : s.atLoop.csr.calls.toNat = 1 := rfl
    rw [State.leaveWaiting_csr, h.calls, BitVec.toNat_add, start, BitVec.toNat_ofNat]
    omega
  pulled := by
    have start : s.atLoop.csr.idx.toNat = 0 := rfl
    rw [State.leaveWaiting_csr, h.idx, BitVec.toNat_add, start, BitVec.toNat_ofNat]
    omega
  planned := planned
  bufs := .of_bufs h.bufs
  verdicts := by
    have start : s.atLoop.verdicts = s.verdicts.tail := rfl
    rw [State.leaveWaiting_verdicts, h.verdicts, start, List.drop_tail]

/-- A source that lasts for `k` transactions and no longer does not answer the one after them. -/
theorem State.source_silent_after {s t : State} {k : Nat} (lasts : s.sourceLasts k) (falls : ¬ s.sourceLasts (k + 1))
    (ht : t.sourceAnswers = s.sourceAnswers.modifyHead (· - k)) : t.sourceAnswers.head? = some 0 := by
  obtain ⟨m, hm, hlt⟩ : ∃ m, s.sourceAnswers.head? = some m ∧ ¬ k + 1 ≤ m := by
    simpa [State.sourceLasts] using falls
  have hge := lasts m hm
  rw [ht, List.head?_modifyHead, hm, Option.map_some, show m - k = 0 by omega]

section
variable {s : State} {c : Command} {rest : List Input} {n k : Nat} (presented : s.inputs = .command c :: rest) (hwf : c.wf)
  (hn : n = blockCount (signedStream c.bundle.segl).length) (right : s.provider.blksz = 16) (hk : k + 1 ≤ n)
  (calls : s.callsAnswer (k + 1))

include hwf hn hk in
/-- Within the limits of R11 no count of blocks wraps. -/
theorem blockIndex_lt : k + 1 < 2 ^ 63 := by
  have := (blockCount_spec (signedStream c.bundle.segl).length).2.1
  have := signedStream_length_lt hwf
  omega

include presented hwf hn right hk calls

/-- The pull for block `k + 1` of the message is not answered. -/
theorem cmac_waits_on_pull (lasts : s.sourceLasts (c.bundle.segl.length + k))
    (falls : ¬ s.sourceLasts (c.bundle.segl.length + (k + 1))) :
    ∃ t, exec .cmac s = .next t ∧ WaitsAtBlock s t .segment (signedStream c.bundle.segl).length k (k + 1) ∧
      t.phase = (if k + 1 < n then .s6 else .s7) ∧ t.cursor = some (16 * k) ∧
      t.events = eventsBeforePull c.bundle (s.provider.enc c.bundle.key) k := by
  obtain ⟨u, hu, hat, hadv, inLoop, -, -, planned, -, -, -, -, hsource, hevents⟩ :=
    cmac_reaches_block s c rest n k presented hwf hn hk right calls lasts
  have steps := hu.trans (blockSteps_of_silent_source (n - 1 - k) inLoop (State.source_silent_after lasts falls hsource))
  have waits := (Advanced.enterPhase u (if 0 < n - 1 - k then .s6 else .s7)).trans (.awaitSegment _)
  have hlt := blockIndex_lt hwf hn hk
  exact ⟨_, execCmac_stuck steps,
    (hadv.trans waits).waitsAtBlock (planned.of_advanced waits) rfl (Nat.lt_of_succ_lt hlt) (Nat.lt_of_succ_lt hlt),
    if_congr (by omega) rfl rfl, hat.cursor, hevents⟩

/-- The pull for block `k + 1` of the message is answered, and the call for it is not. -/
theorem cmac_waits_on_block_call (lasts : s.sourceLasts (c.bundle.segl.length + (k + 1)))
    (silent : (s.verdicts.drop (k + 1)).head? = some .silent) :
    ∃ t, exec .cmac s = .next t ∧ WaitsAtBlock s t .cipher (signedStream c.bundle.segl).length (k + 1) (k + 1 + 1) ∧
      t.phase = (if k + 1 < n then .s6 else .s8) ∧
      t.cursor = some (min (16 * (k + 1)) (signedStream c.bundle.segl).length) ∧
      t.events = eventsBeforePull c.bundle (s.provider.enc c.bundle.key) k ++
        [.segPull (chunkAt (signedStream c.bundle.segl) (16 * k))] := by
  obtain ⟨u, hu, hat, hadv, inLoop, -, -, planned, -, -, -, hverdicts, hsource, hevents⟩ :=
    cmac_reaches_block s c rest n k presented hwf hn hk right calls (State.sourceLasts_mono lasts (by omega))
  have asked : u.sourceAnswers.head? ≠ some 0 := State.sourceLasts_ne (k := 0) (State.sourceLasts_sub lasts hsource)
  obtain ⟨v, steps, pull, hphase, hcursor, hevents'⟩ := blockSteps_of_silent_call (n - 1 - k) inLoop asked
    (State.nextVerdict_of_head (hverdicts ▸ silent))
  have waits := pull.trans (.awaitCipher v)
  have hlt := blockIndex_lt hwf hn hk
  refine ⟨_, execCmac_stuck (hu.trans steps), (hadv.trans waits).waitsAtBlock (planned.of_advanced waits) rfl hlt hlt,
    hphase.trans (if_congr (by omega) rfl rfl), hcursor.trans ?_, hevents'.trans ?_⟩
  · rw [State.afterPull, hat.cursor, hat.stream]
    rfl
  · rw [State.afterPull, State.nextChunk, hat.cursor, hat.stream, hevents]
    rfl

end

/-! ## The statement -/

/-- Settles O34: the one call of CBCM and GENSUBK by `oneCall_leftWaiting`, step 2 of CMAC by `cmacSteps_of_silent_desc`,
step 3 by `cmacSteps_of_silent_subkeys`, the blocks by `cmac_waits_on_pull` and `cmac_waits_on_block_call`. -/
theorem unansweredCommandsAreLeftWaiting : Obligations.UnansweredCommandsAreLeftWaiting := by
  refine fun s right => ⟨fun silent i hi => ?_, fun falls => ?_, fun silent lasts => ?_, ?_⟩
  · obtain ⟨bd, ba, ch, rfl⟩ | rfl := hi
    · exact oneCall_leftWaiting s.bundle.key (s.readB ba) (chainInput ch s) (fun mac u => u.writeChained bd ch mac) right
        silent
    · exact oneCall_leftWaiting s.bundle.key zeroBlock none (fun mac u => u.setSubkeys mac) right silent
  · obtain ⟨m, hm, steps⟩ := cmacSteps_of_silent_desc right falls
    refine ⟨_, execCmac_stuck steps, ⟨rfl, rfl, rfl, rfl, rfl, rfl⟩, rfl, rfl, rfl, rfl, rfl, rfl, .of_bufs rfl, rfl,
      fun m' hm' => ?_⟩
    cases hm.symm.trans hm'
    rfl
  · exact ⟨_, execCmac_stuck (cmacSteps_of_silent_subkeys right silent lasts), ⟨rfl, rfl, rfl, rfl, rfl, rfl⟩, rfl, rfl,
      rfl, rfl, rfl, .of_bufs rfl, rfl, rfl⟩
  · rintro c rest n length (_ | k) presented hwf rfl hn hj hle calls
    · exact absurd hj (by decide)
    · refine ⟨fun lasts falls => ?_, fun lasts silent => ?_⟩
      · obtain ⟨t, run, waits, phase, cursor, events⟩ :=
          cmac_waits_on_pull presented hwf hn right hle calls lasts falls
        exact ⟨t, run, waits.left, phase, waits.counted, waits.pulled, waits.planned, cursor, waits.bufs, waits.verdicts,
          events⟩
      · obtain ⟨t, run, waits, phase, cursor, events⟩ :=
          cmac_waits_on_block_call presented hwf hn right hle calls lasts silent
        exact ⟨t, run, waits.left, phase, waits.counted, waits.pulled, waits.planned, cursor, waits.bufs, waits.verdicts,
          events⟩

end Sys2Proof.Machine
end
